-- ==== Sys2Proof/Word.lean ====
section
/-! DEFINITION. The three value types of spec rule R8: bytes, 32-bit words and 16-byte blocks. -/

namespace Sys2Proof

/-- R8: a byte is an 8-bit unsigned value. -/
abbrev Byte := BitVec 8

/-- R8: a word is a 32-bit unsigned value. -/
abbrev Word := BitVec 32

/-- R8, R85: a block of 16 bytes, held as the 128-bit string the manual reads it as (R85), with byte 0
in the most significant place (`int128` of R8).  The manual XORs blocks, shifts them (R87) and adds to
them (R150); `Sys2Proof.Machine.byteAt` gives the byte view. -/
abbrev Block := BitVec 128

end Sys2Proof
end

