-- ==== Sys2Proof/Syntax.lean ====
section
/-! DEFINITION. The command frame of spec rules R45 to R47 and the commands of R49 and R58 as syntax. -/

namespace Sys2Proof

/-- R31: a buffer descriptor (ADDR, LEN), both 32-bit unsigned values. -/
structure Desc where
  addr : Word
  len  : Word
deriving DecidableEq, Repr

/-- R45, R47: a command frame is a tuple of twelve 32-bit words, F[0] to F[11], named as R47 names them. -/
structure Frame where
  /-- F[0], the command word of R46 -/
  cmd  : Word
  /-- F[1] -/
  nblk : Word
  /-- F[2], F[3] -/
  src  : Desc
  /-- F[4], F[5] -/
  dst  : Desc
  /-- F[6], F[7] -/
  iv   : Desc
  /-- F[8], F[9] -/
  aad  : Desc
  /-- F[10], F[11] -/
  tag  : Desc
deriving DecidableEq, Repr

/-- R49, R58: the sixteen commands, one constructor per row of the opcode table, each with the operands
R48 says it uses and no others. -/
inductive Instr where
  /-- CONFIG (0x01): KEYBITS, F[0][31:16] (R50) -/
  | config   (keybits : BitVec 16)
  /-- INITKEYS (0x02) -/
  | initkeys (src : Desc)
  /-- ENCBLK (0x03) -/
  | encblk   (src dst : Desc)
  /-- DECBLK (0x04) -/
  | decblk   (src dst : Desc)
  /-- ECB.ENC (0x10) -/
  | ecbEnc   (nblk : Word) (src dst : Desc)
  /-- ECB.DEC (0x11) -/
  | ecbDec   (nblk : Word) (src dst : Desc)
  /-- CBC.ENC (0x12) -/
  | cbcEnc   (nblk : Word) (src dst iv : Desc)
  /-- CBC.DEC (0x13) -/
  | cbcDec   (nblk : Word) (src dst iv : Desc)
  /-- CFB.ENC (0x14) -/
  | cfbEnc   (nblk : Word) (src dst iv : Desc)
  /-- CFB.DEC (0x15) -/
  | cfbDec   (nblk : Word) (src dst iv : Desc)
  /-- OFB.ENC (0x16) -/
  | ofbEnc   (nblk : Word) (src dst iv : Desc)
  /-- OFB.DEC (0x17) -/
  | ofbDec   (nblk : Word) (src dst iv : Desc)
  /-- CTR.ENC (0x18) -/
  | ctrEnc   (nblk : Word) (src dst iv : Desc)
  /-- CTR.DEC (0x19) -/
  | ctrDec   (nblk : Word) (src dst iv : Desc)
  /-- GCM.ENC (0x1A) -/
  | gcmEnc   (src dst iv aad tag : Desc)
  /-- GCM.DEC (0x1B) -/
  | gcmDec   (src dst iv aad tag : Desc)
deriving DecidableEq, Repr

end Sys2Proof
end

