-- ==== Sys2Proof/WellFormed.lean ====
section
/-! DEFINITION. The opcode table (spec/opcode_table.json, R49) as a list of rows, and which frames are
well formed: the command word matches a row (R52) and the operand words the command does not use are zero
(R53, R56: what an assembler writes).  Every term of `Instr` is well formed by its field widths, so the
checks stand on frames; the decoder of Decode.lean does not use them. -/

namespace Sys2Proof

/-- R48: which operand words a command uses. -/
structure Uses where
  nblk : Bool := false
  src  : Bool := false
  dst  : Bool := false
  iv   : Bool := false
  aad  : Bool := false
  tag  : Bool := false
deriving DecidableEq, Repr

/-- One row of the opcode table: a frame is the row's when its command word, masked, equals the match. -/
structure OpcodeRow where
  mnemonic : String
  mask     : Word
  value    : Word
  uses     : Uses
deriving DecidableEq, Repr

def usesBlock : Uses := { src := true, dst := true }
def usesEcb   : Uses := { nblk := true, src := true, dst := true }
def usesChain : Uses := { nblk := true, src := true, dst := true, iv := true }
def usesGcm   : Uses := { src := true, dst := true, iv := true, aad := true, tag := true }

/-- The sixteen rows of the opcode table, with R48's operands. -/
def opcodeTable : List OpcodeRow :=
  [ ⟨"CONFIG",   0x0000FFFF#32, 0x00000001#32, {}⟩,
    ⟨"INITKEYS", 0xFFFFFFFF#32, 0x00000002#32, { src := true }⟩,
    ⟨"ENCBLK",   0xFFFFFFFF#32, 0x00000003#32, usesBlock⟩,
    ⟨"DECBLK",   0xFFFFFFFF#32, 0x00000004#32, usesBlock⟩,
    ⟨"ECB.ENC",  0xFFFFFFFF#32, 0x00000010#32, usesEcb⟩,
    ⟨"ECB.DEC",  0xFFFFFFFF#32, 0x00000011#32, usesEcb⟩,
    ⟨"CBC.ENC",  0xFFFFFFFF#32, 0x00000012#32, usesChain⟩,
    ⟨"CBC.DEC",  0xFFFFFFFF#32, 0x00000013#32, usesChain⟩,
    ⟨"CFB.ENC",  0xFFFFFFFF#32, 0x00000014#32, usesChain⟩,
    ⟨"CFB.DEC",  0xFFFFFFFF#32, 0x00000015#32, usesChain⟩,
    ⟨"OFB.ENC",  0xFFFFFFFF#32, 0x00000016#32, usesChain⟩,
    ⟨"OFB.DEC",  0xFFFFFFFF#32, 0x00000017#32, usesChain⟩,
    ⟨"CTR.ENC",  0xFFFFFFFF#32, 0x00000018#32, usesChain⟩,
    ⟨"CTR.DEC",  0xFFFFFFFF#32, 0x00000019#32, usesChain⟩,
    ⟨"GCM.ENC",  0xFFFFFFFF#32, 0x0000001A#32, usesGcm⟩,
    ⟨"GCM.DEC",  0xFFFFFFFF#32, 0x0000001B#32, usesGcm⟩ ]

/-- R49: the mnemonic of a command. -/
def Instr.mnemonic : Instr → String
  | .config ..   => "CONFIG"
  | .initkeys .. => "INITKEYS"
  | .encblk ..   => "ENCBLK"
  | .decblk ..   => "DECBLK"
  | .ecbEnc ..   => "ECB.ENC"
  | .ecbDec ..   => "ECB.DEC"
  | .cbcEnc ..   => "CBC.ENC"
  | .cbcDec ..   => "CBC.DEC"
  | .cfbEnc ..   => "CFB.ENC"
  | .cfbDec ..   => "CFB.DEC"
  | .ofbEnc ..   => "OFB.ENC"
  | .ofbDec ..   => "OFB.DEC"
  | .ctrEnc ..   => "CTR.ENC"
  | .ctrDec ..   => "CTR.DEC"
  | .gcmEnc ..   => "GCM.ENC"
  | .gcmDec ..   => "GCM.DEC"

def OpcodeRow.matches (r : OpcodeRow) (f : Frame) : Bool := f.cmd &&& r.mask == r.value

/-- R52: the row a frame's command word selects, none for an illegal frame. -/
def rowOf (f : Frame) : Option OpcodeRow := opcodeTable.find? (·.matches f)

def Desc.isZero (d : Desc) : Bool := d.addr == 0 && d.len == 0

/-- R53, R56: the words a row does not use are zero. -/
def OpcodeRow.unusedZero (r : OpcodeRow) (f : Frame) : Bool :=
  (r.uses.nblk || f.nblk == 0) && (r.uses.src || f.src.isZero) && (r.uses.dst || f.dst.isZero) &&
  (r.uses.iv || f.iv.isZero) && (r.uses.aad || f.aad.isZero) && (r.uses.tag || f.tag.isZero)

/-- A frame as an assembler writes it: legal (R52), with its unused words zero (R56). -/
def Frame.wellFormed (f : Frame) : Bool :=
  match rowOf f with
  | some r => r.unusedZero f
  | none   => false

end Sys2Proof
end

