-- ==== Sys2Proof/Decode.lean ====
section
/-! DEFINITION. Decoding a frame (R58, total), naming why a frame is illegal (R52), the encoder (R56), and
the host's view of a table word. -/

namespace Sys2Proof

/-- R52: the three reasons a frame is illegal, in the order R58 tests them. -/
inductive Illegal where
  /-- R52 (b): RSV, F[0][15:8], is not 0 -/
  | reservedBits
  /-- R52 (c): KEYBITS is not 0 and the opcode is not CONFIG's -/
  | keybitsNotZero
  /-- R52 (a): the opcode is none of the sixteen -/
  | reservedOpcode
deriving DecidableEq, Repr

/-- R58: `Command | Illegal`. -/
inductive Decoded where
  | command (i : Instr)
  | illegal (why : Illegal)
deriving DecidableEq, Repr

/-- R46: OPC, F[0][7:0]. -/
def opcOf (f : Frame) : Byte := f.cmd.extractLsb' 0 8

/-- R46: RSV, F[0][15:8]. -/
def rsvOf (f : Frame) : Byte := f.cmd.extractLsb' 8 8

/-- R46, R50: KEYBITS, F[0][31:16]. -/
def keybitsOf (f : Frame) : BitVec 16 := f.cmd.extractLsb' 16 16

/-- R49: the command an opcode other than CONFIG's selects, with the operands R58 gives it. -/
def commandOf (f : Frame) : Option Instr :=
  match (opcOf f).toNat with
  | 0x02 => some (.initkeys f.src)
  | 0x03 => some (.encblk f.src f.dst)
  | 0x04 => some (.decblk f.src f.dst)
  | 0x10 => some (.ecbEnc f.nblk f.src f.dst)
  | 0x11 => some (.ecbDec f.nblk f.src f.dst)
  | 0x12 => some (.cbcEnc f.nblk f.src f.dst f.iv)
  | 0x13 => some (.cbcDec f.nblk f.src f.dst f.iv)
  | 0x14 => some (.cfbEnc f.nblk f.src f.dst f.iv)
  | 0x15 => some (.cfbDec f.nblk f.src f.dst f.iv)
  | 0x16 => some (.ofbEnc f.nblk f.src f.dst f.iv)
  | 0x17 => some (.ofbDec f.nblk f.src f.dst f.iv)
  | 0x18 => some (.ctrEnc f.nblk f.src f.dst f.iv)
  | 0x19 => some (.ctrDec f.nblk f.src f.dst f.iv)
  | 0x1A => some (.gcmEnc f.src f.dst f.iv f.aad f.tag)
  | 0x1B => some (.gcmDec f.src f.dst f.iv f.aad f.tag)
  | _    => none

/-- R58: decoding, total on frames. -/
def decode (f : Frame) : Decoded :=
  if rsvOf f ≠ 0 then .illegal .reservedBits
  else if opcOf f = 0x01 then .command (.config (keybitsOf f))
  else if keybitsOf f ≠ 0 then .illegal .keybitsNotZero
  else match commandOf f with
    | some i => .command i
    | none   => .illegal .reservedOpcode

/-- A descriptor of two zero words. -/
def zeroDesc : Desc := ⟨0, 0⟩

/-- R56: the frame with command word `cmd` and every operand word 0. -/
def bareFrame (cmd : Word) : Frame := ⟨cmd, 0, zeroDesc, zeroDesc, zeroDesc, zeroDesc, zeroDesc⟩

/-- R56: a mode command's frame (AAD and TAG words 0). -/
def modeFrame (opc : Word) (n : Word) (src dst iv : Desc) : Frame :=
  { bareFrame opc with nblk := n, src := src, dst := dst, iv := iv }

/-- R56: a GCM command's frame (NBLK 0). -/
def gcmFrame (opc : Word) (src dst iv aad tag : Desc) : Frame :=
  ⟨opc, 0, src, dst, iv, aad, tag⟩

/-- R56: `F[0] = OPC` (CONFIG: `OPC + bits*65536`), the operands in their words, 0 elsewhere. -/
def encode : Instr → Frame
  | .config kb                 => bareFrame (kb ++ 0x0001#16)
  | .initkeys src              => { bareFrame 0x02 with src := src }
  | .encblk src dst            => { bareFrame 0x03 with src := src, dst := dst }
  | .decblk src dst            => { bareFrame 0x04 with src := src, dst := dst }
  | .ecbEnc n src dst          => modeFrame 0x10 n src dst zeroDesc
  | .ecbDec n src dst          => modeFrame 0x11 n src dst zeroDesc
  | .cbcEnc n src dst iv       => modeFrame 0x12 n src dst iv
  | .cbcDec n src dst iv       => modeFrame 0x13 n src dst iv
  | .cfbEnc n src dst iv       => modeFrame 0x14 n src dst iv
  | .cfbDec n src dst iv       => modeFrame 0x15 n src dst iv
  | .ofbEnc n src dst iv       => modeFrame 0x16 n src dst iv
  | .ofbDec n src dst iv       => modeFrame 0x17 n src dst iv
  | .ctrEnc n src dst iv       => modeFrame 0x18 n src dst iv
  | .ctrDec n src dst iv       => modeFrame 0x19 n src dst iv
  | .gcmEnc src dst iv aad tag => gcmFrame 0x1A src dst iv aad tag
  | .gcmDec src dst iv aad tag => gcmFrame 0x1B src dst iv aad tag

/-- Word `k` of the frame whose bits, numbered from the least significant bit of F[0] on, are the first `nbits`
bits of `w` and zeros after them: bits `32k+31 .. 32k`. -/
def wordOfBits (nbits w k : Nat) : Word := BitVec.ofNat 32 ((w >>> (32 * k)) % 2 ^ min 32 (nbits - 32 * k))

/-- The frame whose first `nbits` bits are those of `w` and whose other bits are 0. -/
def frameOfBits (nbits w : Nat) : Frame :=
  { cmd  := wordOfBits nbits w 0, nblk := wordOfBits nbits w 1
    src  := ⟨wordOfBits nbits w 2, wordOfBits nbits w 3⟩
    dst  := ⟨wordOfBits nbits w 4, wordOfBits nbits w 5⟩
    iv   := ⟨wordOfBits nbits w 6, wordOfBits nbits w 7⟩
    aad  := ⟨wordOfBits nbits w 8, wordOfBits nbits w 9⟩
    tag  := ⟨wordOfBits nbits w 10, wordOfBits nbits w 11⟩ }

/-- The host's question: what the decoder reads from a table word. -/
def decodeTableWord (nbits w : Nat) : Option Instr :=
  match decode (frameOfBits nbits w) with
  | .command i => some i
  | .illegal _ => none

end Sys2Proof
end

