-- ==== Sys2Proof/Config.lean ====
section
/-! DEFINITION. The parameters of spec rules R6 and R7, what an unlisted memory byte reads as, and the one
value the spec leaves undefined. -/

namespace Sys2Proof.Config

/-- R7 (ADDR_W = 32), R30: the buffer memory has `2^32` byte addresses. -/
def addressSpace : Nat := 4294967296

/-- R7: GCM_MAX_BYTES = 2^29 - 1, the longest AAD and the longest text a GCM command accepts. -/
def gcmMaxBytes : Nat := 536870911

/-- R7 (W_REGS = 60): the number of registers of the key-schedule file. -/
abbrev wRegs : Nat := 60

/-- R6: the bytes of one block. -/
def blockBytes : Nat := 16

/-- R6, R171: the bytes of a GCM nonce. -/
def nonceBytes : Nat := 12

/-- What a memory address that the memory's list does not name reads as.  DESIGN CHOICE (log entry 1): R30
gives every address a byte and leaves the initial content to the host; unsafe for claims about the run
from `State.reset`, and without effect on claims about every state. -/
def unlistedByte : Byte := 0#8

/-- R14: Nk "is undefined" while KSIZE = 0 "and no rule uses" it then.  A free value without a body (log
entry 3): no proof can learn a number from it. -/
opaque nkUnconfigured : Nat

end Sys2Proof.Config
end

