-- ==== Sys2Proof/Machine/State.lean ====
section
/-! DEFINITION. CORE's state (R10 to R25), the host's inputs (R25, R40, R220), the result codes (R195) and
the state after reset (R23). -/

namespace Sys2Proof.Machine

open Sys2Proof

/-- R195: the twelve result codes. -/
inductive ResultCode where
  | ok
  | invalidKeySize
  | tagMismatch
  | bufferLengthMismatch
  | illegalCommand
  | notConfigured
  | keyNotLoaded
  | keyLocked
  | addressRange
  | bufferOverlap
  | lengthRange
  | counterWrap
deriving DecidableEq, Repr

/-- R30: the buffer memory, a total map from the `2^32` addresses to bytes, as the list of the addresses
that hold something else than `Config.unlistedByte`. -/
abbrev Memory := List Host.Cell

/-- The addresses of a memory list rise strictly and none is below `lo`; every address exists (R30) and no
entry repeats what an unlisted address reads as. -/
def Memory.wfFrom (lo : Nat) : Memory → Bool
  | []          => true
  | (a, b) :: m => decide (lo ≤ a) && decide (a < Config.addressSpace) && (b != Config.unlistedByte) &&
      Memory.wfFrom (a + 1) m

/-- The canonical form of the memory list: equal memories are equal data. -/
def Memory.wf (m : Memory) : Bool := Memory.wfFrom 0 m

/-- R20: the transient registers, each with the width R20 gives it. -/
structure Transients where
  /-- ST: the AES state -/
  st    : Block
  /-- CV: the chaining value -/
  cv    : Block
  /-- CTRB: the counter block -/
  ctrb  : Block
  /-- KS: the keystream block -/
  ks    : Block
  /-- H: the hash subkey -/
  h     : Block
  /-- EJ0: the encrypted initial counter block -/
  ej0   : Block
  /-- ACC: the GHASH accumulator -/
  acc   : Block
  /-- TAGIN: the tag supplied to GCM.DEC -/
  tagin : Block
  /-- IDX: the index of the block being processed -/
  idx   : BitVec 28
deriving DecidableEq, Repr

/-- R21: every transient register zero, as at reset and after every command. -/
def Transients.zero : Transients :=
  { st := 0, cv := 0, ctrb := 0, ks := 0, h := 0, ej0 := 0, acc := 0, tagin := 0, idx := 0 }

/-- What a command works on while it runs: the transient registers and the buffer memory.  A cipher
command only reads the rest of the context (R104). -/
structure Work extends Transients where
  mem : Memory
deriving DecidableEq, Repr

/-- The key schedule as a cipher command reads it: W (R16) and the round count Nr (R14). -/
structure Schedule where
  w  : Vector Word Config.wRegs
  nr : Nat
deriving DecidableEq, Repr

/-- What the host can do to CORE between commands (R25, R40, R220): present a frame, reset, or store a byte
in the memory it owns (R30).  Reading the memory or the status port changes nothing (R18, R32). -/
inductive HostEvent where
  | frame (f : Frame)
  | reset
  | poke  (addr : Word) (b : Byte)
deriving DecidableEq, Repr

/-- All the state the spec gives CORE (R10), the memory it works on (R30), and its two ports as data. -/
structure State where
  /-- KSIZE (R14): 0 not configured, 1, 2, 3 = 128, 192, 256 bits -/
  ksize     : BitVec 2
  /-- KEYVALID (R15) -/
  keyvalid  : Bool
  /-- W[0..59] (R16), the key-schedule register file -/
  w         : Vector Word Config.wRegs
  /-- LAST (R17), the result code of the most recent command -/
  last      : BitVec 4
  /-- the transient registers (R20) -/
  tr        : Transients
  /-- the buffer memory (R30); the host's, read and written by CORE -/
  mem       : Memory
  /-- the command port and reset input (R25): what the host does next, soonest first -/
  inputs    : List HostEvent
  /-- the response port (R25, R195): the result codes returned so far, oldest first -/
  responses : List ResultCode
deriving DecidableEq, Repr

/-- Faults: none.  R196: "No result code stops CORE or the host"; R30: "an access never fails".  Every
error the spec names is a result code, after which CORE goes on. -/
inductive Fault where
deriving DecidableEq, Repr

/-- Refusals. -/
inductive Refusal where
  /-- An instruction that has no meaning yet; raised by no arm of `exec` (safe). -/
  | notModelled (mnemonic : String)
deriving DecidableEq, Repr

/-- R23, R221: the state after reset, with a blank memory (log entry 1) and nothing presented yet. -/
def State.reset : State :=
  { ksize := 0, keyvalid := false, w := Vector.replicate Config.wRegs 0, last := 0,
    tr := Transients.zero, mem := [], inputs := [], responses := [] }

end Sys2Proof.Machine
end

