-- ==== Sys2Proof/Machine/Bytes.lean ====
section
/-! DEFINITION. Byte order (R8, R34, R35): bytes of blocks and words, all big-endian. -/

namespace Sys2Proof.Machine

open Sys2Proof

/-- R8, R34: `b[k]`, the byte `k` (0 to 15) of a block; byte 0 is the most significant. -/
def byteAt (b : Block) (k : Nat) : Byte := b.extractLsb' (8 * (15 - k)) 8

/-- The block whose byte `k` is `f k`. -/
def blockOf (f : Nat → Byte) : Block :=
  f 0 ++ f 1 ++ f 2 ++ f 3 ++ f 4 ++ f 5 ++ f 6 ++ f 7 ++
  f 8 ++ f 9 ++ f 10 ++ f 11 ++ f 12 ++ f 13 ++ f 14 ++ f 15

/-- R174: `pad16`, the bytes first, then zero bytes up to 16; of sixteen bytes, the block they make. -/
def blockOfBytes (bs : List Byte) : Block := blockOf fun k => bs.getD k 0

/-- The sixteen bytes of a block, byte 0 first. -/
def bytesOf (b : Block) : List Byte := (List.range 16).map (byteAt b)

/-- R8: `be32`. -/
def be32 (b0 b1 b2 b3 : Byte) : Word := b0 ++ b1 ++ b2 ++ b3

/-- R8: byte `k` (0 to 3) of `bytes_be32 w`. -/
def wordByte (w : Word) (k : Nat) : Byte := w.extractLsb' (8 * (3 - k)) 8

/-- R8: `int128`. -/
def int128 (b : Block) : Nat := b.toNat

/-- R8: `block128(n)`, the inverse of `int128`, which R8 gives for `n` below `2^128` only.  DESIGN CHOICE (log
entry 15): total here, of `n` modulo `2^128` beyond; no command reaches such an `n`. -/
def block128 (n : Nat) : Block := BitVec.ofNat 128 n

/-- XOR of two byte strings, as long as the shorter one: `C XOR KS[0 .. m-1]` (R177). -/
def xorBytes (x y : List Byte) : List Byte := List.zipWith (· ^^^ ·) x y

end Sys2Proof.Machine
end

