-- ==== Sys2Proof/Machine/Gf128.lean ====
section
/-! DEFINITION. The GF(2^128) unit (R85 to R90): XOR, the shift with carry and the GHASH multiply. -/

namespace Sys2Proof.Machine

open Sys2Proof

/-- R86: `xorAccumulate(dst, src)`. -/
def xorAccumulate (dst src : Block) : Block := dst ^^^ src

/-- R87: one bit to the right as a big-endian bit string, and the bit shifted out of the low end
(`int128(buf') = int128(buf) >> 1`, `carryBit = int128(buf) mod 2`). -/
def rightShiftWithCarry (buf : Block) : Block × Bool := (buf >>> 1, buf.getLsbD 0)

/-- R88: 0xE1 XORed into byte 0. -/
def reduceTop (v : Block) : Block := xorAccumulate v (0xE1#8 ++ 0#120)

/-- R88: what happens to the running copy after each bit of `a`. -/
def ghashShift (v : Block) : Block :=
  if (rightShiftWithCarry v).2 then reduceTop (rightShiftWithCarry v).1 else (rightShiftWithCarry v).1

/-- R88: `n` bits of `a` from bit number `j` of R85 on, with the accumulator z and the running copy v. -/
def ghashLoop (a : Block) : Nat → Nat → Block → Block → Block
  | 0,     _, z, _ => z
  | n + 1, j, z, v => ghashLoop a n (j + 1) (if a.getMsbD j then xorAccumulate z v else z) (ghashShift v)

/-- R88: `ghashMultiply(a, b)`, the 128 bits of `a`, byte 0 first and bit 7 first in each byte.
(Irreducible, so that no proof unrolls the 128 iterations by accident.) -/
@[irreducible] def ghashMultiply (a b : Block) : Block := ghashLoop a 128 0 0 b

end Sys2Proof.Machine
end

