-- ==== Sys2Proof/Machine/Gf256.lean ====
section
/-! DEFINITION. The GF(2^8) unit (R65 to R75): multiply, degree, divide, the inverse, the affine transform
and the two ROM tables. -/

namespace Sys2Proof.Machine

open Sys2Proof

/-- R66: the 9-bit shift of the first operand and its reduction by 0x11B, back to 8 bits. -/
def xtime (a : Byte) : Byte :=
  let a9 : BitVec 9 := a.setWidth 9 <<< 1
  (if a9.getLsbD 8 then a9 ^^^ 0x11B#9 else a9).setWidth 8

/-- R66: `k` passes of the loop of `multiply`, from the operands and the product so far. -/
def multiplyLoop : Nat → Byte → Byte → Byte → Byte
  | 0,     _, _, p => p
  | k + 1, a, b, p => multiplyLoop k (xtime a) (b >>> 1) (if b.getLsbD 0 then p ^^^ a else p)

/-- R66: `multiply(a, b)`, eight passes. -/
def multiply (a b : Byte) : Byte := multiplyLoop 8 a b 0

/-- R67: the bit length of an unsigned integer, 0 for 0. -/
def degree (a : Nat) : Nat := if a = 0 then 0 else a.log2 + 1

/-- R68: `k` passes at most of the loop of `divide`, from the quotient and remainder so far. -/
def divideLoop : Nat → Nat → Nat → Nat → Nat × Nat
  | 0,     _, q, r => (q, r)
  | k + 1, b, q, r =>
    if degree r ≥ degree b then
      divideLoop k b (q ^^^ (1 <<< (degree r - degree b))) (r ^^^ (b <<< (degree r - degree b)))
    else (q, r)

/-- R68: `divide(a, b) -> (q, r)`; the loop runs at most `degree(a)` times.  `b = 0` is outside the
function, which then answers none. -/
def divide (a b : Nat) : Option (Nat × Nat) := if b = 0 then none else some (divideLoop (degree a) b 0 a)

/-- R70: the carry-less product without reduction, over `k` bits of `y`. -/
def clmulLoop : Nat → Nat → Nat → Nat → Nat
  | 0,     _, _, p => p
  | k + 1, x, y, p => clmulLoop k (x <<< 1) (y >>> 1) (if y % 2 = 1 then p ^^^ x else p)

/-- R70: `clmul(x, y)`. -/
def clmul (x y : Nat) : Nat := clmulLoop (degree y) x y 0

/-- R70: `k` passes at most of the extended Euclidean loop on the remainders r0, r1 and coefficients t0, t1. -/
def inverseLoop : Nat → Nat → Nat → Nat → Nat → Nat
  | 0,     _,  _,  t0, _  => t0
  | k + 1, r0, r1, t0, t1 =>
    match divide r0 r1 with
    | none        => t0
    | some (q, r) => inverseLoop k r1 r t1 (t0 ^^^ clmul q t1)

/-- R69, R70: `multiplicativeInverse(a)`; "bounded to at most 8 levels due to field size". -/
def multiplicativeInverse (a : Byte) : Byte :=
  if a = 0 then 0 else BitVec.ofNat 8 (inverseLoop 8 0x11B a.toNat 0 1)

/-- R71: rotation of a byte to the left. -/
def rotl8 (x : Byte) (n : Nat) : Byte := (x <<< n) ||| (x >>> (8 - n))

/-- R71: the affine transform. -/
def affine (x : Byte) : Byte := x ^^^ rotl8 x 1 ^^^ rotl8 x 2 ^^^ rotl8 x 3 ^^^ rotl8 x 4 ^^^ 0x63

/-- R72: the rows 0x to Fx of the forward table, column 0 first. -/
def sboxRows : List Block :=
  [ 0x637c777bf26b6fc53001672bfed7ab76#128, 0xca82c97dfa5947f0add4a2af9ca472c0#128,
    0xb7fd9326363ff7cc34a5e5f171d83115#128, 0x04c723c31896059a071280e2eb27b275#128,
    0x09832c1a1b6e5aa0523bd6b329e32f84#128, 0x53d100ed20fcb15b6acbbe394a4c58cf#128,
    0xd0efaafb434d338545f9027f503c9fa8#128, 0x51a3408f929d38f5bcb6da2110fff3d2#128,
    0xcd0c13ec5f974417c4a77e3d645d1973#128, 0x60814fdc222a908846eeb814de5e0bdb#128,
    0xe0323a0a4906245cc2d3ac629195e479#128, 0xe7c8376d8dd54ea96c56f4ea657aae08#128,
    0xba78252e1ca6b4c6e8dd741f4bbd8b8a#128, 0x703eb5664803f60e613557b986c11d9e#128,
    0xe1f8981169d98e949b1e87e9ce5528df#128, 0x8ca1890dbfe6426841992d0fb054bb16#128 ]

/-- R73: the rows of the inverse table. -/
def invSboxRows : List Block :=
  [ 0x52096ad53036a538bf40a39e81f3d7fb#128, 0x7ce339829b2fff87348e4344c4dee9cb#128,
    0x547b9432a6c2233dee4c950b42fac34e#128, 0x082ea16628d924b2765ba2496d8bd125#128,
    0x72f8f66486689816d4a45ccc5d65b692#128, 0x6c704850fdedb9da5e154657a78d9d84#128,
    0x90d8ab008cbcd30af7e45805b8b34506#128, 0xd02c1e8fca3f0f02c1afbd0301138a6b#128,
    0x3a9111414f67dcea97f2cfcef0b4e673#128, 0x96ac7422e7ad3585e2f937e81c75df6e#128,
    0x47f11a711d29c5896fb7620eaa18be1b#128, 0xfc563e4bc6d279209adbc0fe78cd5af4#128,
    0x1fdda8338807c731b11210592780ec5f#128, 0x60517fa919b54a0d2de57a9f93c99cef#128,
    0xa0e03b4dae2af5b0c8ebbb3c83539961#128, 0x172b047eba77d626e169146355210c7d#128 ]

/-- The entry of a 256-entry table of sixteen rows: row = high hex digit, column = low hex digit. -/
def tableAt (rows : List Block) (x : Byte) : Byte := byteAt (rows.getD (x.toNat / 16) 0) (x.toNat % 16)

/-- R19, R72: SBOX[x]. -/
def sbox (x : Byte) : Byte := tableAt sboxRows x

/-- R19, R73: INVSBOX[x]. -/
def invSbox (x : Byte) : Byte := tableAt invSboxRows x

end Sys2Proof.Machine
end

