-- ==== Sys2Proof/Machine/Flags.lean ====
section
/-! DEFINITION. The flags (R13), the quantities derived from KSIZE (R14, R95), the result codes' numbers
(R195) and the status port (R18). -/

namespace Sys2Proof.Machine

open Sys2Proof

/-- R13: CONFIGURED is `KSIZE != 0`. -/
def configured (s : State) : Bool := s.ksize != 0

/-- R14: Nk = 2*KSIZE + 2; undefined, and a free value here, while KSIZE = 0. -/
def nkOf (ksize : BitVec 2) : Nat := if ksize = 0 then Config.nkUnconfigured else 2 * ksize.toNat + 2

/-- R14: Nr = Nk + 6. -/
def nrOf (ksize : BitVec 2) : Nat := nkOf ksize + 6

/-- R14: KEYBYTES = 4*Nk. -/
def keybytesOf (ksize : BitVec 2) : Nat := 4 * nkOf ksize

/-- R14: NW = 4*(Nr + 1). -/
def nwOf (ksize : BitVec 2) : Nat := 4 * (nrOf ksize + 1)

/-- R96: the KSIZE a key size in bits selects, none for an unsupported size. -/
def ksizeOfBits (keybits : BitVec 16) : Option (BitVec 2) :=
  if keybits = 128 then some 1
  else if keybits = 192 then some 2
  else if keybits = 256 then some 3
  else none

/-- R195: the 4-bit number of a result code. -/
def ResultCode.code : ResultCode → BitVec 4
  | .ok                   => 0
  | .invalidKeySize       => 1
  | .tagMismatch          => 2
  | .bufferLengthMismatch => 3
  | .illegalCommand       => 4
  | .notConfigured        => 5
  | .keyNotLoaded         => 6
  | .keyLocked            => 7
  | .addressRange         => 8
  | .bufferOverlap        => 9
  | .lengthRange          => 10
  | .counterWrap          => 11

/-- R18: the status port, `LAST << 4 | KSIZE << 2 | KEYVALID << 1 | CONFIGURED`. -/
def status (s : State) : BitVec 8 :=
  s.last ++ s.ksize ++ BitVec.ofBool s.keyvalid ++ BitVec.ofBool (configured s)

end Sys2Proof.Machine
end

