-- ==== Sys2Proof/Machine/Ops.lean ====
section
/-! DEFINITION. The shared operations: one byte and runs of bytes of memory (R32, R33), ending a command
with a result code (R195 to R198), the host's events (R25, R220) and the loop over blocks (R140). -/

namespace Sys2Proof.Machine

open Sys2Proof

/-! ### Memory -/

/-- R32: the byte at an address. -/
def readByte : Memory → Nat → Byte
  | [],          _ => Config.unlistedByte
  | (x, c) :: m, a => if x = a then c else readByte m a

/-- Put a cell in a memory list, keeping its canonical form. -/
def putCell : Memory → Nat → Byte → Memory
  | [],          a, b => if b = Config.unlistedByte then [] else [(a, b)]
  | (x, c) :: m, a, b =>
    if a < x then (if b = Config.unlistedByte then (x, c) :: m else (a, b) :: (x, c) :: m)
    else if a = x then (if b = Config.unlistedByte then m else (a, b) :: m)
    else (x, c) :: putCell m a b

/-- R33 for one byte.  R205's check keeps every command's addresses below `2^32`; beyond it there is no
byte to write (R30). -/
def writeByte (m : Memory) (a : Nat) (b : Byte) : Memory :=
  if a < Config.addressSpace then putCell m a b else m

/-- R32: `MemRead(a, n)`, lowest address first. -/
def memRead (m : Memory) (a n : Nat) : List Byte := (List.range n).map fun k => readByte m (a + k)

/-- R33, R37: `MemWrite(a, n, v)`, byte by byte in increasing address order. -/
def memWrite (m : Memory) (a : Nat) : List Byte → Memory
  | []      => m
  | b :: bs => memWrite (writeByte m a b) (a + 1) bs

/-- R34: `MemRead(a, 16)` as a block. -/
def readBlock (m : Memory) (a : Nat) : Block := blockOfBytes (memRead m a 16)

/-- R34: `MemWrite(a, 16, b)`. -/
def writeBlock (m : Memory) (a : Nat) (b : Block) : Memory := memWrite m a (bytesOf b)

/-! ### Registers -/

/-- R16: W[i]. -/
def wAt (w : Vector Word Config.wRegs) (i : Nat) : Word := w.toList.getD i 0

/-- The key schedule a cipher command reads (R14, R16). -/
def scheduleOf (s : State) : Schedule := { w := s.w, nr := nrOf s.ksize }

/-- What a command starts to work on. -/
def workOf (s : State) : Work := { s.tr with mem := s.mem }

/-! ### Ending a command -/

/-- The end of every command (R17, R21, R195): LAST and the response port take the result code, the
transient registers are set to zero, and the memory is as the command left it. -/
def complete (r : ResultCode) (mem : Memory) (s : State) : State :=
  { s with last := r.code, responses := s.responses ++ [r], tr := Transients.zero, mem := mem }

/-- R197: `raise X` for every code but TagMismatch, CORE's taking of an exception (R212): the code is
returned and kept in LAST, and nothing else changes.  There is no handler and no return (R213). -/
def raise (r : ResultCode) (s : State) : Host.Outcome State Fault Refusal := .next (complete r s.mem s)

/-- R199: of several causes the one checked first is reported.  A list of (does it apply, its code). -/
def firstFailure : List (Bool × ResultCode) → Option ResultCode
  | []              => none
  | (bad, r) :: cs  => if bad then some r else firstFailure cs

/-- A cipher command: its checks in order, then its work under the loaded key, which ends with a result
code (OK, or TagMismatch: R198). -/
def runCipher (checks : List (Bool × ResultCode)) (body : Schedule → Work → Work × ResultCode) (s : State) :
    Host.Outcome State Fault Refusal :=
  match firstFailure checks with
  | some r => raise r s
  | none   =>
    let out := body (scheduleOf s) (workOf s)
    .next (complete out.2 out.1.mem s)

/-- Work that always ends with OK. -/
def returnOk (body : Schedule → Work → Work) (k : Schedule) (wk : Work) : Work × ResultCode := (body k wk, .ok)

/-- `for i in 0 .. n-1` (R8, R12, R140): in increasing `i`, with IDX holding the index of the block. -/
def forBlocks : Nat → (Nat → Work → Work) → Work → Work
  | 0,     _,    wk => wk
  | n + 1, body, wk => body n { forBlocks n body wk with idx := BitVec.ofNat 28 n }

/-! ### The host's side -/

/-- The host's next event and the state without it; none when the host does nothing. -/
def nextInput (s : State) : Option (HostEvent × State) :=
  match s.inputs with
  | []        => none
  | e :: rest => some (e, { s with inputs := rest })

/-- R220 to R223: reset, between commands.  Every register takes its reset value (R23); the memory is not
touched (R222); what the host has still to do and what has been answered are the host's. -/
def applyReset (s : State) : State :=
  { State.reset with mem := s.mem, inputs := s.inputs, responses := s.responses }

/-- R30, R40: between commands the host may store any byte in the memory. -/
def applyPoke (addr : Word) (b : Byte) (s : State) : State := { s with mem := writeByte s.mem addr.toNat b }

/-- The host presents a frame, to be taken next (R25). -/
def present (f : Frame) (s : State) : State := { s with inputs := .frame f :: s.inputs }

end Sys2Proof.Machine
end

