-- ==== Sys2Proof/Machine/Operands.lean ====
section
/-! DEFINITION. Buffer descriptors (R31), block addresses (R140) and the checks on operands, each a list in
the order of R199. -/

namespace Sys2Proof.Machine

open Sys2Proof

/-- R31, R205: past the top of memory; never so for an empty buffer, and computed without wrap-around. -/
def outOfRange (d : Desc) : Bool :=
  d.len != 0 && decide (d.addr.toNat + d.len.toNat > Config.addressSpace)

/-- R31: both have LEN > 0 and their address sets share an address. -/
def intersect (x y : Desc) : Bool :=
  x.len != 0 && y.len != 0 && decide (x.addr.toNat < y.addr.toNat + y.len.toNat) &&
    decide (y.addr.toNat < x.addr.toNat + x.len.toNat)

/-- R208: SRC and DST intersect without starting at the same address. -/
def badOverlap (src dst : Desc) : Bool := intersect src dst && src.addr != dst.addr

/-- LEN is not the length the command requires (R206). -/
def badLen (d : Desc) (need : Nat) : Bool := d.len.toNat != need

/-- R140: the address of block `i` of a buffer. -/
def blockAddr (d : Desc) (i : Nat) : Nat := d.addr.toNat + 16 * i

/-- R176, R177: `ceil(t / 16)`. -/
def blocksIn (t : Nat) : Nat := (t + 15) / 16

/-- R176, R177: `min(16, t - 16*i)`, the bytes of piece `i` of a buffer of `t` bytes. -/
def pieceLen (t i : Nat) : Nat := min 16 (t - 16 * i)

/-- Piece `i` of a buffer (R176, R177): its bytes in memory. -/
def readPiece (m : Memory) (d : Desc) (i : Nat) : List Byte :=
  memRead m (blockAddr d i) (pieceLen d.len.toNat i)

/-- R199 steps 3a and 3c. -/
def keyChecks (s : State) : List (Bool × ResultCode) :=
  [ (!configured s, .notConfigured), (!s.keyvalid, .keyNotLoaded) ]

/-- R97: the checks of INITKEYS. -/
def initkeysChecks (src : Desc) (s : State) : List (Bool × ResultCode) :=
  [ (!configured s,                      .notConfigured),
    (s.keyvalid,                         .keyLocked),
    (badLen src (keybytesOf s.ksize),    .bufferLengthMismatch),
    (outOfRange src,                     .addressRange) ]

/-- R128: the five checks of ENCBLK and DECBLK. -/
def blockChecks (src dst : Desc) (s : State) : List (Bool × ResultCode) :=
  keyChecks s ++
  [ (badLen src 16 || badLen dst 16,       .bufferLengthMismatch),
    (outOfRange src || outOfRange dst,     .addressRange),
    (badOverlap src dst,                   .bufferOverlap) ]

/-- R141 for the modes without an IV (ECB). -/
def ecbChecks (n : Word) (src dst : Desc) (s : State) : List (Bool × ResultCode) :=
  keyChecks s ++
  [ (badLen src (16 * n.toNat) || badLen dst (16 * n.toNat),   .bufferLengthMismatch),
    (outOfRange src || outOfRange dst,                         .addressRange),
    (badOverlap src dst,                                       .bufferOverlap) ]

/-- R141 for the modes with an IV. -/
def chainChecks (n : Word) (src dst iv : Desc) (s : State) : List (Bool × ResultCode) :=
  keyChecks s ++
  [ (badLen src (16 * n.toNat) || badLen dst (16 * n.toNat) || badLen iv 16,  .bufferLengthMismatch),
    (outOfRange src || outOfRange dst || outOfRange iv,                       .addressRange),
    (badOverlap src dst,                                                      .bufferOverlap) ]

/-- R153, R209: some block of the message would need a counter of `2^128` or more. -/
def counterWraps (n : Word) (iv0 : Block) : Bool :=
  decide (1 ≤ n.toNat) && decide (int128 iv0 + (n.toNat - 1) ≥ 2 ^ 128)

/-- R141 for CTR: the last check reads the IV. -/
def ctrChecks (n : Word) (src dst iv : Desc) (s : State) : List (Bool × ResultCode) :=
  chainChecks n src dst iv s ++ [ (counterWraps n (readBlock s.mem iv.addr.toNat), .counterWrap) ]

/-- R207: longer than GCM_MAX_BYTES. -/
def tooLong (d : Desc) : Bool := decide (d.len.toNat > Config.gcmMaxBytes)

/-- R186: the checks of GCM.ENC and GCM.DEC. -/
def gcmChecks (src dst iv aad tag : Desc) (s : State) : List (Bool × ResultCode) :=
  keyChecks s ++
  [ (badLen dst src.len.toNat || badLen iv 12 || badLen tag 16,                                    .bufferLengthMismatch),
    (tooLong src || tooLong aad,                                                                   .lengthRange),
    (outOfRange src || outOfRange dst || outOfRange iv || outOfRange aad || outOfRange tag,        .addressRange),
    (badOverlap src dst,                                                                           .bufferOverlap) ]

end Sys2Proof.Machine
end

