-- ==== Sys2Proof/Machine/KeySchedule.lean ====
section
/-! DEFINITION. The key scheduler (R95 to R105): the pieces of the expansion, KeyExpansion, and the
commands CONFIG and INITKEYS. -/

namespace Sys2Proof.Machine

open Sys2Proof

/-- R98: key word `i`, packed big-endian. -/
def keyWord (key : List Byte) (i : Nat) : Word :=
  be32 (key.getD (4 * i) 0) (key.getD (4 * i + 1) 0) (key.getD (4 * i + 2) 0) (key.getD (4 * i + 3) 0)

/-- R99: left rotate by one byte. -/
def rotWord (w : Word) : Word := (w <<< 8) ||| (w >>> 24)

/-- R100: the forward S-box on all four bytes. -/
def subWord (w : Word) : Word :=
  be32 (sbox (wordByte w 0)) (sbox (wordByte w 1)) (sbox (wordByte w 2)) (sbox (wordByte w 3))

/-- R101: `rc(g)` for `g >= 1`; there is no step 0. -/
def rc : Nat → Byte
  | 0     => 1
  | 1     => 1
  | g + 2 => multiply (rc (g + 1)) 2

/-- R101: the round constant of expansion step `g`. -/
def rcon (g : Nat) : Word := be32 (rc g) 0 0 0

/-- R102: the word XORed onto `w[i-Nk]`, from `t = w[i-1]`. -/
def expansionTerm (nk i : Nat) (t : Word) : Word :=
  if i % nk = 0 then subWord (rotWord t) ^^^ rcon (i / nk)
  else if nk = 8 ∧ i % nk = 4 then subWord t
  else t

/-- R102: word `i` from the words before it. -/
def nextWord (nk i : Nat) (w : List Word) : Word :=
  w.getD (i - nk) 0 ^^^ expansionTerm nk i (w.getD (i - 1) 0)

/-- R102: the loop, `n` words from word Nk on. -/
def expandLoop (nk : Nat) (w : List Word) : Nat → List Word
  | 0     => w
  | n + 1 => expandLoop nk w n ++ [nextWord nk (nk + n) (expandLoop nk w n)]

/-- R102: `KeyExpansion(K, Nk)`, NW = 4*(Nk + 7) words. -/
def keyExpansion (key : List Byte) (nk : Nat) : List Word :=
  expandLoop nk ((List.range nk).map (keyWord key)) (4 * (nk + 7) - nk)

/-- R103: group `g`, word `j` of the group. -/
def groupWord (nk g j : Nat) (w : List Word) : Word :=
  if j = 0 then w.getD (g * nk + j - nk) 0 ^^^ subWord (rotWord (w.getD (g * nk + j - 1) 0)) ^^^ rcon g
  else if nk = 8 ∧ j = 4 then w.getD (g * nk + j - nk) 0 ^^^ subWord (w.getD (g * nk + j - 1) 0)
  else w.getD (g * nk + j - nk) 0 ^^^ w.getD (g * nk + j - 1) 0

/-- R103: the first `n` words of group `g`, none at or beyond NW. -/
def groupLoop (nk nw g : Nat) (w : List Word) : Nat → List Word
  | 0     => w
  | n + 1 =>
    let w' := groupLoop nk nw g w n
    if g * nk + n ≥ nw then w' else w' ++ [groupWord nk g n w']

/-- R103: groups 1 to `steps`. -/
def groupsLoop (nk nw : Nat) (w : List Word) : Nat → List Word
  | 0     => w
  | g + 1 => groupLoop nk nw (g + 1) (groupsLoop nk nw w g) nk

/-- R103: KeyExpansion group by group, with R95's number of steps, `ceil((NW - Nk) / Nk)`. -/
def keyExpansionByGroups (key : List Byte) (nk : Nat) : List Word :=
  groupsLoop nk (4 * (nk + 7)) ((List.range nk).map (keyWord key)) ((4 * (nk + 7) - nk + nk - 1) / nk)

/-- W with its first words replaced (R97: W[NW..59] keep what they hold). -/
def loadWords (w : Vector Word Config.wRegs) (new : List Word) : Vector Word Config.wRegs :=
  Vector.ofFn fun i => new.getD i.val w[i]

/-- R96: what a successful CONFIG writes. -/
def configure (k : BitVec 2) (s : State) : State :=
  { s with ksize := k, keyvalid := false, w := Vector.replicate Config.wRegs 0 }

/-- R97: what a successful INITKEYS writes. -/
def loadKey (key : List Byte) (s : State) : State :=
  { s with w := loadWords s.w (keyExpansion key (nkOf s.ksize)), keyvalid := true }

/-- CONFIG (R96). -/
def execConfig (keybits : BitVec 16) (s : State) : Host.Outcome State Fault Refusal :=
  match ksizeOfBits keybits with
  | none   => raise .invalidKeySize s
  | some k => .next (complete .ok s.mem (configure k s))

/-- INITKEYS (R97). -/
def execInitkeys (src : Desc) (s : State) : Host.Outcome State Fault Refusal :=
  match firstFailure (initkeysChecks src s) with
  | some r => raise r s
  | none   => .next (complete .ok s.mem (loadKey (memRead s.mem src.addr.toNat (keybytesOf s.ksize)) s))

end Sys2Proof.Machine
end

