-- ==== Sys2Proof/Machine/Round.lean ====
section
/-! DEFINITION. The round function and the single-block cipher (R115 to R127), and the commands ENCBLK and
DECBLK. -/

namespace Sys2Proof.Machine

open Sys2Proof

/-- R116: `col(S, c)`, row 0 in the top byte. -/
def colWord (s : Block) (c : Nat) : Word :=
  be32 (byteAt s (4 * c)) (byteAt s (4 * c + 1)) (byteAt s (4 * c + 2)) (byteAt s (4 * c + 3))

/-- R117: `AddRoundKey(S, r)`, byte `j` of column `c` with byte `j` of W[4r+c]. -/
def addRoundKey (w : Vector Word Config.wRegs) (r : Nat) (s : Block) : Block :=
  blockOf fun k => byteAt s k ^^^ wordByte (wAt w (4 * r + k / 4)) (k % 4)

/-- R118: `SubBytes`. -/
def subBytes (s : Block) : Block := blockOf fun k => sbox (byteAt s k)

/-- R119: `InvSubBytes`. -/
def invSubBytes (s : Block) : Block := blockOf fun k => invSbox (byteAt s k)

/-- R120: `ShiftRows`, `S'[4c+r] = S[4*((c+r) mod 4) + r]`. -/
def shiftRows (s : Block) : Block := blockOf fun k => byteAt s (4 * ((k / 4 + k % 4) % 4) + k % 4)

/-- R121: `InvShiftRows`, `S'[4c+r] = S[4*((c-r) mod 4) + r]`. -/
def invShiftRows (s : Block) : Block := blockOf fun k => byteAt s (4 * ((k / 4 + 4 - k % 4) % 4) + k % 4)

/-- One byte of a column times a row of a coefficient matrix (R122), the sum a XOR. -/
def rowTimesCol (row : List Byte) (s : Block) (c : Nat) : Byte :=
  multiply (row.getD 0 0) (byteAt s (4 * c)) ^^^ multiply (row.getD 1 0) (byteAt s (4 * c + 1)) ^^^
  multiply (row.getD 2 0) (byteAt s (4 * c + 2)) ^^^ multiply (row.getD 3 0) (byteAt s (4 * c + 3))

/-- R122: a matrix, given by its rows, applied to each column. -/
def mixWith (m : List (List Byte)) (s : Block) : Block :=
  blockOf fun k => rowTimesCol (m.getD (k % 4) []) s (k / 4)

/-- R122: M. -/
def mixMatrix : List (List Byte) := [[2, 3, 1, 1], [1, 2, 3, 1], [1, 1, 2, 3], [3, 1, 1, 2]]

/-- R123: IM. -/
def invMixMatrix : List (List Byte) :=
  [[0x0e, 0x0b, 0x0d, 0x09], [0x09, 0x0e, 0x0b, 0x0d], [0x0d, 0x09, 0x0e, 0x0b], [0x0b, 0x0d, 0x09, 0x0e]]

/-- R122: `MixColumns`. -/
def mixColumns (s : Block) : Block := mixWith mixMatrix s

/-- R123: `InvMixColumns`. -/
def invMixColumns (s : Block) : Block := mixWith invMixMatrix s

/-- R124, R125: one iteration of the loop of EncryptBlock. -/
def encRound (k : Schedule) (r : Nat) (st : Block) : Block :=
  if r = k.nr then addRoundKey k.w r (shiftRows (subBytes st))
  else addRoundKey k.w r (mixColumns (shiftRows (subBytes st)))

/-- R125: rounds 1 to `n`. -/
def encRounds (k : Schedule) : Nat → Block → Block
  | 0,     st => st
  | n + 1, st => encRound k (n + 1) (encRounds k n st)

/-- R125: `EncryptBlock(P)`, E(P) of the mode rules. -/
def encryptBlock (k : Schedule) (p : Block) : Block := encRounds k k.nr (addRoundKey k.w 0 p)

/-- R126: one iteration of the loop of DecryptBlock. -/
def decRound (k : Schedule) (r : Nat) (st : Block) : Block :=
  if r = 1 then addRoundKey k.w (r - 1) (invSubBytes (invShiftRows st))
  else invMixColumns (addRoundKey k.w (r - 1) (invSubBytes (invShiftRows st)))

/-- R126: iterations `n` down to 1. -/
def decRounds (k : Schedule) : Nat → Block → Block
  | 0,     st => st
  | n + 1, st => decRounds k n (decRound k (n + 1) st)

/-- R126: `DecryptBlock(C)`, D(C) of the mode rules. -/
def decryptBlock (k : Schedule) (c : Block) : Block := decRounds k k.nr (addRoundKey k.w k.nr c)

/-- E on the register ST (R125: "Writes only the transient ST"). -/
def encipher (k : Schedule) (x : Block) (wk : Work) : Work := { wk with st := encryptBlock k x }

/-- D on the register ST (R126). -/
def decipher (k : Schedule) (x : Block) (wk : Work) : Work := { wk with st := decryptBlock k x }

/-- R128: read a block, encrypt it, write it. -/
def encblkBody (src dst : Desc) (k : Schedule) (wk : Work) : Work :=
  let wk := encipher k (readBlock wk.mem src.addr.toNat) wk
  { wk with mem := writeBlock wk.mem dst.addr.toNat wk.st }

/-- R129: read a block, decrypt it, write it. -/
def decblkBody (src dst : Desc) (k : Schedule) (wk : Work) : Work :=
  let wk := decipher k (readBlock wk.mem src.addr.toNat) wk
  { wk with mem := writeBlock wk.mem dst.addr.toNat wk.st }

/-- ENCBLK (R128). -/
def execEncblk (src dst : Desc) (s : State) : Host.Outcome State Fault Refusal :=
  runCipher (blockChecks src dst s) (returnOk (encblkBody src dst)) s

/-- DECBLK (R129). -/
def execDecblk (src dst : Desc) (s : State) : Host.Outcome State Fault Refusal :=
  runCipher (blockChecks src dst s) (returnOk (decblkBody src dst)) s

end Sys2Proof.Machine
end

