-- ==== Sys2Proof/Machine/Modes.lean ====
section
/-! DEFINITION. The mode controllers ECB, CBC, CFB, OFB, CTR (R140 to R156): for each command the iteration
of its loop, its loop, and its meaning; at the end the commands as functions on lists of blocks (R154). -/

namespace Sys2Proof.Machine

open Sys2Proof

/-- R150: `inc128(c)`, all 128 bits, and the carry out of byte 0, which is 1 exactly on sixteen `ff`. -/
def inc128 (c : Block) : Block × Bool := (c + 1, c == BitVec.allOnes 128)

/-- `CV = MemRead(iv.ADDR, 16)` (R144 to R149). -/
def loadCv (iv : Desc) (wk : Work) : Work := { wk with cv := readBlock wk.mem iv.addr.toNat }

/-- `CTRB = IV0` (R151). -/
def loadCtrb (iv : Desc) (wk : Work) : Work := { wk with ctrb := readBlock wk.mem iv.addr.toNat }

/-! ### ECB -/

/-- R142: one block of ECB.ENC. -/
def ecbEncStep (k : Schedule) (src dst : Desc) (i : Nat) (wk : Work) : Work :=
  let wk := encipher k (readBlock wk.mem (blockAddr src i)) wk
  { wk with mem := writeBlock wk.mem (blockAddr dst i) wk.st }

/-- R143: one block of ECB.DEC. -/
def ecbDecStep (k : Schedule) (src dst : Desc) (i : Nat) (wk : Work) : Work :=
  let wk := decipher k (readBlock wk.mem (blockAddr src i)) wk
  { wk with mem := writeBlock wk.mem (blockAddr dst i) wk.st }

def ecbEncBody (n : Word) (src dst : Desc) (k : Schedule) (wk : Work) : Work :=
  forBlocks n.toNat (ecbEncStep k src dst) wk

def ecbDecBody (n : Word) (src dst : Desc) (k : Schedule) (wk : Work) : Work :=
  forBlocks n.toNat (ecbDecStep k src dst) wk

/-- ECB.ENC (R142). -/
def execEcbEnc (n : Word) (src dst : Desc) (s : State) : Host.Outcome State Fault Refusal :=
  runCipher (ecbChecks n src dst s) (returnOk (ecbEncBody n src dst)) s

/-- ECB.DEC (R143). -/
def execEcbDec (n : Word) (src dst : Desc) (s : State) : Host.Outcome State Fault Refusal :=
  runCipher (ecbChecks n src dst s) (returnOk (ecbDecBody n src dst)) s

/-! ### CBC -/

/-- R144: `C = E(P XOR CV)`, written, then `CV = C`. -/
def cbcEncStep (k : Schedule) (src dst : Desc) (i : Nat) (wk : Work) : Work :=
  let wk := encipher k (xorAccumulate (readBlock wk.mem (blockAddr src i)) wk.cv) wk
  { wk with mem := writeBlock wk.mem (blockAddr dst i) wk.st, cv := wk.st }

/-- R145: `P = D(C) XOR CV`, written, then CV takes the copy of C read before the write. -/
def cbcDecStep (k : Schedule) (src dst : Desc) (i : Nat) (wk : Work) : Work :=
  let c := readBlock wk.mem (blockAddr src i)
  let wk := decipher k c wk
  { wk with mem := writeBlock wk.mem (blockAddr dst i) (xorAccumulate wk.st wk.cv), cv := c }

def cbcEncBody (n : Word) (src dst iv : Desc) (k : Schedule) (wk : Work) : Work :=
  forBlocks n.toNat (cbcEncStep k src dst) (loadCv iv wk)

def cbcDecBody (n : Word) (src dst iv : Desc) (k : Schedule) (wk : Work) : Work :=
  forBlocks n.toNat (cbcDecStep k src dst) (loadCv iv wk)

/-- CBC.ENC (R144). -/
def execCbcEnc (n : Word) (src dst iv : Desc) (s : State) : Host.Outcome State Fault Refusal :=
  runCipher (chainChecks n src dst iv s) (returnOk (cbcEncBody n src dst iv)) s

/-- CBC.DEC (R145). -/
def execCbcDec (n : Word) (src dst iv : Desc) (s : State) : Host.Outcome State Fault Refusal :=
  runCipher (chainChecks n src dst iv s) (returnOk (cbcDecBody n src dst iv)) s

/-! ### CFB -/

/-- R146: `KS = E(CV)`, `C = P XOR KS`, written, then `CV = C`. -/
def cfbEncStep (k : Schedule) (src dst : Desc) (i : Nat) (wk : Work) : Work :=
  let p := readBlock wk.mem (blockAddr src i)
  let wk := encipher k wk.cv wk
  let wk := { wk with ks := wk.st }
  let c := xorAccumulate p wk.ks
  { wk with mem := writeBlock wk.mem (blockAddr dst i) c, cv := c }

/-- R147: the same keystream; CV takes the input block. -/
def cfbDecStep (k : Schedule) (src dst : Desc) (i : Nat) (wk : Work) : Work :=
  let c := readBlock wk.mem (blockAddr src i)
  let wk := encipher k wk.cv wk
  let wk := { wk with ks := wk.st }
  { wk with mem := writeBlock wk.mem (blockAddr dst i) (xorAccumulate c wk.ks), cv := c }

def cfbEncBody (n : Word) (src dst iv : Desc) (k : Schedule) (wk : Work) : Work :=
  forBlocks n.toNat (cfbEncStep k src dst) (loadCv iv wk)

def cfbDecBody (n : Word) (src dst iv : Desc) (k : Schedule) (wk : Work) : Work :=
  forBlocks n.toNat (cfbDecStep k src dst) (loadCv iv wk)

/-- CFB.ENC (R146). -/
def execCfbEnc (n : Word) (src dst iv : Desc) (s : State) : Host.Outcome State Fault Refusal :=
  runCipher (chainChecks n src dst iv s) (returnOk (cfbEncBody n src dst iv)) s

/-- CFB.DEC (R147). -/
def execCfbDec (n : Word) (src dst iv : Desc) (s : State) : Host.Outcome State Fault Refusal :=
  runCipher (chainChecks n src dst iv s) (returnOk (cfbDecBody n src dst iv)) s

/-! ### OFB -/

/-- R148: `CV = E(CV)`, then `X XOR CV` is written.  DESIGN CHOICE (log entry 14): R20 names OFB among the
owners of KS, R148 keeps the keystream block in CV only; KS is not written here, as R148 has it. -/
def ofbStep (k : Schedule) (src dst : Desc) (i : Nat) (wk : Work) : Work :=
  let x := readBlock wk.mem (blockAddr src i)
  let wk := encipher k wk.cv wk
  let wk := { wk with cv := wk.st }
  { wk with mem := writeBlock wk.mem (blockAddr dst i) (xorAccumulate x wk.cv) }

def ofbBody (n : Word) (src dst iv : Desc) (k : Schedule) (wk : Work) : Work :=
  forBlocks n.toNat (ofbStep k src dst) (loadCv iv wk)

/-- OFB.ENC (R148). -/
def execOfbEnc (n : Word) (src dst iv : Desc) (s : State) : Host.Outcome State Fault Refusal :=
  runCipher (chainChecks n src dst iv s) (returnOk (ofbBody n src dst iv)) s

/-- OFB.DEC (R149): "exactly the body of OFB.ENC". -/
def execOfbDec (n : Word) (src dst iv : Desc) (s : State) : Host.Outcome State Fault Refusal :=
  runCipher (chainChecks n src dst iv s) (returnOk (ofbBody n src dst iv)) s

/-! ### CTR -/

/-- R151: `KS = E(CTRB)`, `X XOR KS` is written, then CTRB is incremented (the carry is not kept). -/
def ctrStep (k : Schedule) (src dst : Desc) (i : Nat) (wk : Work) : Work :=
  let x := readBlock wk.mem (blockAddr src i)
  let wk := encipher k wk.ctrb wk
  let wk := { wk with ks := wk.st }
  { wk with mem := writeBlock wk.mem (blockAddr dst i) (xorAccumulate x wk.ks), ctrb := (inc128 wk.ctrb).1 }

def ctrBody (n : Word) (src dst iv : Desc) (k : Schedule) (wk : Work) : Work :=
  forBlocks n.toNat (ctrStep k src dst) (loadCtrb iv wk)

/-- CTR.ENC (R151). -/
def execCtrEnc (n : Word) (src dst iv : Desc) (s : State) : Host.Outcome State Fault Refusal :=
  runCipher (ctrChecks n src dst iv s) (returnOk (ctrBody n src dst iv)) s

/-- CTR.DEC (R152): "exactly the body of CTR.ENC". -/
def execCtrDec (n : Word) (src dst iv : Desc) (s : State) : Host.Outcome State Fault Refusal :=
  runCipher (ctrChecks n src dst iv s) (returnOk (ctrBody n src dst iv)) s

/-! ### The commands as functions on block lists (R154)

The source's equations.  The commands run the loops above; the statements about them say that the blocks they
leave in DST are these functions of the blocks that stood in SRC. -/

/-- R154, ECB: `C[i] = E(P[i])`. -/
def ecbEncBlocks (k : Schedule) (p : List Block) : List Block := p.map (encryptBlock k)

/-- R154, ECB: `P[i] = D(C[i])`. -/
def ecbDecBlocks (k : Schedule) (c : List Block) : List Block := c.map (decryptBlock k)

/-- R154, CBC: `C[i] = E(P[i] XOR C[i-1])`; the second argument is `C[-1] = IV`. -/
def cbcEncBlocks (k : Schedule) : Block → List Block → List Block
  | _,    []     => []
  | prev, p :: l => encryptBlock k (p ^^^ prev) :: cbcEncBlocks k (encryptBlock k (p ^^^ prev)) l

/-- R154, CBC: `P[i] = D(C[i]) XOR C[i-1]`, `C[-1] = IV`. -/
def cbcDecBlocks (k : Schedule) (iv : Block) (c : List Block) : List Block :=
  List.zipWith (fun ci prev => decryptBlock k ci ^^^ prev) c (iv :: c)

/-- R154, CFB: `C[i] = P[i] XOR E(C[i-1])`; the second argument is `C[-1] = IV`. -/
def cfbEncBlocks (k : Schedule) : Block → List Block → List Block
  | _,    []     => []
  | prev, p :: l => (p ^^^ encryptBlock k prev) :: cfbEncBlocks k (p ^^^ encryptBlock k prev) l

/-- R154, CFB: `P[i] = C[i] XOR E(C[i-1])`, `C[-1] = IV`. -/
def cfbDecBlocks (k : Schedule) (iv : Block) (c : List Block) : List Block :=
  List.zipWith (fun ci prev => ci ^^^ encryptBlock k prev) c (iv :: c)

/-- R154, OFB: `O[i] = E(O[i-1])`, `O[-1] = IV`. -/
def ofbKeystream (k : Schedule) (iv : Block) : Nat → Block
  | 0     => encryptBlock k iv
  | i + 1 => encryptBlock k (ofbKeystream k iv i)

/-- R154, OFB: `C[i] = P[i] XOR O[i]`, and the same function for `P[i]`. -/
def ofbBlocks (k : Schedule) (iv : Block) (x : List Block) : List Block :=
  x.mapIdx fun i xi => xi ^^^ ofbKeystream k iv i

/-- R154, CTR: `E(block128(int128(IV) + i))`, which R154 defines for `int128(IV) + i` below `2^128`; beyond it,
where `block128` is the model's choice (log entry 15), no CTR command comes (R153). -/
def ctrKeystream (k : Schedule) (iv : Block) (i : Nat) : Block := encryptBlock k (block128 (int128 iv + i))

/-- R154, CTR: `C[i] = P[i] XOR E(block128(int128(IV) + i))`, and the same function for `P[i]`. -/
def ctrBlocks (k : Schedule) (iv : Block) (x : List Block) : List Block :=
  x.mapIdx fun i xi => xi ^^^ ctrKeystream k iv i

end Sys2Proof.Machine
end

