-- ==== Sys2Proof/Machine/Gcm.lean ====
section
/-! DEFINITION. The GCM accumulator and tag verifier (R170 to R188), and the commands GCM.ENC and GCM.DEC. -/

namespace Sys2Proof.Machine

open Sys2Proof

/-- R171: J0, the nonce and then `00 00 00 01`. -/
def initialCounter (nonce : List Byte) : Block := blockOfBytes (nonce ++ [0, 0, 0, 1])

/-- R175: `fold(ACC, B) = ghashMultiply(ACC XOR B, H)`. -/
def foldWith (h acc b : Block) : Block := ghashMultiply (xorAccumulate acc b) h

/-- R178: the length block of `a` bytes of AAD and `t` bytes of text. -/
def lengthBlock (a t : Nat) : Block := 0#32 ++ BitVec.ofNat 32 (8 * a) ++ 0#32 ++ BitVec.ofNat 32 (8 * t)

/-! ### The pure functions (R180, R181) -/

/-- The 16-byte piece `i` of a byte string, the last one possibly shorter. -/
def pieceOf (bs : List Byte) (i : Nat) : List Byte := (bs.drop (16 * i)).take 16

/-- R180: the pieces of a byte string folded into the accumulator in order. -/
def foldPieces (h acc : Block) (bs : List Byte) : Block :=
  (List.range (blocksIn bs.length)).foldl (fun acc i => foldWith h acc (blockOfBytes (pieceOf bs i))) acc

/-- R180: `GcmTag(N, A, C)`. -/
def gcmTag (k : Schedule) (nonce aad ct : List Byte) : Block :=
  let h := encryptBlock k 0
  let acc := foldPieces h (foldPieces h 0 aad) ct
  xorAccumulate (foldWith h acc (lengthBlock aad.length ct.length)) (encryptBlock k (initialCounter nonce))

/-- R181: keystream block `i`, `E(block128(int128(J0) + i + 1))`. -/
def gcmKeystream (k : Schedule) (nonce : List Byte) (i : Nat) : Block :=
  encryptBlock k (block128 (int128 (initialCounter nonce) + i + 1))

/-- R181: `GcmCtr(N, X)`. -/
def gcmCtr (k : Schedule) (nonce x : List Byte) : List Byte :=
  (List.range x.length).map fun j => x.getD j 0 ^^^ byteAt (gcmKeystream k nonce (j / 16)) (j % 16)

/-! ### The phases on the transient registers -/

/-- `ACC = fold(ACC, B)` (R175). -/
def foldAcc (b : Block) (wk : Work) : Work := { wk with acc := foldWith wk.h wk.acc b }

/-- R171 to R173: the nonce is read; CTRB = J0, H = E(0), EJ0 = E(J0), ACC = 0. -/
def gcmSetup (iv : Desc) (k : Schedule) (wk : Work) : Work :=
  let wk := { wk with ctrb := initialCounter (memRead wk.mem iv.addr.toNat 12) }
  let wk := encipher k 0 wk
  let wk := { wk with h := wk.st }
  let wk := encipher k wk.ctrb wk
  { wk with ej0 := wk.st, acc := 0 }

/-- R176, and pass 1 of R183: the pieces of a buffer folded in order. -/
def authPhase (d : Desc) (wk : Work) : Work :=
  forBlocks (blocksIn d.len.toNat) (fun i wk => foldAcc (blockOfBytes (readPiece wk.mem d i)) wk) wk

/-- R177, R183: `(CTRB, carry) = inc128(CTRB); KS = E(CTRB)`. -/
def nextKeystream (k : Schedule) (wk : Work) : Work :=
  let wk := { wk with ctrb := (inc128 wk.ctrb).1 }
  let wk := encipher k wk.ctrb wk
  { wk with ks := wk.st }

/-- One piece read, XORed with the keystream and written; the second answer is what was written. -/
def cryptPiece (src dst : Desc) (i : Nat) (wk : Work) : Work × List Byte :=
  let out := xorBytes (readPiece wk.mem src i) (bytesOf wk.ks)
  ({ wk with mem := memWrite wk.mem (blockAddr dst i) out }, out)

/-- R177: one iteration of the text phase of encryption; the ciphertext is folded. -/
def gcmEncStep (k : Schedule) (src dst : Desc) (i : Nat) (wk : Work) : Work :=
  let done := cryptPiece src dst i (nextKeystream k wk)
  foldAcc (blockOfBytes done.2) done.1

/-- R183: one iteration of pass 2. -/
def gcmDecStep (k : Schedule) (src dst : Desc) (i : Nat) (wk : Work) : Work :=
  (cryptPiece src dst i (nextKeystream k wk)).1

/-- R178, R179: the length block is folded; `T = ACC XOR EJ0`. -/
def foldLengths (src aad : Desc) (wk : Work) : Work := foldAcc (lengthBlock aad.len.toNat src.len.toNat) wk

/-- R179. -/
def tagOf (wk : Work) : Block := xorAccumulate wk.acc wk.ej0

/-- R182. -/
def gcmEncBody (src dst iv aad tag : Desc) (k : Schedule) (wk : Work) : Work :=
  let wk := authPhase aad (gcmSetup iv k wk)
  let wk := forBlocks (blocksIn src.len.toNat) (gcmEncStep k src dst) wk
  let wk := foldLengths src aad wk
  { wk with mem := writeBlock wk.mem tag.addr.toNat (tagOf wk) }

/-- R183, pass 1: everything read and folded, no keystream and no write. -/
def gcmAuthenticate (src iv aad tag : Desc) (k : Schedule) (wk : Work) : Work :=
  let wk := { wk with tagin := readBlock wk.mem tag.addr.toNat }
  foldLengths src aad (authPhase src (authPhase aad (gcmSetup iv k wk)))

/-- R183, pass 2: CTRB = J0 again, then every piece decrypted. -/
def gcmDecrypt (src dst iv : Desc) (k : Schedule) (wk : Work) : Work :=
  let wk := { wk with ctrb := initialCounter (memRead wk.mem iv.addr.toNat 12) }
  forBlocks (blocksIn src.len.toNat) (gcmDecStep k src dst) wk

/-- R183, R198: the whole destination zeroed. -/
def zeroOutput (src dst : Desc) (wk : Work) : Work :=
  { wk with mem := memWrite wk.mem dst.addr.toNat (List.replicate src.len.toNat 0) }

/-- R183, R184: the tags compared; pass 2 after a match, zeros and TagMismatch otherwise. -/
def gcmDecBody (src dst iv aad tag : Desc) (k : Schedule) (wk : Work) : Work × ResultCode :=
  let wk := gcmAuthenticate src iv aad tag k wk
  if tagOf wk = wk.tagin then (gcmDecrypt src dst iv k wk, .ok)
  else (zeroOutput src dst wk, .tagMismatch)

/-- GCM.ENC (R182). -/
def execGcmEnc (src dst iv aad tag : Desc) (s : State) : Host.Outcome State Fault Refusal :=
  runCipher (gcmChecks src dst iv aad tag s) (returnOk (gcmEncBody src dst iv aad tag)) s

/-- GCM.DEC (R183). -/
def execGcmDec (src dst iv aad tag : Desc) (s : State) : Host.Outcome State Fault Refusal :=
  runCipher (gcmChecks src dst iv aad tag s) (gcmDecBody src dst iv aad tag) s

end Sys2Proof.Machine
end

