-- ==== Sys2Proof/Machine/Dispatch.lean ====
section
/-! DEFINITION. One arm per command. -/

namespace Sys2Proof.Machine

open Sys2Proof

def exec (i : Instr) (s : State) : Host.Outcome State Fault Refusal :=
  match i with
  | .config keybits => Sys2Proof.Machine.execConfig keybits s
  | .initkeys src => Sys2Proof.Machine.execInitkeys src s
  | .encblk src dst => Sys2Proof.Machine.execEncblk src dst s
  | .decblk src dst => Sys2Proof.Machine.execDecblk src dst s
  | .ecbEnc nblk src dst => Sys2Proof.Machine.execEcbEnc nblk src dst s
  | .ecbDec nblk src dst => Sys2Proof.Machine.execEcbDec nblk src dst s
  | .cbcEnc nblk src dst iv => Sys2Proof.Machine.execCbcEnc nblk src dst iv s
  | .cbcDec nblk src dst iv => Sys2Proof.Machine.execCbcDec nblk src dst iv s
  | .cfbEnc nblk src dst iv => Sys2Proof.Machine.execCfbEnc nblk src dst iv s
  | .cfbDec nblk src dst iv => Sys2Proof.Machine.execCfbDec nblk src dst iv s
  | .ofbEnc nblk src dst iv => Sys2Proof.Machine.execOfbEnc nblk src dst iv s
  | .ofbDec nblk src dst iv => Sys2Proof.Machine.execOfbDec nblk src dst iv s
  | .ctrEnc nblk src dst iv => Sys2Proof.Machine.execCtrEnc nblk src dst iv s
  | .ctrDec nblk src dst iv => Sys2Proof.Machine.execCtrDec nblk src dst iv s
  | .gcmEnc src dst iv aad tag => Sys2Proof.Machine.execGcmEnc src dst iv aad tag s
  | .gcmDec src dst iv aad tag => Sys2Proof.Machine.execGcmDec src dst iv aad tag s

end Sys2Proof.Machine
end

