-- ==== Sys2Proof/Machine/Step.lean ====
section
/-! DEFINITION. One step: CORE takes what the host does next (R25, R40, R216). -/

namespace Sys2Proof.Machine

open Sys2Proof

/-- One step.  The host's next event is taken: a frame is decoded (R58) and its command runs as one atomic
step (R40), or raises IllegalCommand (R200); a reset resets (R220); a byte the host stores is stored.  With
nothing presented CORE is idle and keeps its state (R216). -/
def step (s : State) : Host.Outcome State Fault Refusal :=
  match nextInput s with
  | none => .next s
  | some (.frame f, t) =>
    match decode f with
    | .command i => exec i t
    | .illegal _ => raise .illegalCommand t
  | some (.reset, t)    => .next (applyReset t)
  | some (.poke a b, t) => .next (applyPoke a b t)

/-- The state in which the next step takes the frame that a table word gives (log entry 4: frames come from
the command port, never from memory; R43, R45). -/
def State.withFetchWord (s : State) (nbits w : Nat) : State := present (frameOfBits nbits w) s

end Sys2Proof.Machine
end

