-- ==== Sys2Proof/Safety.lean ====
section
/-! DEFINITION. The terms the claims are stated in: the invariant of the context (R24), when a command's
checks pass (the rows of R199, one predicate per step of that table), how a command ends and what it leaves
unchanged.  Nothing here is used by the machine. -/

namespace Sys2Proof.Machine

open Sys2Proof

/-! ### Buffers -/

/-- R31: the addresses a descriptor names. -/
def InBuffer (d : Desc) (a : Nat) : Prop := d.addr.toNat ≤ a ∧ a < d.addr.toNat + d.len.toNat

/-- R31, R205: in range; an empty buffer always is. -/
def InRange (d : Desc) : Prop := d.len = 0 ∨ d.addr.toNat + d.len.toNat ≤ 4294967296

/-- No address belongs to both buffers. -/
def DisjointBuffers (x y : Desc) : Prop := ∀ a, ¬ (InBuffer x a ∧ InBuffer y a)

/-- R208: exactly in place, or disjoint. -/
def Apart (src dst : Desc) : Prop := src.addr = dst.addr ∨ DisjointBuffers src dst

/-- Block `i` of a buffer. -/
def bufBlock (s : State) (d : Desc) (i : Nat) : Block := readBlock s.mem (d.addr.toNat + 16 * i)

/-- R140: the first `n` blocks of a buffer, in order. -/
def bufBlocks (s : State) (d : Desc) (n : Nat) : List Block := (List.range n).map (bufBlock s d)

/-- The bytes of a buffer. -/
def bufBytes (s : State) (d : Desc) : List Byte := memRead s.mem d.addr.toNat d.len.toNat

/-! ### The checks, step by step (R199) -/

/-- R195: "cipher command" means ENCBLK, DECBLK and the twelve mode commands. -/
def isCipher : Instr → Bool
  | .config _   => false
  | .initkeys _ => false
  | _           => true

/-- Steps 3b, 3c: KEYVALID is 0 for INITKEYS, 1 for cipher commands. -/
def KeyStateOk : Instr → State → Prop
  | .config _,   _ => True
  | .initkeys _, s => s.keyvalid = false
  | _,           s => s.keyvalid = true

/-- R206 for the modes: SRC.LEN and DST.LEN are `16*NBLK` without wrap-around. -/
def TextLens (n : Word) (src dst : Desc) : Prop := src.len.toNat = 16 * n.toNat ∧ dst.len.toNat = 16 * n.toNat

/-- Step 4 (R206): every LEN field has the needed value. -/
def LengthsOk : Instr → State → Prop
  | .config _,                _ => True
  | .initkeys src,            s => src.len.toNat = 4 * (2 * s.ksize.toNat + 2)
  | .encblk src dst,          _ => src.len = 16 ∧ dst.len = 16
  | .decblk src dst,          _ => src.len = 16 ∧ dst.len = 16
  | .ecbEnc n src dst,        _ => TextLens n src dst
  | .ecbDec n src dst,        _ => TextLens n src dst
  | .cbcEnc n src dst iv,     _ => TextLens n src dst ∧ iv.len = 16
  | .cbcDec n src dst iv,     _ => TextLens n src dst ∧ iv.len = 16
  | .cfbEnc n src dst iv,     _ => TextLens n src dst ∧ iv.len = 16
  | .cfbDec n src dst iv,     _ => TextLens n src dst ∧ iv.len = 16
  | .ofbEnc n src dst iv,     _ => TextLens n src dst ∧ iv.len = 16
  | .ofbDec n src dst iv,     _ => TextLens n src dst ∧ iv.len = 16
  | .ctrEnc n src dst iv,     _ => TextLens n src dst ∧ iv.len = 16
  | .ctrDec n src dst iv,     _ => TextLens n src dst ∧ iv.len = 16
  | .gcmEnc src dst iv _ tag, _ => dst.len = src.len ∧ iv.len = 12 ∧ tag.len = 16
  | .gcmDec src dst iv _ tag, _ => dst.len = src.len ∧ iv.len = 12 ∧ tag.len = 16

/-- Step 5 (R207): at most GCM_MAX_BYTES = 2^29 - 1. -/
def GcmLengthsOk : Instr → Prop
  | .gcmEnc src _ _ aad _ => src.len.toNat ≤ 536870911 ∧ aad.len.toNat ≤ 536870911
  | .gcmDec src _ _ aad _ => src.len.toNat ≤ 536870911 ∧ aad.len.toNat ≤ 536870911
  | _                     => True

/-- R48: the buffers a command uses. -/
def usedBuffers : Instr → List Desc
  | .config _                  => []
  | .initkeys src              => [src]
  | .encblk src dst            => [src, dst]
  | .decblk src dst            => [src, dst]
  | .ecbEnc _ src dst          => [src, dst]
  | .ecbDec _ src dst          => [src, dst]
  | .cbcEnc _ src dst iv       => [src, dst, iv]
  | .cbcDec _ src dst iv       => [src, dst, iv]
  | .cfbEnc _ src dst iv       => [src, dst, iv]
  | .cfbDec _ src dst iv       => [src, dst, iv]
  | .ofbEnc _ src dst iv       => [src, dst, iv]
  | .ofbDec _ src dst iv       => [src, dst, iv]
  | .ctrEnc _ src dst iv       => [src, dst, iv]
  | .ctrDec _ src dst iv       => [src, dst, iv]
  | .gcmEnc src dst iv aad tag => [src, dst, iv, aad, tag]
  | .gcmDec src dst iv aad tag => [src, dst, iv, aad, tag]

/-- Step 6 (R205): every used buffer ends at or below `2^32`. -/
def RangesOk (i : Instr) : Prop := ∀ d ∈ usedBuffers i, InRange d

/-- Step 7 (R208): SRC and DST of a cipher command are in place or disjoint. -/
def OverlapOk : Instr → Prop
  | .config _             => True
  | .initkeys _           => True
  | .encblk src dst       => Apart src dst
  | .decblk src dst       => Apart src dst
  | .ecbEnc _ src dst     => Apart src dst
  | .ecbDec _ src dst     => Apart src dst
  | .cbcEnc _ src dst _   => Apart src dst
  | .cbcDec _ src dst _   => Apart src dst
  | .cfbEnc _ src dst _   => Apart src dst
  | .cfbDec _ src dst _   => Apart src dst
  | .ofbEnc _ src dst _   => Apart src dst
  | .ofbDec _ src dst _   => Apart src dst
  | .ctrEnc _ src dst _   => Apart src dst
  | .ctrDec _ src dst _   => Apart src dst
  | .gcmEnc src dst _ _ _ => Apart src dst
  | .gcmDec src dst _ _ _ => Apart src dst

/-- R209: the counters of `n` blocks from the IV on stay below `2^128`. -/
def CountersFit (n : Word) (iv : Desc) (s : State) : Prop :=
  n = 0 ∨ int128 (bufBlock s iv 0) + (n.toNat - 1) < 2 ^ 128

/-- Step 8 (R209): the counter of a CTR command stays below `2^128`. -/
def CounterOk : Instr → State → Prop
  | .ctrEnc n _ _ iv, s => CountersFit n iv s
  | .ctrDec n _ _ iv, s => CountersFit n iv s
  | _,                _ => True

/-- R96, R201: the supported key sizes. -/
def KeySizeOk : Instr → Prop
  | .config kb => kb = 128 ∨ kb = 192 ∨ kb = 256
  | _          => True

/-- Steps 2 to 4 of R199 for a command other than CONFIG. -/
def LengthsPass (i : Instr) (s : State) : Prop := s.ksize ≠ 0 ∧ KeyStateOk i s ∧ LengthsOk i s

/-- Steps 3 to 7 of R199. -/
def AddressesPass (i : Instr) (s : State) : Prop := LengthsPass i s ∧ GcmLengthsOk i ∧ RangesOk i

/-- Every check of R199 before execution passes (for a command other than CONFIG). -/
def Ready (i : Instr) (s : State) : Prop := AddressesPass i s ∧ OverlapOk i ∧ CounterOk i s

/-! ### How a command ends -/

/-- R17, R21, R195: the result code is returned and kept in LAST, the transient registers are zero, and what
the host still has to do is not touched. -/
def EndsWith (r : ResultCode) (s t : State) : Prop :=
  t.last = r.code ∧ t.responses = s.responses ++ [r] ∧ t.tr = Transients.zero ∧ t.inputs = s.inputs

/-- R10: the context is KSIZE, KEYVALID and W. -/
def SameContext (s t : State) : Prop := t.ksize = s.ksize ∧ t.keyvalid = s.keyvalid ∧ t.w = s.w

/-- Every byte outside a buffer reads as before. -/
def SameOutside (d : Desc) (s t : State) : Prop := ∀ a, ¬ InBuffer d a → readByte t.mem a = readByte s.mem a

/-- R197: the state after `raise r`: LAST (and the response), and nothing else but the transients. -/
def afterError (r : ResultCode) (s : State) : State :=
  { s with last := r.code, responses := s.responses ++ [r], tr := Transients.zero }

/-- What holds after a command that returns OK and writes into DST only: the context, and every byte
outside DST, are as before. -/
def CompletedInto (dst : Desc) (s t : State) : Prop := EndsWith .ok s t ∧ SameContext s t ∧ SameOutside dst s t

/-! ### The invariant of the context -/

/-- R24 (b): W holds the key schedule of some key of the configured size and zeros after it. -/
def HoldsSchedule (s : State) : Prop :=
  ∃ key : List Byte, key.length = keybytesOf s.ksize ∧
    ∀ i, i < 60 → wAt s.w i = (keyExpansion key (nkOf s.ksize)).getD i 0

/-- R24 (a) to (d), with the canonical form of the memory and the transients' rest value (R21). -/
structure Inv (s : State) : Prop where
  /-- (a) -/
  keyed_configured : s.keyvalid = true → s.ksize ≠ 0
  /-- (b) -/
  keyed_schedule   : s.keyvalid = true → HoldsSchedule s
  /-- (c) -/
  unkeyed_zero     : s.keyvalid = false → ∀ i, i < 60 → wAt s.w i = 0
  /-- (d) -/
  last_is_code     : ∃ r : ResultCode, s.last = r.code
  mem_wf           : Memory.wf s.mem = true
  transients_zero  : s.tr = Transients.zero

end Sys2Proof.Machine
end

