-- ==== Sys2Proof/Certificates/Slice0/Obligations.lean ====
section
/-! DEFINITION. The statements for the provers, in the order of the spec's files. -/

open Sys2Proof Sys2Proof.Machine

/-! ## Encoding (30_encoding.md) -/

/-- R58: "Encoding a command with ignored words set to 0 and decoding it again returns the command", for
every command with every operand. -/
def Obligations.DecodeInvertsEncode : Prop := ∀ i : Instr, decode (encode i) = .command i ∧ (encode i).wellFormed = true

/-- R56, R57: the other direction, for a frame as an assembler writes it. -/
def Obligations.EncodeInvertsDecodeOnWellFormedFrames : Prop :=
  ∀ f : Frame, f.wellFormed = true → ∃ i, decode f = .command i ∧ encode i = f

/-- R52: a frame is illegal exactly when (a) OPC is unassigned, (b) RSV is not 0, or (c) KEYBITS is not 0
under another opcode than CONFIG's. -/
def Obligations.IllegalFramesAreTheReservedOnes : Prop :=
  ∀ f : Frame, (∃ why, decode f = .illegal why) ↔
    ((f.cmd.toNat % 256 = 0 ∨ (0x05 ≤ f.cmd.toNat % 256 ∧ f.cmd.toNat % 256 ≤ 0x0F) ∨ 0x1C ≤ f.cmd.toNat % 256) ∨
      f.cmd.toNat / 256 % 256 ≠ 0 ∨ (f.cmd.toNat % 256 ≠ 1 ∧ f.cmd.toNat / 65536 ≠ 0))

/-- R49: the decoder and the opcode table (masks and matches) agree on every frame. -/
def Obligations.DecoderAgreesWithOpcodeTable : Prop :=
  ∀ f : Frame,
    (∀ i, decode f = .command i → (rowOf f).map OpcodeRow.mnemonic = some i.mnemonic) ∧
    (∀ why, decode f = .illegal why → rowOf f = none)

/-- R53: frames that differ only in words the command does not use decode alike. -/
def Obligations.UnusedWordsAreIgnored : Prop :=
  ∀ (f g : Frame) (r : OpcodeRow), rowOf f = some r → g.cmd = f.cmd →
    (r.uses.nblk = true → g.nblk = f.nblk) → (r.uses.src = true → g.src = f.src) → (r.uses.dst = true → g.dst = f.dst) →
    (r.uses.iv = true → g.iv = f.iv) → (r.uses.aad = true → g.aad = f.aad) → (r.uses.tag = true → g.tag = f.tag) →
    decode g = decode f

/-- Sanity: words written out from R46, R49 and R56 decode to the commands they stand for. -/
def Obligations.SampleFramesDecode : Prop :=
  decode ⟨0x00C00001, 0, zeroDesc, zeroDesc, zeroDesc, zeroDesc, zeroDesc⟩ = .command (.config 192) ∧
  decode ⟨0x00000013, 2, ⟨0x1000, 0x20⟩, ⟨0x2000, 0x20⟩, ⟨0x0F00, 0x10⟩, zeroDesc, zeroDesc⟩ =
    .command (.cbcDec 2 ⟨0x1000, 32⟩ ⟨0x2000, 32⟩ ⟨0x0F00, 16⟩) ∧
  decode ⟨0x0000001A, 0, ⟨0x2000, 0x33⟩, ⟨0x3000, 0x33⟩, ⟨0x4000, 0x0C⟩, ⟨0x5000, 0x5A⟩, ⟨0x6000, 0x10⟩⟩ =
    .command (.gcmEnc ⟨0x2000, 51⟩ ⟨0x3000, 51⟩ ⟨0x4000, 12⟩ ⟨0x5000, 90⟩ ⟨0x6000, 16⟩) ∧
  decode ⟨0x00000103, 0, ⟨0x2000, 16⟩, ⟨0x3000, 16⟩, zeroDesc, zeroDesc, zeroDesc⟩ = .illegal .reservedBits

/-! ## The step and the host's side (10_state.md, 20_memory.md, 70_reset_and_hazards.md) -/

/-- R40, R45: a step takes the frame presented next and, if it decodes to a command, is that command.  (The
port as a list, one input to a step, is the model's form: log entries 4 and 6.) -/
def Obligations.StepRunsDecodedCommand : Prop :=
  ∀ (s : State) (f : Frame) (rest : List HostEvent) (i : Instr), s.inputs = .frame f :: rest → decode f = .command i →
    step s = exec i { s with inputs := rest }

/-- R52, R200: a frame that R52 calls illegal raises IllegalCommand and does nothing else, in every state and
whatever its operand words are. -/
def Obligations.IllegalFrameRaisesIllegalCommand : Prop :=
  ∀ (s : State) (f : Frame) (rest : List HostEvent), s.inputs = .frame f :: rest →
    ((f.cmd.toNat % 256 = 0 ∨ (0x05 ≤ f.cmd.toNat % 256 ∧ f.cmd.toNat % 256 ≤ 0x0F) ∨ 0x1C ≤ f.cmd.toNat % 256) ∨
      f.cmd.toNat / 256 % 256 ≠ 0 ∨ (f.cmd.toNat % 256 ≠ 1 ∧ f.cmd.toNat / 65536 ≠ 0)) →
    step s = .next (afterError .illegalCommand { s with inputs := rest })

/-- Log entry 4: the frame of a table word, placed on the command port, is the next command to run.  (That
frames come from the port and that placing one means this is the model's form of R25 and R45.) -/
def Obligations.FetchWordIsRunNext : Prop :=
  ∀ (s : State) (nbits w : Nat) (i : Instr), decodeTableWord nbits w = some i →
    step (s.withFetchWord nbits w) = exec i s

/-- R196: no state stops CORE; every step goes on. -/
def Obligations.EveryStepGoesOn : Prop := ∀ s : State, ∃ t, step s = .next t

/-- R216: between commands CORE is idle and keeps its state.  (A step with no input is the model's form: log
entry 6.) -/
def Obligations.IdleKeepsEverything : Prop := ∀ s : State, s.inputs = [] → step s = .next s

/-- R23, R221: after a reset event every register has its reset value, STATUS reads 0x00, and the memory is
not changed. -/
def Obligations.ResetEventResets : Prop :=
  ∀ (s : State) (rest : List HostEvent), s.inputs = .reset :: rest →
    ∃ t, step s = .next t ∧ t.ksize = 0 ∧ t.keyvalid = false ∧ (∀ i, i < 60 → wAt t.w i = 0) ∧ t.last = 0 ∧
      t.tr = Transients.zero ∧ status t = 0x00 ∧ t.mem = s.mem

/-- R23: the state after reset. -/
def Obligations.ResetStateValues : Prop :=
  State.reset.ksize = 0 ∧ State.reset.keyvalid = false ∧ (∀ i, i < 60 → wAt State.reset.w i = 0) ∧
    State.reset.last = 0 ∧ State.reset.tr = Transients.zero ∧ status State.reset = 0x00

/-- R30, R40: between commands the host stores a byte: that byte changes, no other, and nothing of CORE.  (The
store as an input that a step takes is the model's form: log entry 6.) -/
def Obligations.HostStoreWritesOneByte : Prop :=
  ∀ (s : State) (a : Word) (b : Byte) (rest : List HostEvent), Memory.wf s.mem = true → s.inputs = .poke a b :: rest →
    ∃ t, step s = .next t ∧ readByte t.mem a.toNat = b ∧ (∀ x, x ≠ a.toNat → readByte t.mem x = readByte s.mem x) ∧
      SameContext s t ∧ t.last = s.last ∧ t.tr = s.tr ∧ t.responses = s.responses ∧ t.inputs = rest

/-- R18: the bits of the status port. -/
def Obligations.StatusPortLayout : Prop :=
  ∀ s : State,
    (status s).getLsbD 0 = decide (s.ksize ≠ 0) ∧ (status s).getLsbD 1 = s.keyvalid ∧
    (status s).extractLsb' 2 2 = s.ksize ∧ (status s).extractLsb' 4 4 = s.last

/-- R30, R32, R33: the memory is a map from addresses to bytes and nothing else.  Two memories that read alike
are the same; after a `MemWrite` its addresses read as its bytes and no other address changed; writing back what was read, or one string
over another of its length, is as if the first write had not been. -/
def Obligations.MemoryIsAMapOfBytes : Prop :=
  ∀ (m m' : Memory) (a : Nat) (v v' : List Byte), Memory.wf m = true → Memory.wf m' = true → a + v.length ≤ 4294967296 →
    ((∀ x, readByte m x = readByte m' x) → m = m') ∧
    memRead (memWrite m a v) a v.length = v ∧
    (∀ x, (x < a ∨ a + v.length ≤ x) → readByte (memWrite m a v) x = readByte m x) ∧
    memWrite m a (memRead m a v.length) = m ∧
    (v'.length = v.length → memWrite (memWrite m a v') a v = memWrite m a v)

/-! ## GF(2^8) and the S-boxes (40_gf256_sbox.md) -/

/-- R66: `multiply` is commutative, distributes over XOR and has the units R66 names. -/
def Obligations.MultiplyLaws : Prop :=
  ∀ a b c : Byte, multiply a b = multiply b a ∧ multiply a (b ^^^ c) = multiply a b ^^^ multiply a c ∧
    multiply a 1 = a ∧ multiply a 0 = 0 ∧ (multiply a b = 0 → a = 0 ∨ b = 0)

/-- R68: `divide` gives quotient and remainder of polynomials, for operands of up to 9 bits. -/
def Obligations.DivideIsLongDivision : Prop :=
  ∀ a b : Nat, a < 512 → b < 512 → b ≠ 0 →
    ∃ q r, divide a b = some (q, r) ∧ a = clmul q b ^^^ r ∧ degree r < degree b

/-- R69: the contract of `multiplicativeInverse`, with its corner values. -/
def Obligations.InverseContract : Prop :=
  multiplicativeInverse 0 = 0 ∧
  (∀ a : Byte, a ≠ 0 → ∀ v, multiply a v = 1 ↔ v = multiplicativeInverse a) ∧
  (∀ a : Byte, multiplicativeInverse (multiplicativeInverse a) = a) ∧
  multiplicativeInverse 1 = 1 ∧ multiplicativeInverse 2 = 0x8d ∧ multiplicativeInverse 0xff = 0x1c

/-- R72: SBOX is the affine transform of the inverse, a bijection without fixed and opposite fixed points. -/
def Obligations.SboxIsAffineOfInverse : Prop :=
  (∀ x : Byte, sbox x = affine (multiplicativeInverse x)) ∧ (∀ x y : Byte, sbox x = sbox y → x = y) ∧
  (∀ x : Byte, sbox x ≠ x ∧ sbox x ≠ x ^^^ 0xff)

/-- R73: INVSBOX undoes SBOX, and has R73's closed form. -/
def Obligations.InvSboxUndoesSbox : Prop :=
  ∀ x : Byte, invSbox (sbox x) = x ∧ sbox (invSbox x) = x ∧
    invSbox x = multiplicativeInverse (rotl8 x 1 ^^^ rotl8 x 3 ^^^ rotl8 x 6 ^^^ 0x05)

/-! ## GF(2^128) (41_gf128_ghash.md) -/

/-- R87: the shift byte by byte, and as integers. -/
def Obligations.RightShiftBytewise : Prop :=
  ∀ b : Block,
    (rightShiftWithCarry b).2 = (byteAt b 15).getLsbD 0 ∧
    (rightShiftWithCarry b).2 = decide (int128 b % 2 = 1) ∧
    byteAt (rightShiftWithCarry b).1 0 = byteAt b 0 >>> 1 ∧
    (∀ i, 1 ≤ i → i ≤ 15 → byteAt (rightShiftWithCarry b).1 i = (byteAt b i >>> 1) ||| (byteAt b (i - 1) <<< 7)) ∧
    int128 (rightShiftWithCarry b).1 = int128 b / 2

/-- R89 (b): `ghashMultiply` distributes over XOR in either argument. -/
def Obligations.GhashDistributes : Prop :=
  ∀ a x y : Block, ghashMultiply a (x ^^^ y) = ghashMultiply a x ^^^ ghashMultiply a y ∧
    ghashMultiply (x ^^^ y) a = ghashMultiply x a ^^^ ghashMultiply y a

/-- R89 (a): `ghashMultiply` is commutative. -/
def Obligations.GhashCommutes : Prop := ∀ a b : Block, ghashMultiply a b = ghashMultiply b a

/-- R178: the length block, byte by byte, of every two lengths a GCM command accepts: two big-endian counts
of bits, each in 64 bits. -/
def Obligations.LengthBlockLayout : Prop :=
  ∀ a t : Nat, a ≤ 536870911 → t ≤ 536870911 →
    int128 (lengthBlock a t) = 8 * a * 2 ^ 64 + 8 * t ∧
    ∀ i, i < 4 →
      byteAt (lengthBlock a t) i = 0 ∧ byteAt (lengthBlock a t) (8 + i) = 0 ∧
      byteAt (lengthBlock a t) (4 + i) = wordByte (BitVec.ofNat 32 (8 * a)) i ∧
      byteAt (lengthBlock a t) (12 + i) = wordByte (BitVec.ofNat 32 (8 * t)) i

/-! ## Key scheduler (42_key_schedule.md) -/

/-- R99, R100, R101: RotWord and SubWord on the bytes of a word, and the round constants with their values. -/
def Obligations.KeyWordPieces : Prop :=
  (∀ b0 b1 b2 b3 : Byte, rotWord (be32 b0 b1 b2 b3) = be32 b1 b2 b3 b0 ∧
    subWord (be32 b0 b1 b2 b3) = be32 (sbox b0) (sbox b1) (sbox b2) (sbox b3)) ∧
  (∀ w : Word, rotWord w = w.rotateLeft 8) ∧
  (∀ g, rcon g = be32 (rc g) 0 0 0) ∧ rc 1 = 0x01 ∧ (∀ g, 2 ≤ g → g ≤ 10 → rc g = multiply (rc (g - 1)) 0x02) ∧
  (List.range 10).map (fun g => rcon (g + 1)) = [0x01000000, 0x02000000, 0x04000000, 0x08000000, 0x10000000,
    0x20000000, 0x40000000, 0x80000000, 0x1b000000, 0x36000000]

/-- R98, R102: KeyExpansion has NW words, the first Nk are the key's, each later word is `w[i-Nk]` XOR the
term R102 makes of `w[i-1]`. -/
def Obligations.KeyExpansionRecurrence : Prop :=
  ∀ (nk : Nat) (key : List Byte), nk = 4 ∨ nk = 6 ∨ nk = 8 → key.length = 4 * nk →
    (keyExpansion key nk).length = 4 * (nk + 6 + 1) ∧
    (∀ i, i < nk → (keyExpansion key nk).getD i 0 =
      be32 (key.getD (4 * i) 0) (key.getD (4 * i + 1) 0) (key.getD (4 * i + 2) 0) (key.getD (4 * i + 3) 0)) ∧
    ∀ i, nk ≤ i → i < 4 * (nk + 6 + 1) →
      (keyExpansion key nk).getD i 0 = (keyExpansion key nk).getD (i - nk) 0 ^^^
        (if i % nk = 0 then subWord (rotWord ((keyExpansion key nk).getD (i - 1) 0)) ^^^ rcon (i / nk)
         else if nk = 8 ∧ i % nk = 4 then subWord ((keyExpansion key nk).getD (i - 1) 0)
         else (keyExpansion key nk).getD (i - 1) 0)

/-- R103: the expansion group by group is the same function. -/
def Obligations.KeyExpansionGroupByGroup : Prop :=
  ∀ (nk : Nat) (key : List Byte), nk = 4 ∨ nk = 6 ∨ nk = 8 → key.length = 4 * nk →
    keyExpansionByGroups key nk = keyExpansion key nk

/-- R96: CONFIG with a supported size sets KSIZE, clears KEYVALID and zeroes W, in every state; with any other
it raises InvalidKeySize and changes LAST only. -/
def Obligations.ConfigSetsKeySizeOrRefuses : Prop :=
  ∀ (s : State) (kb : BitVec 16),
    (∀ k : BitVec 2, (kb = 128 ∧ k = 1) ∨ (kb = 192 ∧ k = 2) ∨ (kb = 256 ∧ k = 3) →
      ∃ t, exec (.config kb) s = .next t ∧ EndsWith .ok s t ∧ t.ksize = k ∧ t.keyvalid = false ∧
        (∀ i, i < 60 → wAt t.w i = 0) ∧ t.mem = s.mem) ∧
    (kb ≠ 128 → kb ≠ 192 → kb ≠ 256 → exec (.config kb) s = .next (afterError .invalidKeySize s))

/-- R97: a successful INITKEYS loads W[0..NW-1] with the expansion of the key in SRC and sets KEYVALID; the
words from NW on, KSIZE and the memory keep what they hold. -/
def Obligations.InitkeysLoadsSchedule : Prop :=
  ∀ (s : State) (src : Desc), Ready (.initkeys src) s →
    ∃ t, exec (.initkeys src) s = .next t ∧ EndsWith .ok s t ∧ t.ksize = s.ksize ∧ t.keyvalid = true ∧ t.mem = s.mem ∧
      (∀ i, i < 4 * (2 * s.ksize.toNat + 2 + 6 + 1) →
        wAt t.w i = (keyExpansion (bufBytes s src) (2 * s.ksize.toNat + 2)).getD i 0) ∧
      ∀ i, 4 * (2 * s.ksize.toNat + 2 + 6 + 1) ≤ i → wAt t.w i = wAt s.w i

/-! ## Round function (43_round_function.md) -/

/-- R117: AddRoundKey XORs the four key words onto the columns, and is its own inverse. -/
def Obligations.AddRoundKeyOnColumns : Prop :=
  ∀ (w : Vector Word 60) (r : Nat) (s : Block),
    (∀ c, c < 4 → colWord (addRoundKey w r s) c = colWord s c ^^^ wAt w (4 * r + c)) ∧
    addRoundKey w r (addRoundKey w r s) = s

/-- R120, R121: ShiftRows and InvShiftRows as the rules' lists of byte indices, undoing each other. -/
def Obligations.ShiftRowsPermutations : Prop :=
  ∀ s : Block,
    bytesOf (shiftRows s) = [0, 5, 10, 15, 4, 9, 14, 3, 8, 13, 2, 7, 12, 1, 6, 11].map (byteAt s) ∧
    bytesOf (invShiftRows s) = [0, 13, 10, 7, 4, 1, 14, 11, 8, 5, 2, 15, 12, 9, 6, 3].map (byteAt s) ∧
    invShiftRows (shiftRows s) = s ∧ shiftRows (invShiftRows s) = s

/-- R123: InvMixColumns undoes MixColumns. -/
def Obligations.InvMixColumnsUndoesMixColumns : Prop :=
  ∀ s : Block, invMixColumns (mixColumns s) = s ∧ mixColumns (invMixColumns s) = s

/-- R127: for every schedule and every block, decryption and encryption undo each other. -/
def Obligations.BlockCipherRoundTrip : Prop :=
  ∀ (k : Schedule) (x : Block), decryptBlock k (encryptBlock k x) = x ∧ encryptBlock k (decryptBlock k x) = x

/-- R128: ENCBLK leaves E of the source block in DST and changes nothing else. -/
def Obligations.EncblkEncryptsBlock : Prop :=
  ∀ (s : State) (src dst : Desc), Memory.wf s.mem = true → Ready (.encblk src dst) s →
    ∃ t, exec (.encblk src dst) s = .next t ∧ CompletedInto dst s t ∧
      bufBlock t dst 0 = encryptBlock (scheduleOf s) (bufBlock s src 0)

/-- R129: DECBLK leaves D of the source block in DST and changes nothing else. -/
def Obligations.DecblkDecryptsBlock : Prop :=
  ∀ (s : State) (src dst : Desc), Memory.wf s.mem = true → Ready (.decblk src dst) s →
    ∃ t, exec (.decblk src dst) s = .next t ∧ CompletedInto dst s t ∧
      bufBlock t dst 0 = decryptBlock (scheduleOf s) (bufBlock s src 0)

/-! ## Mode controllers (44_modes.md)

Each statement says R154's equations twice: block by block, and as the command's function on block lists
(`ecbEncBlocks` to `ctrBlocks`), both of the text that stood in SRC before the command. -/

/-- R142, R154: ECB.ENC, `C[i] = E(P[i])`. -/
def Obligations.EcbEncEncryptsEachBlock : Prop :=
  ∀ (s : State) (n : Word) (src dst : Desc), Memory.wf s.mem = true → Ready (.ecbEnc n src dst) s →
    ∃ t, exec (.ecbEnc n src dst) s = .next t ∧ CompletedInto dst s t ∧
      (∀ i, i < n.toNat → bufBlock t dst i = encryptBlock (scheduleOf s) (bufBlock s src i)) ∧
      bufBlocks t dst n.toNat = ecbEncBlocks (scheduleOf s) (bufBlocks s src n.toNat)

/-- R143, R154: ECB.DEC, `P[i] = D(C[i])`. -/
def Obligations.EcbDecDecryptsEachBlock : Prop :=
  ∀ (s : State) (n : Word) (src dst : Desc), Memory.wf s.mem = true → Ready (.ecbDec n src dst) s →
    ∃ t, exec (.ecbDec n src dst) s = .next t ∧ CompletedInto dst s t ∧
      (∀ i, i < n.toNat → bufBlock t dst i = decryptBlock (scheduleOf s) (bufBlock s src i)) ∧
      bufBlocks t dst n.toNat = ecbDecBlocks (scheduleOf s) (bufBlocks s src n.toNat)

/-- R144, R154: CBC.ENC, `C[i] = E(P[i] XOR C[i-1])`, `C[-1] = IV`. -/
def Obligations.CbcEncChainsCiphertext : Prop :=
  ∀ (s : State) (n : Word) (src dst iv : Desc), Memory.wf s.mem = true → Ready (.cbcEnc n src dst iv) s →
    ∃ t, exec (.cbcEnc n src dst iv) s = .next t ∧ CompletedInto dst s t ∧
      (∀ i, i < n.toNat → bufBlock t dst i =
        encryptBlock (scheduleOf s) (bufBlock s src i ^^^ (if i = 0 then bufBlock s iv 0 else bufBlock t dst (i - 1)))) ∧
      bufBlocks t dst n.toNat = cbcEncBlocks (scheduleOf s) (bufBlock s iv 0) (bufBlocks s src n.toNat)

/-- R145, R154: CBC.DEC, `P[i] = D(C[i]) XOR C[i-1]`, `C[-1] = IV`, also in place. -/
def Obligations.CbcDecUnchainsCiphertext : Prop :=
  ∀ (s : State) (n : Word) (src dst iv : Desc), Memory.wf s.mem = true → Ready (.cbcDec n src dst iv) s →
    ∃ t, exec (.cbcDec n src dst iv) s = .next t ∧ CompletedInto dst s t ∧
      (∀ i, i < n.toNat → bufBlock t dst i =
        decryptBlock (scheduleOf s) (bufBlock s src i) ^^^ (if i = 0 then bufBlock s iv 0 else bufBlock s src (i - 1))) ∧
      bufBlocks t dst n.toNat = cbcDecBlocks (scheduleOf s) (bufBlock s iv 0) (bufBlocks s src n.toNat)

/-- R146, R154: CFB.ENC, `C[i] = P[i] XOR E(C[i-1])`, `C[-1] = IV`. -/
def Obligations.CfbEncFeedsBackCiphertext : Prop :=
  ∀ (s : State) (n : Word) (src dst iv : Desc), Memory.wf s.mem = true → Ready (.cfbEnc n src dst iv) s →
    ∃ t, exec (.cfbEnc n src dst iv) s = .next t ∧ CompletedInto dst s t ∧
      (∀ i, i < n.toNat → bufBlock t dst i = bufBlock s src i ^^^
        encryptBlock (scheduleOf s) (if i = 0 then bufBlock s iv 0 else bufBlock t dst (i - 1))) ∧
      bufBlocks t dst n.toNat = cfbEncBlocks (scheduleOf s) (bufBlock s iv 0) (bufBlocks s src n.toNat)

/-- R147, R154: CFB.DEC, `P[i] = C[i] XOR E(C[i-1])`, `C[-1] = IV`, also in place. -/
def Obligations.CfbDecFeedsBackCiphertext : Prop :=
  ∀ (s : State) (n : Word) (src dst iv : Desc), Memory.wf s.mem = true → Ready (.cfbDec n src dst iv) s →
    ∃ t, exec (.cfbDec n src dst iv) s = .next t ∧ CompletedInto dst s t ∧
      (∀ i, i < n.toNat → bufBlock t dst i = bufBlock s src i ^^^
        encryptBlock (scheduleOf s) (if i = 0 then bufBlock s iv 0 else bufBlock s src (i - 1))) ∧
      bufBlocks t dst n.toNat = cfbDecBlocks (scheduleOf s) (bufBlock s iv 0) (bufBlocks s src n.toNat)

/-- R148, R149, R154: OFB.ENC and OFB.DEC, output XOR input is the keystream `O[i] = E(O[i-1])`, `O[-1] = IV`. -/
def Obligations.OfbAppliesKeystream : Prop :=
  ∀ (s : State) (n : Word) (src dst iv : Desc) (i : Instr), i = .ofbEnc n src dst iv ∨ i = .ofbDec n src dst iv →
    Memory.wf s.mem = true → Ready i s →
    ∃ t, exec i s = .next t ∧ CompletedInto dst s t ∧
      (∀ j, j < n.toNat → bufBlock t dst j ^^^ bufBlock s src j = encryptBlock (scheduleOf s)
        (if j = 0 then bufBlock s iv 0 else bufBlock t dst (j - 1) ^^^ bufBlock s src (j - 1))) ∧
      bufBlocks t dst n.toNat = ofbBlocks (scheduleOf s) (bufBlock s iv 0) (bufBlocks s src n.toNat)

/-- R151, R152, R154: CTR.ENC and CTR.DEC, `C[i] = P[i] XOR E(block128(int128(IV) + i))`. -/
def Obligations.CtrAppliesCounterKeystream : Prop :=
  ∀ (s : State) (n : Word) (src dst iv : Desc) (i : Instr), i = .ctrEnc n src dst iv ∨ i = .ctrDec n src dst iv →
    Memory.wf s.mem = true → Ready i s →
    ∃ t, exec i s = .next t ∧ CompletedInto dst s t ∧
      (∀ j, j < n.toNat → bufBlock t dst j =
        bufBlock s src j ^^^ encryptBlock (scheduleOf s) (block128 (int128 (bufBlock s iv 0) + j))) ∧
      bufBlocks t dst n.toNat = ctrBlocks (scheduleOf s) (bufBlock s iv 0) (bufBlocks s src n.toNat)

/-- R150: the counter increment, as an integer, its carry, and byte by byte. -/
def Obligations.Inc128AddsOne : Prop :=
  ∀ c : Block,
    int128 (inc128 c).1 = (int128 c + 1) % 2 ^ 128 ∧
    ((inc128 c).2 = true ↔ ∀ i, i < 16 → byteAt c i = 0xff) ∧
    ∀ i, i < 16 → byteAt (inc128 c).1 i = if (∀ j, j < 16 → i < j → byteAt c j = 0xff) then byteAt c i + 1 else byteAt c i

/-- R226: within one CTR command no two blocks share a keystream block. -/
def Obligations.CtrKeystreamBlocksDiffer : Prop :=
  ∀ (s : State) (n : Word) (iv : Desc) (i j : Nat), CountersFit n iv s → i < n.toNat → j < n.toNat → i ≠ j →
    encryptBlock (scheduleOf s) (block128 (int128 (bufBlock s iv 0) + i)) ≠
      encryptBlock (scheduleOf s) (block128 (int128 (bufBlock s iv 0) + j))

/-- R155, for every mode M: if M.ENC returns OK then M.DEC of its output, with the same IV, returns OK and
gives the text back; into a second buffer or in place. -/
def Obligations.ModesRoundTrip : Prop :=
  (∀ (s t : State) (n : Word) (src dst dst2 : Desc), Memory.wf s.mem = true →
    exec (.ecbEnc n src dst) s = .next t → t.last = 0 →
    dst2.len = dst.len → InRange dst2 → Apart dst dst2 →
    ∃ u, exec (.ecbDec n dst dst2) t = .next u ∧ u.last = 0 ∧ bufBytes u dst2 = bufBytes s src) ∧
  ∀ (s t : State) (n : Word) (src dst iv dst2 iv2 : Desc) (enc dec : Word → Desc → Desc → Desc → Instr),
    (enc, dec) ∈ [(Instr.cbcEnc, Instr.cbcDec), (Instr.cfbEnc, Instr.cfbDec),
      (Instr.ofbEnc, Instr.ofbDec), (Instr.ctrEnc, Instr.ctrDec)] →
    Memory.wf s.mem = true → exec (enc n src dst iv) s = .next t → t.last = 0 →
    dst2.len = dst.len → InRange dst2 → Apart dst dst2 →
    iv2.len = 16 → InRange iv2 → bufBlock t iv2 0 = bufBlock s iv 0 →
    ∃ u, exec (dec n dst dst2 iv2) t = .next u ∧ u.last = 0 ∧ bufBytes u dst2 = bufBytes s src

/-! ## GCM (45_gcm.md) -/

/-- R182: GCM.ENC writes `GcmCtr(N, pt)` to DST and `GcmTag(N, aad, dst)` to TAG (TAG apart from DST) and
nothing else; the tag is that of the ciphertext written. -/
def Obligations.GcmEncSealsText : Prop :=
  ∀ (s : State) (src dst iv aad tag : Desc), Memory.wf s.mem = true → Ready (.gcmEnc src dst iv aad tag) s → DisjointBuffers tag dst →
    ∃ t, exec (.gcmEnc src dst iv aad tag) s = .next t ∧ EndsWith .ok s t ∧ SameContext s t ∧
      (∀ a, ¬ InBuffer dst a → ¬ InBuffer tag a → readByte t.mem a = readByte s.mem a) ∧
      bufBytes t dst = gcmCtr (scheduleOf s) (bufBytes s iv) (bufBytes s src) ∧
      bufBlock t tag 0 = gcmTag (scheduleOf s) (bufBytes s iv) (bufBytes s aad) (bufBytes t dst)

/-- R182, R225 (c): where TAG meets DST the tag bytes win: TAG holds the tag of the whole ciphertext, and the
rest of DST the ciphertext; no byte outside the two changes. -/
def Obligations.GcmEncTagWrittenLast : Prop :=
  ∀ (s : State) (src dst iv aad tag : Desc), Memory.wf s.mem = true → Ready (.gcmEnc src dst iv aad tag) s →
    ∃ t, exec (.gcmEnc src dst iv aad tag) s = .next t ∧ EndsWith .ok s t ∧ SameContext s t ∧
      bufBlock t tag 0 = gcmTag (scheduleOf s) (bufBytes s iv) (bufBytes s aad)
        (gcmCtr (scheduleOf s) (bufBytes s iv) (bufBytes s src)) ∧
      (∀ j, j < src.len.toNat → ¬ InBuffer tag (dst.addr.toNat + j) →
        readByte t.mem (dst.addr.toNat + j) = (gcmCtr (scheduleOf s) (bufBytes s iv) (bufBytes s src)).getD j 0) ∧
      ∀ a, ¬ InBuffer dst a → ¬ InBuffer tag a → readByte t.mem a = readByte s.mem a

/-- R183: GCM.DEC of a text whose tag matches writes `GcmCtr(N, ct)` to DST and nothing else. -/
def Obligations.GcmDecOpensText : Prop :=
  ∀ (s : State) (src dst iv aad tag : Desc), Memory.wf s.mem = true → Ready (.gcmDec src dst iv aad tag) s →
    bufBlock s tag 0 = gcmTag (scheduleOf s) (bufBytes s iv) (bufBytes s aad) (bufBytes s src) →
    ∃ t, exec (.gcmDec src dst iv aad tag) s = .next t ∧ CompletedInto dst s t ∧
      bufBytes t dst = gcmCtr (scheduleOf s) (bufBytes s iv) (bufBytes s src)

/-- R183, R185, R198, R210: a tag that differs in any bit gives TagMismatch; every byte of DST is then zero
and no other byte, nor the context, has changed: no plaintext is released. -/
def Obligations.GcmDecFailsClosed : Prop :=
  ∀ (s : State) (src dst iv aad tag : Desc), Memory.wf s.mem = true → Ready (.gcmDec src dst iv aad tag) s →
    bufBlock s tag 0 ≠ gcmTag (scheduleOf s) (bufBytes s iv) (bufBytes s aad) (bufBytes s src) →
    ∃ t, exec (.gcmDec src dst iv aad tag) s = .next t ∧ EndsWith .tagMismatch s t ∧ SameContext s t ∧ SameOutside dst s t ∧
      ∀ a, InBuffer dst a → readByte t.mem a = 0

/-- R187 (a): GCM.DEC of what GCM.ENC wrote, with the same nonce, AAD and tag, returns OK and gives the text
back. -/
def Obligations.GcmRoundTrip : Prop :=
  ∀ (s t : State) (src dst iv aad tag dst2 iv2 aad2 tag2 : Desc), Memory.wf s.mem = true →
    exec (.gcmEnc src dst iv aad tag) s = .next t → t.last = 0 → DisjointBuffers tag dst →
    dst2.len = dst.len → InRange dst2 → Apart dst dst2 →
    iv2.len = 12 → InRange iv2 → bufBytes t iv2 = bufBytes s iv →
    aad2.len = aad.len → InRange aad2 → bufBytes t aad2 = bufBytes s aad →
    tag2.len = 16 → InRange tag2 → bufBlock t tag2 0 = bufBlock t tag 0 →
    ∃ u, exec (.gcmDec dst dst2 iv2 aad2 tag2) t = .next u ∧ u.last = 0 ∧ bufBytes u dst2 = bufBytes s src

/-! ## Result codes (60_exceptions.md) -/

/-- R199: of several causes the one checked first is reported.  Step 1 is the decoding of the frame; for every
command and state, the code returned is then the one of the first step of R199's table that fails; if all
pass it is OK, or TagMismatch from GCM.DEC. -/
def Obligations.FirstFailingCheckIsReported : Prop :=
  (∀ (s : State) (f : Frame) (rest : List HostEvent) (why : Illegal), s.inputs = .frame f :: rest → decode f = .illegal why →
    ∃ t, step s = .next t ∧ EndsWith .illegalCommand { s with inputs := rest } t) ∧
  ∀ (i : Instr) (s : State), ∃ r t, exec i s = .next t ∧ EndsWith r s t ∧
    (¬ KeySizeOk i → r = .invalidKeySize) ∧
    ((∃ kb, i = .config kb) → KeySizeOk i → r = .ok) ∧
    ((∀ kb, i ≠ .config kb) →
      (s.ksize = 0 → r = .notConfigured) ∧
      (s.ksize ≠ 0 → ¬ KeyStateOk i s → r = if isCipher i then .keyNotLoaded else .keyLocked) ∧
      (s.ksize ≠ 0 → KeyStateOk i s → ¬ LengthsOk i s → r = .bufferLengthMismatch) ∧
      (LengthsPass i s → ¬ GcmLengthsOk i → r = .lengthRange) ∧
      (LengthsPass i s → GcmLengthsOk i → ¬ RangesOk i → r = .addressRange) ∧
      (AddressesPass i s → ¬ OverlapOk i → r = .bufferOverlap) ∧
      (AddressesPass i s → OverlapOk i → ¬ CounterOk i s → r = .counterWrap) ∧
      (Ready i s → r = .ok ∨ (r = .tagMismatch ∧ ∃ src dst iv aad tag, i = .gcmDec src dst iv aad tag)))

/-- R197: an error other than TagMismatch, from any frame, changes LAST and nothing else. -/
def Obligations.ErrorChangesOnlyLast : Prop :=
  ∀ (s t : State) (r : ResultCode), step s = .next t → t.responses = s.responses ++ [r] →
    r ≠ .ok → r ≠ .tagMismatch → t = afterError r { s with inputs := s.inputs.tail }

/-! ## The whole machine -/

/-- R24, R21 at reset. -/
def Obligations.InvariantHoldsAtReset : Prop := Inv State.reset

/-- R24, R21: whatever the host does, a step keeps the invariant of the context. -/
def Obligations.StepKeepsInvariant : Prop := ∀ s t : State, Inv s → step s = .next t → Inv t

/-- R104: no cipher command writes KSIZE, KEYVALID or W. -/
def Obligations.CipherCommandsOnlyReadContext : Prop :=
  ∀ (i : Instr) (s t : State), isCipher i = true → exec i s = .next t → SameContext s t

/-- R104, R204, R228: while KEYVALID = 1 only a reset or a CONFIG with a supported size changes the context. -/
def Obligations.LoadedKeyIsLocked : Prop :=
  ∀ s t : State, s.keyvalid = true → step s = .next t → ¬ SameContext s t →
    (∃ rest, s.inputs = .reset :: rest) ∨
    (∃ f rest kb, s.inputs = .frame f :: rest ∧ decode f = .command (.config kb) ∧ KeySizeOk (.config kb))

/-- R21, R215: what a command answers and writes depends on the context and the memory only, never on the
transient registers, LAST or anything an earlier command left. -/
def Obligations.NothingElseIsCarriedOver : Prop :=
  ∀ (i : Instr) (s s' : State), SameContext s s' → s'.mem = s.mem →
    ∃ r t t', exec i s = .next t ∧ exec i s' = .next t' ∧ EndsWith r s t ∧ EndsWith r s' t' ∧
      SameContext t t' ∧ t'.mem = t.mem

/-- R41, R225 (f): CONFIG and INITKEYS write no memory; a cipher command writes no byte outside its DST and
(GCM.ENC) TAG buffers. -/
def Obligations.WritesStayInOutputBuffers : Prop :=
  ∀ (i : Instr) (s t : State), exec i s = .next t → ∀ a,
    (match i with
      | .config _ => True
      | .initkeys _ => True
      | .encblk _ dst => ¬ InBuffer dst a
      | .decblk _ dst => ¬ InBuffer dst a
      | .ecbEnc _ _ dst => ¬ InBuffer dst a
      | .ecbDec _ _ dst => ¬ InBuffer dst a
      | .cbcEnc _ _ dst _ => ¬ InBuffer dst a
      | .cbcDec _ _ dst _ => ¬ InBuffer dst a
      | .cfbEnc _ _ dst _ => ¬ InBuffer dst a
      | .cfbDec _ _ dst _ => ¬ InBuffer dst a
      | .ofbEnc _ _ dst _ => ¬ InBuffer dst a
      | .ofbDec _ _ dst _ => ¬ InBuffer dst a
      | .ctrEnc _ _ dst _ => ¬ InBuffer dst a
      | .ctrDec _ _ dst _ => ¬ InBuffer dst a
      | .gcmEnc _ dst _ _ tag => ¬ InBuffer dst a ∧ ¬ InBuffer tag a
      | .gcmDec _ dst _ _ _ => ¬ InBuffer dst a) →
    readByte t.mem a = readByte s.mem a
end

