-- ==== Sys2Proof/Laws/Bytes.lean ====
section
/-! SUPPORT. Bytes of blocks and words: reading what was packed, and equality byte by byte. -/

namespace Sys2Proof.Laws

open Sys2Proof Sys2Proof.Machine

theorem extract_append_high {n : Nat} (x : BitVec n) (y : Byte) (k : Nat) :
    (x ++ y).extractLsb' (8 * (k + 1)) 8 = x.extractLsb' (8 * k) 8 := by
  apply BitVec.eq_of_getLsbD_eq
  intro i hi
  simp only [BitVec.getLsbD_extractLsb', BitVec.getLsbD_append, hi, decide_true, Bool.true_and]
  rw [if_neg (by omega)]
  congr 1
  omega

theorem extract_append_low {n : Nat} (x : BitVec n) (y : Byte) : (x ++ y).extractLsb' (8 * 0) 8 = y := by
  apply BitVec.eq_of_getLsbD_eq
  intro i hi
  simp [BitVec.getLsbD_append, hi]

theorem extract_byte (y : Byte) : y.extractLsb' (8 * 0) 8 = y := by simp

/-- Byte `k` of the block packed from `f` is `f k`. -/
theorem byteAt_blockOf (f : Nat → Byte) {k : Nat} (hk : k < 16) : byteAt (blockOf f) k = f k := by
  unfold byteAt blockOf
  interval_cases k <;>
    simp only [Nat.reduceSub, extract_append_high, extract_append_low, extract_byte]

/-- Two blocks with the same sixteen bytes are the same. -/
theorem block_ext {a b : Block} (h : ∀ k, k < 16 → byteAt a k = byteAt b k) : a = b := by
  apply BitVec.eq_of_getLsbD_eq
  intro i hi
  have hb := congrArg (fun x : Byte => x.getLsbD (i % 8)) (h (15 - i / 8) (by omega))
  have hidx : 8 * (15 - (15 - i / 8)) + i % 8 = i := by omega
  simpa [byteAt, BitVec.getLsbD_extractLsb', Nat.mod_lt, hidx] using hb

theorem blockOf_congr {f g : Nat → Byte} (h : ∀ k, k < 16 → f k = g k) : blockOf f = blockOf g :=
  block_ext fun k hk => by rw [byteAt_blockOf f hk, byteAt_blockOf g hk, h k hk]

theorem blockOf_byteAt (b : Block) : blockOf (byteAt b) = b := block_ext fun _ hk => byteAt_blockOf _ hk

@[simp] theorem byteAt_xor (a b : Block) (k : Nat) : byteAt (a ^^^ b) k = byteAt a k ^^^ byteAt b k := by
  simp [byteAt, BitVec.extractLsb'_xor]

@[simp] theorem byteAt_zero (k : Nat) : byteAt 0 k = 0 := by simp [byteAt]

@[simp] theorem bytesOf_length (b : Block) : (bytesOf b).length = 16 := by simp [bytesOf]

theorem getD_bytesOf (b : Block) {k : Nat} (hk : k < 16) : (bytesOf b).getD k 0 = byteAt b k := by
  simp [bytesOf, List.getD_eq_getElem?_getD, hk]

theorem byteAt_blockOfBytes (bs : List Byte) {k : Nat} (hk : k < 16) : byteAt (blockOfBytes bs) k = bs.getD k 0 :=
  byteAt_blockOf _ hk

@[simp] theorem blockOfBytes_bytesOf (b : Block) : blockOfBytes (bytesOf b) = b :=
  block_ext fun _ hk => by rw [byteAt_blockOfBytes _ hk, getD_bytesOf _ hk]

theorem bytesOf_blockOfBytes {bs : List Byte} (h : bs.length = 16) : bytesOf (blockOfBytes bs) = bs := by
  apply List.ext_getElem (by simp [h])
  intro k h1 h2
  have hk : k < 16 := by simpa using h1
  have e := getD_bytesOf (blockOfBytes bs) hk
  rw [byteAt_blockOfBytes _ hk] at e
  rw [List.getD_eq_getElem?_getD, List.getElem?_eq_getElem h1, List.getD_eq_getElem?_getD, List.getElem?_eq_getElem h2] at e
  exact e

/-! ### Words -/

theorem wordByte_be32 (b0 b1 b2 b3 : Byte) :
    wordByte (be32 b0 b1 b2 b3) 0 = b0 ∧ wordByte (be32 b0 b1 b2 b3) 1 = b1 ∧
    wordByte (be32 b0 b1 b2 b3) 2 = b2 ∧ wordByte (be32 b0 b1 b2 b3) 3 = b3 := by
  unfold wordByte be32
  simp only [Nat.reduceSub, extract_append_high, extract_append_low, extract_byte, and_self]

/-- Two words with the same four bytes are the same. -/
theorem word_ext {a b : Word} (h : ∀ k, k < 4 → wordByte a k = wordByte b k) : a = b := by
  apply BitVec.eq_of_getLsbD_eq
  intro i hi
  have hb := congrArg (fun x : Byte => x.getLsbD (i % 8)) (h (3 - i / 8) (by omega))
  have hidx : 8 * (3 - (3 - i / 8)) + i % 8 = i := by omega
  simpa [wordByte, BitVec.getLsbD_extractLsb', Nat.mod_lt, hidx] using hb

@[simp] theorem wordByte_xor (a b : Word) (k : Nat) : wordByte (a ^^^ b) k = wordByte a k ^^^ wordByte b k := by
  simp [wordByte, BitVec.extractLsb'_xor]

@[simp] theorem be32_wordByte (w : Word) : be32 (wordByte w 0) (wordByte w 1) (wordByte w 2) (wordByte w 3) = w := by
  apply word_ext
  intro k hk
  have h := wordByte_be32 (wordByte w 0) (wordByte w 1) (wordByte w 2) (wordByte w 3)
  interval_cases k <;> simp [h]

end Sys2Proof.Laws
end

