-- ==== Sys2Proof/Laws/State.lean ====
section
/-! SUPPORT. One lemma per field per update of State and of Work, each true by unfolding, so that no later
proof unfolds a record update. -/

namespace Sys2Proof.Laws

open Sys2Proof Sys2Proof.Machine

@[simp] theorem complete_ksize (r : ResultCode) (m : Memory) (s : State) : (complete r m s).ksize = s.ksize := rfl
@[simp] theorem complete_keyvalid (r : ResultCode) (m : Memory) (s : State) : (complete r m s).keyvalid = s.keyvalid := rfl
@[simp] theorem complete_w (r : ResultCode) (m : Memory) (s : State) : (complete r m s).w = s.w := rfl
@[simp] theorem complete_last (r : ResultCode) (m : Memory) (s : State) : (complete r m s).last = r.code := rfl
@[simp] theorem complete_tr (r : ResultCode) (m : Memory) (s : State) : (complete r m s).tr = Transients.zero := rfl
@[simp] theorem complete_mem (r : ResultCode) (m : Memory) (s : State) : (complete r m s).mem = m := rfl
@[simp] theorem complete_inputs (r : ResultCode) (m : Memory) (s : State) : (complete r m s).inputs = s.inputs := rfl
@[simp] theorem complete_responses (r : ResultCode) (m : Memory) (s : State) : (complete r m s).responses = s.responses ++ [r] := rfl

@[simp] theorem configure_ksize (k : BitVec 2) (s : State) : (configure k s).ksize = k := rfl
@[simp] theorem configure_keyvalid (k : BitVec 2) (s : State) : (configure k s).keyvalid = false := rfl
@[simp] theorem configure_w (k : BitVec 2) (s : State) : (configure k s).w = Vector.replicate Config.wRegs 0 := rfl
@[simp] theorem configure_last (k : BitVec 2) (s : State) : (configure k s).last = s.last := rfl
@[simp] theorem configure_tr (k : BitVec 2) (s : State) : (configure k s).tr = s.tr := rfl
@[simp] theorem configure_mem (k : BitVec 2) (s : State) : (configure k s).mem = s.mem := rfl
@[simp] theorem configure_inputs (k : BitVec 2) (s : State) : (configure k s).inputs = s.inputs := rfl
@[simp] theorem configure_responses (k : BitVec 2) (s : State) : (configure k s).responses = s.responses := rfl

@[simp] theorem loadKey_ksize (key : List Byte) (s : State) : (loadKey key s).ksize = s.ksize := rfl
@[simp] theorem loadKey_keyvalid (key : List Byte) (s : State) : (loadKey key s).keyvalid = true := rfl
@[simp] theorem loadKey_w (key : List Byte) (s : State) : (loadKey key s).w = loadWords s.w (keyExpansion key (nkOf s.ksize)) := rfl
@[simp] theorem loadKey_last (key : List Byte) (s : State) : (loadKey key s).last = s.last := rfl
@[simp] theorem loadKey_tr (key : List Byte) (s : State) : (loadKey key s).tr = s.tr := rfl
@[simp] theorem loadKey_mem (key : List Byte) (s : State) : (loadKey key s).mem = s.mem := rfl
@[simp] theorem loadKey_inputs (key : List Byte) (s : State) : (loadKey key s).inputs = s.inputs := rfl
@[simp] theorem loadKey_responses (key : List Byte) (s : State) : (loadKey key s).responses = s.responses := rfl

@[simp] theorem applyReset_ksize (s : State) : (applyReset s).ksize = 0 := rfl
@[simp] theorem applyReset_keyvalid (s : State) : (applyReset s).keyvalid = false := rfl
@[simp] theorem applyReset_w (s : State) : (applyReset s).w = Vector.replicate Config.wRegs 0 := rfl
@[simp] theorem applyReset_last (s : State) : (applyReset s).last = 0 := rfl
@[simp] theorem applyReset_tr (s : State) : (applyReset s).tr = Transients.zero := rfl
@[simp] theorem applyReset_mem (s : State) : (applyReset s).mem = s.mem := rfl
@[simp] theorem applyReset_inputs (s : State) : (applyReset s).inputs = s.inputs := rfl
@[simp] theorem applyReset_responses (s : State) : (applyReset s).responses = s.responses := rfl

@[simp] theorem applyPoke_ksize (a : Word) (b : Byte) (s : State) : (applyPoke a b s).ksize = s.ksize := rfl
@[simp] theorem applyPoke_keyvalid (a : Word) (b : Byte) (s : State) : (applyPoke a b s).keyvalid = s.keyvalid := rfl
@[simp] theorem applyPoke_w (a : Word) (b : Byte) (s : State) : (applyPoke a b s).w = s.w := rfl
@[simp] theorem applyPoke_last (a : Word) (b : Byte) (s : State) : (applyPoke a b s).last = s.last := rfl
@[simp] theorem applyPoke_tr (a : Word) (b : Byte) (s : State) : (applyPoke a b s).tr = s.tr := rfl
@[simp] theorem applyPoke_mem (a : Word) (b : Byte) (s : State) : (applyPoke a b s).mem = writeByte s.mem a.toNat b := rfl
@[simp] theorem applyPoke_inputs (a : Word) (b : Byte) (s : State) : (applyPoke a b s).inputs = s.inputs := rfl
@[simp] theorem applyPoke_responses (a : Word) (b : Byte) (s : State) : (applyPoke a b s).responses = s.responses := rfl

@[simp] theorem present_ksize (f : Frame) (s : State) : (present f s).ksize = s.ksize := rfl
@[simp] theorem present_keyvalid (f : Frame) (s : State) : (present f s).keyvalid = s.keyvalid := rfl
@[simp] theorem present_w (f : Frame) (s : State) : (present f s).w = s.w := rfl
@[simp] theorem present_last (f : Frame) (s : State) : (present f s).last = s.last := rfl
@[simp] theorem present_tr (f : Frame) (s : State) : (present f s).tr = s.tr := rfl
@[simp] theorem present_mem (f : Frame) (s : State) : (present f s).mem = s.mem := rfl
@[simp] theorem present_inputs (f : Frame) (s : State) : (present f s).inputs = .frame f :: s.inputs := rfl
@[simp] theorem present_responses (f : Frame) (s : State) : (present f s).responses = s.responses := rfl

@[simp] theorem encipher_st (k : Schedule) (x : Block) (wk : Work) : (encipher k x wk).st = encryptBlock k x := rfl
@[simp] theorem encipher_cv (k : Schedule) (x : Block) (wk : Work) : (encipher k x wk).cv = wk.cv := rfl
@[simp] theorem encipher_ctrb (k : Schedule) (x : Block) (wk : Work) : (encipher k x wk).ctrb = wk.ctrb := rfl
@[simp] theorem encipher_ks (k : Schedule) (x : Block) (wk : Work) : (encipher k x wk).ks = wk.ks := rfl
@[simp] theorem encipher_h (k : Schedule) (x : Block) (wk : Work) : (encipher k x wk).h = wk.h := rfl
@[simp] theorem encipher_ej0 (k : Schedule) (x : Block) (wk : Work) : (encipher k x wk).ej0 = wk.ej0 := rfl
@[simp] theorem encipher_acc (k : Schedule) (x : Block) (wk : Work) : (encipher k x wk).acc = wk.acc := rfl
@[simp] theorem encipher_tagin (k : Schedule) (x : Block) (wk : Work) : (encipher k x wk).tagin = wk.tagin := rfl
@[simp] theorem encipher_idx (k : Schedule) (x : Block) (wk : Work) : (encipher k x wk).idx = wk.idx := rfl
@[simp] theorem encipher_mem (k : Schedule) (x : Block) (wk : Work) : (encipher k x wk).mem = wk.mem := rfl

@[simp] theorem decipher_st (k : Schedule) (x : Block) (wk : Work) : (decipher k x wk).st = decryptBlock k x := rfl
@[simp] theorem decipher_cv (k : Schedule) (x : Block) (wk : Work) : (decipher k x wk).cv = wk.cv := rfl
@[simp] theorem decipher_ctrb (k : Schedule) (x : Block) (wk : Work) : (decipher k x wk).ctrb = wk.ctrb := rfl
@[simp] theorem decipher_ks (k : Schedule) (x : Block) (wk : Work) : (decipher k x wk).ks = wk.ks := rfl
@[simp] theorem decipher_h (k : Schedule) (x : Block) (wk : Work) : (decipher k x wk).h = wk.h := rfl
@[simp] theorem decipher_ej0 (k : Schedule) (x : Block) (wk : Work) : (decipher k x wk).ej0 = wk.ej0 := rfl
@[simp] theorem decipher_acc (k : Schedule) (x : Block) (wk : Work) : (decipher k x wk).acc = wk.acc := rfl
@[simp] theorem decipher_tagin (k : Schedule) (x : Block) (wk : Work) : (decipher k x wk).tagin = wk.tagin := rfl
@[simp] theorem decipher_idx (k : Schedule) (x : Block) (wk : Work) : (decipher k x wk).idx = wk.idx := rfl
@[simp] theorem decipher_mem (k : Schedule) (x : Block) (wk : Work) : (decipher k x wk).mem = wk.mem := rfl

@[simp] theorem loadCv_st (iv : Desc) (wk : Work) : (loadCv iv wk).st = wk.st := rfl
@[simp] theorem loadCv_cv (iv : Desc) (wk : Work) : (loadCv iv wk).cv = readBlock wk.mem iv.addr.toNat := rfl
@[simp] theorem loadCv_ctrb (iv : Desc) (wk : Work) : (loadCv iv wk).ctrb = wk.ctrb := rfl
@[simp] theorem loadCv_ks (iv : Desc) (wk : Work) : (loadCv iv wk).ks = wk.ks := rfl
@[simp] theorem loadCv_h (iv : Desc) (wk : Work) : (loadCv iv wk).h = wk.h := rfl
@[simp] theorem loadCv_ej0 (iv : Desc) (wk : Work) : (loadCv iv wk).ej0 = wk.ej0 := rfl
@[simp] theorem loadCv_acc (iv : Desc) (wk : Work) : (loadCv iv wk).acc = wk.acc := rfl
@[simp] theorem loadCv_tagin (iv : Desc) (wk : Work) : (loadCv iv wk).tagin = wk.tagin := rfl
@[simp] theorem loadCv_idx (iv : Desc) (wk : Work) : (loadCv iv wk).idx = wk.idx := rfl
@[simp] theorem loadCv_mem (iv : Desc) (wk : Work) : (loadCv iv wk).mem = wk.mem := rfl

@[simp] theorem loadCtrb_st (iv : Desc) (wk : Work) : (loadCtrb iv wk).st = wk.st := rfl
@[simp] theorem loadCtrb_cv (iv : Desc) (wk : Work) : (loadCtrb iv wk).cv = wk.cv := rfl
@[simp] theorem loadCtrb_ctrb (iv : Desc) (wk : Work) : (loadCtrb iv wk).ctrb = readBlock wk.mem iv.addr.toNat := rfl
@[simp] theorem loadCtrb_ks (iv : Desc) (wk : Work) : (loadCtrb iv wk).ks = wk.ks := rfl
@[simp] theorem loadCtrb_h (iv : Desc) (wk : Work) : (loadCtrb iv wk).h = wk.h := rfl
@[simp] theorem loadCtrb_ej0 (iv : Desc) (wk : Work) : (loadCtrb iv wk).ej0 = wk.ej0 := rfl
@[simp] theorem loadCtrb_acc (iv : Desc) (wk : Work) : (loadCtrb iv wk).acc = wk.acc := rfl
@[simp] theorem loadCtrb_tagin (iv : Desc) (wk : Work) : (loadCtrb iv wk).tagin = wk.tagin := rfl
@[simp] theorem loadCtrb_idx (iv : Desc) (wk : Work) : (loadCtrb iv wk).idx = wk.idx := rfl
@[simp] theorem loadCtrb_mem (iv : Desc) (wk : Work) : (loadCtrb iv wk).mem = wk.mem := rfl

@[simp] theorem foldAcc_st (b : Block) (wk : Work) : (foldAcc b wk).st = wk.st := rfl
@[simp] theorem foldAcc_cv (b : Block) (wk : Work) : (foldAcc b wk).cv = wk.cv := rfl
@[simp] theorem foldAcc_ctrb (b : Block) (wk : Work) : (foldAcc b wk).ctrb = wk.ctrb := rfl
@[simp] theorem foldAcc_ks (b : Block) (wk : Work) : (foldAcc b wk).ks = wk.ks := rfl
@[simp] theorem foldAcc_h (b : Block) (wk : Work) : (foldAcc b wk).h = wk.h := rfl
@[simp] theorem foldAcc_ej0 (b : Block) (wk : Work) : (foldAcc b wk).ej0 = wk.ej0 := rfl
@[simp] theorem foldAcc_acc (b : Block) (wk : Work) : (foldAcc b wk).acc = foldWith wk.h wk.acc b := rfl
@[simp] theorem foldAcc_tagin (b : Block) (wk : Work) : (foldAcc b wk).tagin = wk.tagin := rfl
@[simp] theorem foldAcc_idx (b : Block) (wk : Work) : (foldAcc b wk).idx = wk.idx := rfl
@[simp] theorem foldAcc_mem (b : Block) (wk : Work) : (foldAcc b wk).mem = wk.mem := rfl

@[simp] theorem workOf_mem (s : State) : (workOf s).mem = s.mem := rfl
@[simp] theorem scheduleOf_w (s : State) : (scheduleOf s).w = s.w := rfl
@[simp] theorem scheduleOf_nr (s : State) : (scheduleOf s).nr = nrOf s.ksize := rfl

end Sys2Proof.Laws
end

