-- ==== Sys2Proof/Laws/Ops.lean ====
section
/-! SUPPORT. What each shared operation can do, said once: ending a command, the checks, the loop over
blocks, the host's next input, and the step. -/

namespace Sys2Proof.Laws

open Sys2Proof Sys2Proof.Machine

/-! ### Checks -/

theorem firstFailure_none_iff (cs : List (Bool × ResultCode)) :
    firstFailure cs = none ↔ ∀ c ∈ cs, c.1 = false := by
  induction cs with
  | nil => simp [firstFailure]
  | cons c cs ih =>
    obtain ⟨bad, r⟩ := c
    cases bad <;> simp [firstFailure, ih]

/-- The failure reported is one of the list's, and its check fails. -/
theorem firstFailure_some {cs : List (Bool × ResultCode)} {r : ResultCode} (h : firstFailure cs = some r) :
    (true, r) ∈ cs := by
  induction cs with
  | nil => simp [firstFailure] at h
  | cons c cs ih =>
    obtain ⟨bad, r'⟩ := c
    cases bad with
    | false => exact List.mem_cons_of_mem _ (ih (by simpa [firstFailure] using h))
    | true =>
      have : r' = r := by simpa [firstFailure] using h
      simp [this]

@[simp] theorem firstFailure_nil : firstFailure [] = none := rfl

@[simp] theorem firstFailure_cons_false (r : ResultCode) (cs : List (Bool × ResultCode)) :
    firstFailure ((false, r) :: cs) = firstFailure cs := rfl

@[simp] theorem firstFailure_cons_true (r : ResultCode) (cs : List (Bool × ResultCode)) :
    firstFailure ((true, r) :: cs) = some r := rfl

theorem firstFailure_append (cs ds : List (Bool × ResultCode)) :
    firstFailure (cs ++ ds) = (firstFailure cs).or (firstFailure ds) := by
  induction cs with
  | nil => simp
  | cons c cs ih =>
    obtain ⟨bad, r⟩ := c
    cases bad <;> simp [ih]

/-! ### Ending a command -/

theorem raise_eq (r : ResultCode) (s : State) : raise r s = .next (complete r s.mem s) := rfl

/-- All a cipher command can do: a check fails and its code is raised, or the checks pass and the work's
memory and code are the command's. -/
theorem runCipher_cases {checks : List (Bool × ResultCode)} {body : Schedule → Work → Work × ResultCode} {s t : State}
    (h : runCipher checks body s = .next t) :
    (∃ r, firstFailure checks = some r ∧ t = complete r s.mem s) ∨
    (firstFailure checks = none ∧
      t = complete (body (scheduleOf s) (workOf s)).2 (body (scheduleOf s) (workOf s)).1.mem s) := by
  unfold runCipher at h
  split at h
  next r hr => exact .inl ⟨r, hr, by simpa [raise] using h.symm⟩
  next hn => exact .inr ⟨hn, by simpa using h.symm⟩

theorem runCipher_fails {checks : List (Bool × ResultCode)} {r : ResultCode} (h : firstFailure checks = some r)
    (body : Schedule → Work → Work × ResultCode) (s : State) : runCipher checks body s = .next (complete r s.mem s) := by
  simp [runCipher, h, raise]

theorem runCipher_runs {checks : List (Bool × ResultCode)} (h : firstFailure checks = none)
    (body : Schedule → Work → Work × ResultCode) (s : State) :
    runCipher checks body s =
      .next (complete (body (scheduleOf s) (workOf s)).2 (body (scheduleOf s) (workOf s)).1.mem s) := by
  simp [runCipher, h]

/-- A cipher command always answers, with one result code. -/
theorem runCipher_answers (checks : List (Bool × ResultCode)) (body : Schedule → Work → Work × ResultCode) (s : State) :
    ∃ r m, runCipher checks body s = .next (complete r m s) := by
  cases h : firstFailure checks with
  | some r => exact ⟨r, s.mem, runCipher_fails h body s⟩
  | none => exact ⟨_, _, runCipher_runs h body s⟩

/-! ### The loop over blocks -/

@[simp] theorem forBlocks_zero (body : Nat → Work → Work) (wk : Work) : forBlocks 0 body wk = wk := rfl

theorem forBlocks_succ (n : Nat) (body : Nat → Work → Work) (wk : Work) :
    forBlocks (n + 1) body wk = body n { forBlocks n body wk with idx := BitVec.ofNat 28 n } := rfl

/-- Induction along the loop: `P i` holds before iteration `i`. -/
theorem forBlocks_induct {n : Nat} {body : Nat → Work → Work} {wk : Work} (P : Nat → Work → Prop) (h0 : P 0 wk)
    (hstep : ∀ i w, i < n → P i w → P (i + 1) (body i { w with idx := BitVec.ofNat 28 i })) :
    P n (forBlocks n body wk) := by
  induction n with
  | zero => exact h0
  | succ n ih => exact hstep n _ (by omega) (ih fun i w hi => hstep i w (by omega))

/-! ### The step -/

theorem nextInput_nil {s : State} (h : s.inputs = []) : nextInput s = none := by simp [nextInput, h]

theorem nextInput_cons {s : State} {e : HostEvent} {rest : List HostEvent} (h : s.inputs = e :: rest) :
    nextInput s = some (e, { s with inputs := rest }) := by simp [nextInput, h]

/-- All a step can do. -/
theorem step_cases (s : State) :
    (s.inputs = [] ∧ step s = .next s) ∨
    (∃ f rest i, s.inputs = .frame f :: rest ∧ decode f = .command i ∧ step s = exec i { s with inputs := rest }) ∨
    (∃ f rest why, s.inputs = .frame f :: rest ∧ decode f = .illegal why ∧
      step s = .next (complete .illegalCommand s.mem { s with inputs := rest })) ∨
    (∃ rest, s.inputs = .reset :: rest ∧ step s = .next (applyReset { s with inputs := rest })) ∨
    (∃ a b rest, s.inputs = .poke a b :: rest ∧ step s = .next (applyPoke a b { s with inputs := rest })) := by
  cases hin : s.inputs with
  | nil => exact .inl ⟨rfl, by simp [step, nextInput_nil hin]⟩
  | cons e rest =>
    refine .inr ?_
    cases e with
    | frame f =>
      cases hd : decode f with
      | command i => exact .inl ⟨f, rest, i, rfl, hd, by simp [step, nextInput_cons hin, hd]⟩
      | illegal why => exact .inr (.inl ⟨f, rest, why, rfl, hd, by simp [step, nextInput_cons hin, hd, raise]⟩)
    | reset => exact .inr (.inr (.inl ⟨rest, rfl, by simp [step, nextInput_cons hin]⟩))
    | poke a b => exact .inr (.inr (.inr ⟨a, b, rest, rfl, by simp [step, nextInput_cons hin]⟩))

end Sys2Proof.Laws
end

