-- ==== Sys2Proof/Laws/Checks.lean ====
section
/-! SUPPORT. The arithmetic tests of the checks and the predicates of Safety.lean say the same. -/

namespace Sys2Proof.Laws

open Sys2Proof Sys2Proof.Machine

theorem configured_iff (s : State) : configured s = true ↔ s.ksize ≠ 0 := by simp [configured]

theorem outOfRange_eq_false_iff (d : Desc) : outOfRange d = false ↔ InRange d := by
  unfold outOfRange InRange Config.addressSpace
  by_cases h : d.len = 0#32 <;> simp [h]

theorem badLen_eq_false_iff (d : Desc) (n : Nat) : badLen d n = false ↔ d.len.toNat = n := by simp [badLen]

theorem len_sixteen_iff (d : Desc) : d.len.toNat = 16 ↔ d.len = 16#32 := by
  rw [← BitVec.toNat_inj]
  rfl

theorem len_twelve_iff (d : Desc) : d.len.toNat = 12 ↔ d.len = 12#32 := by
  rw [← BitVec.toNat_inj]
  rfl

theorem len_pos_of_inBuffer {d : Desc} {a : Nat} (h : InBuffer d a) : 0 < d.len.toNat := by
  unfold InBuffer at h
  omega

/-- R31: `intersect` is sharing an address. -/
theorem intersect_iff (x y : Desc) : intersect x y = true ↔ ∃ a, InBuffer x a ∧ InBuffer y a := by
  have hz : ∀ d : Desc, d.len ≠ 0 ↔ 0 < d.len.toNat := by
    intro d
    rw [Nat.pos_iff_ne_zero, ne_eq, ne_eq, ← BitVec.toNat_inj]
    rfl
  unfold intersect
  simp only [Bool.and_eq_true, bne_iff_ne, decide_eq_true_eq]
  constructor
  · rintro ⟨⟨⟨hx, hy⟩, h1⟩, h2⟩
    rw [hz] at hx hy
    refine ⟨max x.addr.toNat y.addr.toNat, ?_, ?_⟩ <;> unfold InBuffer <;> omega
  · rintro ⟨a, hx, hy⟩
    unfold InBuffer at hx hy
    exact ⟨⟨⟨(hz x).2 (by omega), (hz y).2 (by omega)⟩, by omega⟩, by omega⟩

theorem badOverlap_eq_false_iff (x y : Desc) : badOverlap x y = false ↔ Apart x y := by
  have h := intersect_iff x y
  unfold badOverlap Apart DisjointBuffers
  cases hi : intersect x y with
  | false =>
    simp only [Bool.false_and, true_iff]
    refine .inr fun a ha => ?_
    simp [h.2 ⟨a, ha⟩] at hi
  | true =>
    obtain ⟨a, ha⟩ := h.1 hi
    simp only [Bool.true_and, bne_eq_false_iff_eq]
    exact ⟨.inl, fun hor => hor.resolve_right fun hd => hd a ha⟩

theorem counterWraps_eq_false_iff (n : Word) (iv : Desc) (s : State) :
    counterWraps n (readBlock s.mem iv.addr.toNat) = false ↔ CountersFit n iv s := by
  have hz : n = 0 ↔ n.toNat = 0 := by rw [← BitVec.toNat_inj]; rfl
  unfold counterWraps CountersFit bufBlock
  rw [hz, Bool.and_eq_false_iff]
  simp only [decide_eq_false_iff_not, Nat.mul_zero, Nat.add_zero]
  omega

/-! ### The check lists pass exactly when the command is ready -/

theorem blockChecks_pass_iff (src dst : Desc) (s : State) :
    firstFailure (blockChecks src dst s) = none ↔ Ready (.encblk src dst) s := by
  simp [firstFailure_none_iff, blockChecks, keyChecks, Ready, AddressesPass, LengthsPass, KeyStateOk, LengthsOk,
    GcmLengthsOk, RangesOk, usedBuffers, OverlapOk, CounterOk, configured_iff, badLen_eq_false_iff, len_sixteen_iff,
    outOfRange_eq_false_iff, badOverlap_eq_false_iff, and_assoc]

theorem ecbChecks_pass_iff (n : Word) (src dst : Desc) (s : State) :
    firstFailure (ecbChecks n src dst s) = none ↔ Ready (.ecbEnc n src dst) s := by
  simp [firstFailure_none_iff, ecbChecks, keyChecks, Ready, AddressesPass, LengthsPass, KeyStateOk, LengthsOk, TextLens,
    GcmLengthsOk, RangesOk, usedBuffers, OverlapOk, CounterOk, configured_iff, badLen_eq_false_iff,
    outOfRange_eq_false_iff, badOverlap_eq_false_iff, and_assoc]

theorem chainChecks_pass_iff (n : Word) (src dst iv : Desc) (s : State) :
    firstFailure (chainChecks n src dst iv s) = none ↔ Ready (.cbcEnc n src dst iv) s := by
  simp [firstFailure_none_iff, chainChecks, keyChecks, Ready, AddressesPass, LengthsPass, KeyStateOk, LengthsOk, TextLens,
    GcmLengthsOk, RangesOk, usedBuffers, OverlapOk, CounterOk, configured_iff, len_sixteen_iff, badLen_eq_false_iff,
    outOfRange_eq_false_iff, badOverlap_eq_false_iff, and_assoc]

theorem ctrChecks_pass_iff (n : Word) (src dst iv : Desc) (s : State) :
    firstFailure (ctrChecks n src dst iv s) = none ↔ Ready (.ctrEnc n src dst iv) s := by
  simp [firstFailure_none_iff, ctrChecks, chainChecks, keyChecks, Ready, AddressesPass, LengthsPass, KeyStateOk, LengthsOk,
    TextLens, GcmLengthsOk, RangesOk, usedBuffers, OverlapOk, CounterOk, configured_iff, len_sixteen_iff,
    badLen_eq_false_iff, outOfRange_eq_false_iff, badOverlap_eq_false_iff, counterWraps_eq_false_iff, and_assoc]

theorem gcmChecks_pass_iff (src dst iv aad tag : Desc) (s : State) :
    firstFailure (gcmChecks src dst iv aad tag s) = none ↔ Ready (.gcmEnc src dst iv aad tag) s := by
  have hl : dst.len.toNat = src.len.toNat ↔ dst.len = src.len := BitVec.toNat_inj
  simp [firstFailure_none_iff, gcmChecks, keyChecks, Ready, AddressesPass, LengthsPass, KeyStateOk, LengthsOk, GcmLengthsOk,
    RangesOk, usedBuffers, OverlapOk, CounterOk, configured_iff, len_sixteen_iff, len_twelve_iff,
    badLen_eq_false_iff, hl, tooLong, Config.gcmMaxBytes, outOfRange_eq_false_iff, badOverlap_eq_false_iff, and_assoc]

theorem initkeysChecks_pass_iff (src : Desc) (s : State) :
    firstFailure (initkeysChecks src s) = none ↔ Ready (.initkeys src) s := by
  simp only [firstFailure_none_iff, initkeysChecks, List.forall_mem_cons, List.not_mem_nil, false_implies, implies_true,
    and_true, Bool.not_eq_false', configured_iff, badLen_eq_false_iff, outOfRange_eq_false_iff, Ready, AddressesPass,
    LengthsPass, KeyStateOk, LengthsOk, GcmLengthsOk, RangesOk, usedBuffers, OverlapOk, CounterOk]
  by_cases h : s.ksize = 0#2
  · simp [h]
  · simp [h, keybytesOf, nkOf, and_assoc]

end Sys2Proof.Laws
end

