-- ==== Sys2Proof/Laws/Memory.lean ====
section
/-! SUPPORT. The buffer memory: reading after writing, and that every memory operation keeps the canonical
form. -/

namespace Sys2Proof.Laws

open Sys2Proof Sys2Proof.Machine

/-! ### Canonical form -/

@[simp] theorem wfFrom_nil (lo : Nat) : Memory.wfFrom lo [] = true := rfl

theorem wfFrom_cons {lo a : Nat} {b : Byte} {m : Memory} :
    Memory.wfFrom lo ((a, b) :: m) = true ↔
      lo ≤ a ∧ a < Config.addressSpace ∧ b ≠ Config.unlistedByte ∧ Memory.wfFrom (a + 1) m = true := by
  simp [Memory.wfFrom, and_assoc]

theorem wfFrom_mono {lo lo' : Nat} {m : Memory} (h : Memory.wfFrom lo m = true) (hle : lo' ≤ lo) :
    Memory.wfFrom lo' m = true := by
  cases m with
  | nil => rfl
  | cons c m =>
    obtain ⟨a, b⟩ := c
    rw [wfFrom_cons] at h ⊢
    exact ⟨by omega, h.2⟩

theorem putCell_wfFrom {lo a : Nat} {b : Byte} {m : Memory} (h : Memory.wfFrom lo m = true) (hlo : lo ≤ a)
    (ha : a < Config.addressSpace) : Memory.wfFrom lo (putCell m a b) = true := by
  induction m generalizing lo with
  | nil =>
    unfold putCell
    split
    · rfl
    · exact wfFrom_cons.2 ⟨hlo, ha, ‹_›, rfl⟩
  | cons c m ih =>
    obtain ⟨x, y⟩ := c
    have hc := wfFrom_cons.1 h
    unfold putCell
    split
    · split
      · exact h
      · exact wfFrom_cons.2 ⟨hlo, ha, ‹_›, wfFrom_cons.2 ⟨by omega, hc.2⟩⟩
    · split
      · subst x
        split
        · exact wfFrom_mono hc.2.2.2 (by omega)
        · exact wfFrom_cons.2 ⟨hlo, ha, ‹_›, hc.2.2.2⟩
      · exact wfFrom_cons.2 ⟨hc.1, hc.2.1, hc.2.2.1, ih hc.2.2.2 (by omega)⟩

theorem writeByte_wf {m : Memory} (a : Nat) (b : Byte) (h : Memory.wf m = true) : Memory.wf (writeByte m a b) = true := by
  unfold writeByte
  split
  · exact putCell_wfFrom h (Nat.zero_le a) ‹_›
  · exact h

theorem memWrite_wf {m : Memory} (a : Nat) (v : List Byte) (h : Memory.wf m = true) : Memory.wf (memWrite m a v) = true := by
  induction v generalizing m a with
  | nil => exact h
  | cons b v ih => exact ih (a + 1) (writeByte_wf a b h)

theorem writeBlock_wf {m : Memory} (a : Nat) (b : Block) (h : Memory.wf m = true) : Memory.wf (writeBlock m a b) = true :=
  memWrite_wf a _ h

theorem reset_mem_wf : Memory.wf State.reset.mem = true := rfl

/-! ### Bytes -/

theorem readByte_of_wfFrom {lo a : Nat} {m : Memory} (h : Memory.wfFrom lo m = true) (ha : a < lo) :
    readByte m a = Config.unlistedByte := by
  induction m generalizing lo with
  | nil => rfl
  | cons c m ih =>
    obtain ⟨x, y⟩ := c
    have hc := wfFrom_cons.1 h
    unfold readByte
    rw [if_neg (by omega)]
    exact ih hc.2.2.2 (by omega)

theorem readByte_putCell_self {lo : Nat} {m : Memory} (a : Nat) (b : Byte) (h : Memory.wfFrom lo m = true) :
    readByte (putCell m a b) a = b := by
  induction m generalizing lo with
  | nil =>
    unfold putCell
    split
    · rw [‹b = _›]; rfl
    · simp [readByte]
  | cons c m ih =>
    obtain ⟨x, y⟩ := c
    have hc := wfFrom_cons.1 h
    unfold putCell
    split
    · split
      · rw [‹b = _›]
        exact readByte_of_wfFrom (wfFrom_cons.2 ⟨le_refl x, hc.2⟩) ‹_›
      · simp [readByte]
    · split
      · split
        · rw [‹b = _›]
          exact readByte_of_wfFrom hc.2.2.2 (by omega)
        · simp [readByte]
      · unfold readByte
        rw [if_neg (by omega)]
        exact ih hc.2.2.2

theorem readByte_putCell_other {m : Memory} {a a' : Nat} (b : Byte) (hne : a' ≠ a) :
    readByte (putCell m a b) a' = readByte m a' := by
  induction m with
  | nil =>
    unfold putCell
    split
    · rfl
    · simp [readByte, Ne.symm hne]
  | cons c m ih =>
    obtain ⟨x, y⟩ := c
    unfold putCell
    split
    · split
      · rfl
      · simp [readByte, Ne.symm hne]
    · split
      · subst x
        split <;> simp [readByte, Ne.symm hne]
      · simp only [readByte]
        split
        · rfl
        · exact ih

/-- R33: a byte written reads back. -/
theorem readByte_writeByte_self {m : Memory} {a : Nat} (b : Byte) (h : Memory.wf m = true) (ha : a < Config.addressSpace) :
    readByte (writeByte m a b) a = b := by
  rw [writeByte, if_pos ha]
  exact readByte_putCell_self a b h

/-- R33: no other byte changes. -/
theorem readByte_writeByte_other {m : Memory} {a a' : Nat} (b : Byte) (hne : a' ≠ a) :
    readByte (writeByte m a b) a' = readByte m a' := by
  unfold writeByte
  split
  · exact readByte_putCell_other b hne
  · rfl

/-! ### Runs of bytes -/

@[simp] theorem memRead_length (m : Memory) (a n : Nat) : (memRead m a n).length = n := by simp [memRead]

theorem getD_memRead (m : Memory) (a : Nat) {n k : Nat} (hk : k < n) : (memRead m a n).getD k 0 = readByte m (a + k) := by
  simp [memRead, List.getD_eq_getElem?_getD, hk]

theorem memRead_congr {m m' : Memory} {a a' n : Nat} (h : ∀ k, k < n → readByte m (a + k) = readByte m' (a' + k)) :
    memRead m a n = memRead m' a' n := by
  apply List.map_congr_left
  intro k hk
  exact h k (List.mem_range.1 hk)

theorem readByte_memWrite_outside {m : Memory} {a : Nat} {v : List Byte} {x : Nat} (h : x < a ∨ a + v.length ≤ x) :
    readByte (memWrite m a v) x = readByte m x := by
  induction v generalizing m a with
  | nil => rfl
  | cons b v ih =>
    simp only [List.length_cons] at h
    rw [memWrite, ih (by omega), readByte_writeByte_other b (by omega)]

theorem readByte_memWrite_inside {m : Memory} {a : Nat} {v : List Byte} {k : Nat} (h : Memory.wf m = true)
    (hv : a + v.length ≤ Config.addressSpace) (hk : k < v.length) : readByte (memWrite m a v) (a + k) = v.getD k 0 := by
  induction v generalizing m a k with
  | nil => simp at hk
  | cons b v ih =>
    simp only [List.length_cons] at hv hk
    cases k with
    | zero =>
      rw [memWrite, readByte_memWrite_outside (by omega)]
      simpa using readByte_writeByte_self b h (by omega)
    | succ k =>
      have := ih (k := k) (writeByte_wf a b h) (by omega : a + 1 + v.length ≤ _) (by omega)
      rw [memWrite, show a + (k + 1) = a + 1 + k by omega, this]
      simp

theorem memRead_memWrite {m : Memory} {a : Nat} {v : List Byte} (h : Memory.wf m = true)
    (hv : a + v.length ≤ Config.addressSpace) : memRead (memWrite m a v) a v.length = v := by
  apply List.ext_getElem (by simp)
  intro k h1 h2
  have e := readByte_memWrite_inside h hv h2
  rw [← getD_memRead _ a h2] at e
  simpa [List.getD_eq_getElem?_getD, h2] using e

/-! ### Blocks -/

theorem byteAt_readBlock (m : Memory) (a : Nat) {k : Nat} (hk : k < 16) : byteAt (readBlock m a) k = readByte m (a + k) := by
  rw [readBlock, byteAt_blockOfBytes _ hk, getD_memRead _ _ hk]

theorem readBlock_congr {m m' : Memory} {a a' : Nat} (h : ∀ k, k < 16 → readByte m (a + k) = readByte m' (a' + k)) :
    readBlock m a = readBlock m' a' := by
  rw [readBlock, readBlock, memRead_congr h]

theorem readByte_writeBlock_outside {m : Memory} {a : Nat} {b : Block} {x : Nat} (h : x < a ∨ a + 16 ≤ x) :
    readByte (writeBlock m a b) x = readByte m x :=
  readByte_memWrite_outside (by simpa using h)

theorem readByte_writeBlock_inside {m : Memory} {a : Nat} {b : Block} {k : Nat} (h : Memory.wf m = true)
    (ha : a + 16 ≤ Config.addressSpace) (hk : k < 16) : readByte (writeBlock m a b) (a + k) = byteAt b k := by
  rw [writeBlock, readByte_memWrite_inside h (by simpa using ha) (by simpa using hk), getD_bytesOf _ hk]

theorem readBlock_writeBlock_self {m : Memory} {a : Nat} {b : Block} (h : Memory.wf m = true)
    (ha : a + 16 ≤ Config.addressSpace) : readBlock (writeBlock m a b) a = b :=
  block_ext fun k hk => by rw [byteAt_readBlock _ _ hk, readByte_writeBlock_inside h ha hk]

theorem readBlock_writeBlock_apart {m : Memory} {a a' : Nat} {b : Block} (h : a' + 16 ≤ a ∨ a + 16 ≤ a') :
    readBlock (writeBlock m a b) a' = readBlock m a' :=
  readBlock_congr fun k hk => readByte_writeBlock_outside (by omega)

theorem bytesOf_readBlock (m : Memory) (a : Nat) : bytesOf (readBlock m a) = memRead m a 16 :=
  bytesOf_blockOfBytes (by simp)

end Sys2Proof.Laws
end

