-- ==== Sys2Proof/Laws/Loops.lean ====
section
/-! SUPPORT. What a loop over blocks, or over 16-byte pieces, leaves in memory when each iteration writes one
block of DST computed from the block of SRC: said once for all modes and for GCM. -/

namespace Sys2Proof.Laws

open Sys2Proof Sys2Proof.Machine

/-- An address of SRC from offset `lo` on is not among the first `lo` bytes of DST. -/
theorem src_not_yet_written {src dst : Desc} {lo k : Nat} (hap : Apart src dst) (hlo : lo ≤ k)
    (hk : k < src.len.toNat) (hdst : lo ≤ dst.len.toNat) :
    src.addr.toNat + k < dst.addr.toNat ∨ dst.addr.toNat + lo ≤ src.addr.toNat + k := by
  rcases hap with h | h
  · rw [h]
    omega
  · have := h (src.addr.toNat + k)
    unfold InBuffer at this
    omega

/-- R140: the loop over whole blocks.  `O i` is what block `i` of DST is to hold, `P i` what is known of the
registers before iteration `i`. -/
theorem forBlocks_text {m : Memory} {src dst : Desc} {n : Nat} {body : Nat → Work → Work} {wk : Work}
    (O : Nat → Block) (P : Nat → Work → Prop)
    (hwf : Memory.wf m = true) (hmem : wk.mem = m)
    (hsrc : src.len.toNat = 16 * n) (hdst : dst.len.toNat = 16 * n)
    (hrange : InRange dst) (hap : Apart src dst) (h0 : P 0 wk)
    (hstep : ∀ i w, i < n → P i w → readBlock w.mem (blockAddr src i) = readBlock m (blockAddr src i) →
      (body i { w with idx := BitVec.ofNat 28 i }).mem = writeBlock w.mem (blockAddr dst i) (O i) ∧
      P (i + 1) (body i { w with idx := BitVec.ofNat 28 i })) :
    Memory.wf (forBlocks n body wk).mem = true ∧ P n (forBlocks n body wk) ∧
    (∀ i, i < n → readBlock (forBlocks n body wk).mem (blockAddr dst i) = O i) ∧
    ∀ a, ¬ InBuffer dst a → readByte (forBlocks n body wk).mem a = readByte m a := by
  have hr : ∀ i, i < n → blockAddr dst i + 16 ≤ Config.addressSpace := by
    intro i hi
    rcases hrange with h | h
    · rw [h] at hdst
      simp at hdst
      omega
    · unfold blockAddr Config.addressSpace
      omega
  have key := forBlocks_induct (n := n) (body := body) (wk := wk)
    (fun i w => Memory.wf w.mem = true ∧ P i w ∧ (∀ j, j < i → readBlock w.mem (blockAddr dst j) = O j) ∧
      ∀ a, (a < dst.addr.toNat ∨ dst.addr.toNat + 16 * i ≤ a) → readByte w.mem a = readByte m a)
    ⟨by rw [hmem]; exact hwf, h0, by intro j hj; omega, by intro a _; rw [hmem]⟩ ?_
  · obtain ⟨h1, h2, h3, h4⟩ := key
    refine ⟨h1, h2, h3, fun a ha => h4 a ?_⟩
    unfold InBuffer at ha
    omega
  · rintro i w hi ⟨hw, hP, hO, hout⟩
    have hsame : readBlock w.mem (blockAddr src i) = readBlock m (blockAddr src i) := by
      refine readBlock_congr fun k hk => ?_
      have := src_not_yet_written (lo := 16 * i) (k := 16 * i + k) hap (by omega) (by omega) (by omega)
      exact hout _ (by unfold blockAddr; omega)
    obtain ⟨hm, hP'⟩ := hstep i w hi hP hsame
    refine ⟨by rw [hm]; exact writeBlock_wf _ _ hw, hP', ?_, ?_⟩
    · intro j hj
      rw [hm]
      by_cases hij : j = i
      · subst hij
        exact readBlock_writeBlock_self hw (hr j hi)
      · rw [readBlock_writeBlock_apart (by unfold blockAddr; omega)]
        exact hO j (by omega)
    · intro a ha
      rw [hm, readByte_writeBlock_outside (by unfold blockAddr; omega)]
      exact hout a (by omega)

/-! ### Pieces -/

theorem pieceOf_length (bs : List Byte) (i : Nat) : (pieceOf bs i).length = pieceLen bs.length i := by
  simp [pieceOf, pieceLen]

theorem pieceOf_getD (bs : List Byte) (i : Nat) {k : Nat} (hk : k < 16) : (pieceOf bs i).getD k 0 = bs.getD (16 * i + k) 0 := by
  simp [pieceOf, List.getD_eq_getElem?_getD, hk]

/-- A piece read from memory is the piece of the whole buffer's bytes. -/
theorem readPiece_eq_pieceOf (m : Memory) (d : Desc) (i : Nat) :
    readPiece m d i = pieceOf (memRead m d.addr.toNat d.len.toNat) i := by
  apply List.ext_getElem?
  intro k
  by_cases hk : k < pieceLen d.len.toNat i
  · have hk' := hk
    unfold pieceLen at hk'
    have e1 := getD_memRead m (blockAddr d i) hk
    have e2 := pieceOf_getD (memRead m d.addr.toNat d.len.toNat) i (show k < 16 by omega)
    rw [getD_memRead _ _ (by omega)] at e2
    have l1 : k < (readPiece m d i).length := by simpa [readPiece] using hk
    have l2 : k < (pieceOf (memRead m d.addr.toNat d.len.toNat) i).length := by
      rw [pieceOf_length, memRead_length]
      exact hk
    rw [List.getElem?_eq_getElem l1, List.getElem?_eq_getElem l2]
    rw [List.getD_eq_getElem?_getD, List.getElem?_eq_getElem l2] at e2
    have e1' : (readPiece m d i)[k] = readByte m (blockAddr d i + k) := by
      rw [← e1]
      unfold readPiece at l1 ⊢
      rw [List.getD_eq_getElem?_getD, List.getElem?_eq_getElem l1]
      rfl
    rw [e1']
    simp only [Option.getD_some] at e2
    rw [e2]
    unfold blockAddr
    congr 2
    omega
  · rw [List.getElem?_eq_none (by simpa [readPiece] using Nat.le_of_not_lt hk),
      List.getElem?_eq_none (by rw [pieceOf_length, memRead_length]; omega)]

/-- R177, R183: the loop over the pieces of a text.  `out` is what DST is to hold. -/
theorem forBlocks_pieces {m : Memory} {src dst : Desc} {out : List Byte} {body : Nat → Work → Work} {wk : Work}
    (P : Nat → Work → Prop)
    (hwf : Memory.wf m = true) (hmem : wk.mem = m)
    (hlen : dst.len = src.len) (hout : out.length = src.len.toNat)
    (hrange : InRange dst) (hap : Apart src dst) (h0 : P 0 wk)
    (hstep : ∀ i w, i < blocksIn src.len.toNat → P i w → readPiece w.mem src i = readPiece m src i →
      (body i { w with idx := BitVec.ofNat 28 i }).mem = memWrite w.mem (blockAddr dst i) (pieceOf out i) ∧
      P (i + 1) (body i { w with idx := BitVec.ofNat 28 i })) :
    Memory.wf (forBlocks (blocksIn src.len.toNat) body wk).mem = true ∧
    P (blocksIn src.len.toNat) (forBlocks (blocksIn src.len.toNat) body wk) ∧
    memRead (forBlocks (blocksIn src.len.toNat) body wk).mem dst.addr.toNat src.len.toNat = out ∧
    ∀ a, ¬ InBuffer dst a → readByte (forBlocks (blocksIn src.len.toNat) body wk).mem a = readByte m a := by
  have hr : 0 < src.len.toNat → dst.addr.toNat + src.len.toNat ≤ Config.addressSpace := by
    intro hpos
    rw [← hlen]
    rcases hrange with h | h
    · rw [← hlen, h] at hpos
      simp at hpos
    · exact h
  have key := forBlocks_induct (n := blocksIn src.len.toNat) (body := body) (wk := wk)
    (fun i w => Memory.wf w.mem = true ∧ P i w ∧
      (∀ j, j < 16 * i → j < src.len.toNat → readByte w.mem (dst.addr.toNat + j) = out.getD j 0) ∧
      ∀ a, (a < dst.addr.toNat ∨ dst.addr.toNat + min (16 * i) src.len.toNat ≤ a) → readByte w.mem a = readByte m a)
    ⟨by rw [hmem]; exact hwf, h0, by intro j hj; omega, by intro a _; rw [hmem]⟩ ?_
  · obtain ⟨h1, h2, h3, h4⟩ := key
    refine ⟨h1, h2, ?_, fun a ha => h4 a ?_⟩
    · apply List.ext_getElem (by simp [hout])
      intro k hk1 hk2
      have hk : k < src.len.toNat := by simpa using hk1
      have e := h3 k (by unfold blocksIn; omega) hk
      rw [← getD_memRead _ _ hk] at e
      rw [List.getD_eq_getElem?_getD, List.getElem?_eq_getElem hk1, List.getD_eq_getElem?_getD,
        List.getElem?_eq_getElem hk2] at e
      exact e
    · unfold InBuffer at ha
      rw [hlen] at ha
      omega
  · rintro i w hi ⟨hw, hP, hO, ho⟩
    have hi' : 16 * i < src.len.toNat := by
      unfold blocksIn at hi
      omega
    have hsame : readPiece w.mem src i = readPiece m src i := by
      refine memRead_congr fun k hk => ?_
      unfold pieceLen at hk
      have := src_not_yet_written (lo := 16 * i) (k := 16 * i + k) hap (by omega) (by omega) (by rw [hlen]; omega)
      exact ho _ (by unfold blockAddr; omega)
    obtain ⟨hm, hP'⟩ := hstep i w hi hP hsame
    have hpl : (pieceOf out i).length = min 16 (src.len.toNat - 16 * i) := by
      rw [pieceOf_length, hout, pieceLen]
    have hfit : blockAddr dst i + (pieceOf out i).length ≤ Config.addressSpace := by
      have := hr (by omega)
      unfold blockAddr
      omega
    refine ⟨by rw [hm]; exact memWrite_wf _ _ hw, hP', ?_, ?_⟩
    · intro j hj hj'
      rw [hm]
      by_cases hij : j < 16 * i
      · rw [readByte_memWrite_outside (by unfold blockAddr; omega)]
        exact hO j hij hj'
      · have e := readByte_memWrite_inside (k := j - 16 * i) hw hfit (by omega)
        rw [pieceOf_getD _ _ (by omega), show blockAddr dst i + (j - 16 * i) = dst.addr.toNat + j by
          unfold blockAddr; omega, show 16 * i + (j - 16 * i) = j by omega] at e
        exact e
    · intro a ha
      rw [hm, readByte_memWrite_outside (by unfold blockAddr; omega)]
      exact ho a (by omega)

end Sys2Proof.Laws
end

