-- ==== Sys2Proof/Laws/Gcm.lean ====
section
/-! SUPPORT. What the phases of the GCM commands leave in the transient registers and in memory, in the terms
of the pure functions of R180 and R181. -/

namespace Sys2Proof.Laws

open Sys2Proof Sys2Proof.Machine

/-! ### Folding -/

/-- The first `n` pieces of a byte string folded into the accumulator. -/
def foldUpTo (h acc : Block) (bs : List Byte) (n : Nat) : Block :=
  (List.range n).foldl (fun acc i => foldWith h acc (blockOfBytes (pieceOf bs i))) acc

@[simp] theorem foldUpTo_zero (h acc : Block) (bs : List Byte) : foldUpTo h acc bs 0 = acc := rfl

theorem foldUpTo_succ (h acc : Block) (bs : List Byte) (n : Nat) :
    foldUpTo h acc bs (n + 1) = foldWith h (foldUpTo h acc bs n) (blockOfBytes (pieceOf bs n)) := by
  simp [foldUpTo, List.range_succ]

theorem foldUpTo_all (h acc : Block) (bs : List Byte) : foldUpTo h acc bs (blocksIn bs.length) = foldPieces h acc bs := rfl

/-- R176: the phase folds the buffer's bytes into ACC; IDX apart, no other register and no byte changes. -/
theorem authPhase_eq (d : Desc) (wk : Work) :
    authPhase d wk =
      { wk with acc := foldPieces wk.h wk.acc (memRead wk.mem d.addr.toNat d.len.toNat), idx := (authPhase d wk).idx } := by
  have key := forBlocks_induct (n := blocksIn d.len.toNat) (wk := wk)
    (body := fun i wk => foldAcc (blockOfBytes (readPiece wk.mem d i)) wk)
    (fun i w => w = { wk with acc := foldUpTo wk.h wk.acc (memRead wk.mem d.addr.toNat d.len.toNat) i, idx := w.idx })
    rfl ?_
  · rw [← foldUpTo_all, memRead_length]
    exact key
  · intro i w _ hw
    rw [hw]
    simp only [foldAcc, readPiece_eq_pieceOf, foldUpTo_succ]

@[simp] theorem authPhase_mem (d : Desc) (wk : Work) : (authPhase d wk).mem = wk.mem := by rw [authPhase_eq]
@[simp] theorem authPhase_h (d : Desc) (wk : Work) : (authPhase d wk).h = wk.h := by rw [authPhase_eq]
@[simp] theorem authPhase_ej0 (d : Desc) (wk : Work) : (authPhase d wk).ej0 = wk.ej0 := by rw [authPhase_eq]
@[simp] theorem authPhase_ctrb (d : Desc) (wk : Work) : (authPhase d wk).ctrb = wk.ctrb := by rw [authPhase_eq]
@[simp] theorem authPhase_tagin (d : Desc) (wk : Work) : (authPhase d wk).tagin = wk.tagin := by rw [authPhase_eq]
theorem authPhase_acc (d : Desc) (wk : Work) :
    (authPhase d wk).acc = foldPieces wk.h wk.acc (memRead wk.mem d.addr.toNat d.len.toNat) := by rw [authPhase_eq]

/-! ### The set-up (R171 to R173) -/

@[simp] theorem gcmSetup_mem (iv : Desc) (k : Schedule) (wk : Work) : (gcmSetup iv k wk).mem = wk.mem := rfl
@[simp] theorem gcmSetup_h (iv : Desc) (k : Schedule) (wk : Work) : (gcmSetup iv k wk).h = encryptBlock k 0 := rfl
@[simp] theorem gcmSetup_acc (iv : Desc) (k : Schedule) (wk : Work) : (gcmSetup iv k wk).acc = 0 := rfl
@[simp] theorem gcmSetup_tagin (iv : Desc) (k : Schedule) (wk : Work) : (gcmSetup iv k wk).tagin = wk.tagin := rfl
@[simp] theorem gcmSetup_ctrb (iv : Desc) (k : Schedule) (wk : Work) :
    (gcmSetup iv k wk).ctrb = initialCounter (memRead wk.mem iv.addr.toNat 12) := rfl
@[simp] theorem gcmSetup_ej0 (iv : Desc) (k : Schedule) (wk : Work) :
    (gcmSetup iv k wk).ej0 = encryptBlock k (initialCounter (memRead wk.mem iv.addr.toNat 12)) := rfl

/-! ### One piece of text -/

@[simp] theorem gcmCtr_length (k : Schedule) (nonce x : List Byte) : (gcmCtr k nonce x).length = x.length := by
  simp [gcmCtr]

theorem gcmCtr_getD (k : Schedule) (nonce x : List Byte) {j : Nat} (hj : j < x.length) :
    (gcmCtr k nonce x).getD j 0 = x.getD j 0 ^^^ byteAt (gcmKeystream k nonce (j / 16)) (j % 16) := by
  simp [gcmCtr, List.getD_eq_getElem?_getD, hj]

/-- R177, R181: a piece XORed with its keystream block is the piece of `GcmCtr`. -/
theorem pieceOf_gcmCtr (k : Schedule) (nonce x : List Byte) (i : Nat) :
    xorBytes (pieceOf x i) (bytesOf (gcmKeystream k nonce i)) = pieceOf (gcmCtr k nonce x) i := by
  apply List.ext_getElem
  · simp [xorBytes, pieceOf_length, pieceLen]
  · intro j h1 h2
    have hj : j < pieceLen x.length i := by
      rw [pieceOf_length, gcmCtr_length] at h2
      exact h2
    unfold pieceLen at hj
    simp only [xorBytes, List.getElem_zipWith, pieceOf, List.getElem_take, List.getElem_drop, gcmCtr, List.getElem_map,
      List.getElem_range, bytesOf]
    rw [show (16 * i + j) / 16 = i by omega, show (16 * i + j) % 16 = j by omega, List.getD_eq_getElem?_getD,
      List.getElem?_eq_getElem (by omega)]
    rfl

/-- R177: the counter after `i` increments. -/
theorem inc128_block128 (n i : Nat) : (inc128 (block128 (n + i))).1 = block128 (n + i + 1) := by
  simp [inc128, block128, BitVec.ofNat_add]

/-- R177, R182: the text loop of GCM.ENC, from registers as the set-up and the AAD leave them. -/
theorem gcmEnc_textLoop {k : Schedule} {m : Memory} {src dst : Desc} {nonce : List Byte} {wk : Work}
    (hwf : Memory.wf m = true) (hmem : wk.mem = m) (hlen : dst.len = src.len) (hrange : InRange dst) (hap : Apart src dst)
    (hctrb : wk.ctrb = initialCounter nonce) :
    ∃ out, out = gcmCtr k nonce (memRead m src.addr.toNat src.len.toNat) ∧
    Memory.wf (forBlocks (blocksIn src.len.toNat) (gcmEncStep k src dst) wk).mem = true ∧
    (forBlocks (blocksIn src.len.toNat) (gcmEncStep k src dst) wk).h = wk.h ∧
    (forBlocks (blocksIn src.len.toNat) (gcmEncStep k src dst) wk).ej0 = wk.ej0 ∧
    (forBlocks (blocksIn src.len.toNat) (gcmEncStep k src dst) wk).acc = foldPieces wk.h wk.acc out ∧
    memRead (forBlocks (blocksIn src.len.toNat) (gcmEncStep k src dst) wk).mem dst.addr.toNat src.len.toNat = out ∧
    ∀ a, ¬ InBuffer dst a →
      readByte (forBlocks (blocksIn src.len.toNat) (gcmEncStep k src dst) wk).mem a = readByte m a := by
  have hol : (gcmCtr k nonce (memRead m src.addr.toNat src.len.toNat)).length = src.len.toNat := by simp
  refine ⟨_, rfl, ?_⟩
  have key := forBlocks_pieces (m := m) (src := src) (dst := dst) (wk := wk) (body := gcmEncStep k src dst)
    (out := gcmCtr k nonce (memRead m src.addr.toNat src.len.toNat))
    (fun i w => w.h = wk.h ∧ w.ej0 = wk.ej0 ∧ w.ctrb = block128 (int128 (initialCounter nonce) + i) ∧
      w.acc = foldUpTo wk.h wk.acc (gcmCtr k nonce (memRead m src.addr.toNat src.len.toNat)) i)
    hwf hmem hlen hol hrange hap ⟨rfl, rfl, by rw [hctrb]; simp [block128, int128], rfl⟩ ?_
  · obtain ⟨h1, ⟨h2, h3, -, h5⟩, h6, h7⟩ := key
    refine ⟨h1, h2, h3, ?_, h6, h7⟩
    rw [h5, ← foldUpTo_all, hol]
  · rintro i w _ ⟨h1, h2, h3, h4⟩ hp
    have hout : xorBytes (readPiece w.mem src i) (bytesOf (encryptBlock k (inc128 w.ctrb).1)) =
        pieceOf (gcmCtr k nonce (memRead m src.addr.toNat src.len.toNat)) i := by
      rw [hp, readPiece_eq_pieceOf, h3, inc128_block128]
      exact pieceOf_gcmCtr k nonce _ i
    refine ⟨congrArg (memWrite w.mem (blockAddr dst i)) hout, h1, h2, ?_, ?_⟩
    · show (inc128 w.ctrb).1 = _
      rw [h3, inc128_block128, Nat.add_assoc]
    · rw [foldUpTo_succ, ← hout, ← h4, ← h1]
      rfl

/-- R183, pass 2: the text loop of GCM.DEC. -/
theorem gcmDec_textLoop {k : Schedule} {m : Memory} {src dst : Desc} {nonce : List Byte} {wk : Work}
    (hwf : Memory.wf m = true) (hmem : wk.mem = m) (hlen : dst.len = src.len) (hrange : InRange dst) (hap : Apart src dst)
    (hctrb : wk.ctrb = initialCounter nonce) :
    memRead (forBlocks (blocksIn src.len.toNat) (gcmDecStep k src dst) wk).mem dst.addr.toNat src.len.toNat =
      gcmCtr k nonce (memRead m src.addr.toNat src.len.toNat) ∧
    ∀ a, ¬ InBuffer dst a →
      readByte (forBlocks (blocksIn src.len.toNat) (gcmDecStep k src dst) wk).mem a = readByte m a := by
  have key := forBlocks_pieces (m := m) (src := src) (dst := dst) (wk := wk) (body := gcmDecStep k src dst)
    (out := gcmCtr k nonce (memRead m src.addr.toNat src.len.toNat))
    (fun i w => w.ctrb = block128 (int128 (initialCounter nonce) + i))
    hwf hmem hlen (by simp) hrange hap (by rw [hctrb]; simp [block128, int128]) ?_
  · exact key.2.2
  · intro i w _ h3 hp
    have hout : xorBytes (readPiece w.mem src i) (bytesOf (encryptBlock k (inc128 w.ctrb).1)) =
        pieceOf (gcmCtr k nonce (memRead m src.addr.toNat src.len.toNat)) i := by
      rw [hp, readPiece_eq_pieceOf, h3, inc128_block128]
      exact pieceOf_gcmCtr k nonce _ i
    refine ⟨congrArg (memWrite w.mem (blockAddr dst i)) hout, ?_⟩
    show (inc128 w.ctrb).1 = _
    rw [h3, inc128_block128, Nat.add_assoc]

/-- R183, pass 1: ACC XOR EJ0 is the tag of the text in SRC; TAGIN is the tag supplied; no byte is written. -/
theorem gcmAuthenticate_tag (src iv aad tag : Desc) (k : Schedule) (wk : Work) :
    tagOf (gcmAuthenticate src iv aad tag k wk) = gcmTag k (memRead wk.mem iv.addr.toNat 12)
      (memRead wk.mem aad.addr.toNat aad.len.toNat) (memRead wk.mem src.addr.toNat src.len.toNat) := by
  simp [tagOf, gcmAuthenticate, foldLengths, authPhase_acc, gcmTag]

@[simp] theorem gcmAuthenticate_tagin (src iv aad tag : Desc) (k : Schedule) (wk : Work) :
    (gcmAuthenticate src iv aad tag k wk).tagin = readBlock wk.mem tag.addr.toNat := by
  simp [gcmAuthenticate, foldLengths]

@[simp] theorem gcmAuthenticate_mem (src iv aad tag : Desc) (k : Schedule) (wk : Work) :
    (gcmAuthenticate src iv aad tag k wk).mem = wk.mem := by
  simp [gcmAuthenticate, foldLengths]

end Sys2Proof.Laws
end

