-- ==== Sys2Proof/Laws/Modes.lean ====
section
/-! SUPPORT. R154's functions on block lists: their lengths, and that a sequence of blocks that satisfies a
mode's equation is the function's value. -/

namespace Sys2Proof.Laws

open Sys2Proof Sys2Proof.Machine

/-! ### Lengths -/

@[simp] theorem bufBlocks_length (s : State) (d : Desc) (n : Nat) : (bufBlocks s d n).length = n := by simp [bufBlocks]

@[simp] theorem ecbEncBlocks_length (k : Schedule) (p : List Block) : (ecbEncBlocks k p).length = p.length := by
  simp [ecbEncBlocks]

@[simp] theorem ecbDecBlocks_length (k : Schedule) (c : List Block) : (ecbDecBlocks k c).length = c.length := by
  simp [ecbDecBlocks]

@[simp] theorem cbcEncBlocks_length (k : Schedule) (p : List Block) : ∀ iv, (cbcEncBlocks k iv p).length = p.length := by
  induction p with
  | nil => intro iv; rfl
  | cons a l ih => intro iv; simp [cbcEncBlocks, ih]

@[simp] theorem cbcDecBlocks_length (k : Schedule) (iv : Block) (c : List Block) :
    (cbcDecBlocks k iv c).length = c.length := by
  simp [cbcDecBlocks]

@[simp] theorem cfbEncBlocks_length (k : Schedule) (p : List Block) : ∀ iv, (cfbEncBlocks k iv p).length = p.length := by
  induction p with
  | nil => intro iv; rfl
  | cons a l ih => intro iv; simp [cfbEncBlocks, ih]

@[simp] theorem cfbDecBlocks_length (k : Schedule) (iv : Block) (c : List Block) :
    (cfbDecBlocks k iv c).length = c.length := by
  simp [cfbDecBlocks]

@[simp] theorem ofbBlocks_length (k : Schedule) (iv : Block) (x : List Block) : (ofbBlocks k iv x).length = x.length := by
  simp [ofbBlocks]

@[simp] theorem ctrBlocks_length (k : Schedule) (iv : Block) (x : List Block) : (ctrBlocks k iv x).length = x.length := by
  simp [ctrBlocks]

/-! ### The equations determine the list

`x` is the input text and `y` the output, block by block; `n` is the number of blocks. -/

/-- A list given block by block, with its first block apart. -/
theorem map_range_succ (x : Nat → Block) (n : Nat) :
    (List.range (n + 1)).map x = x 0 :: (List.range n).map fun i => x (i + 1) := by
  rw [List.range_succ_eq_map, List.map_cons, List.map_map]
  rfl

theorem map_range_congr {x y : Nat → Block} {n : Nat} (h : ∀ i, i < n → y i = x i) : (List.range n).map y = (List.range n).map x :=
  List.map_congr_left fun i hi => h i (List.mem_range.1 hi)

theorem ecbEncBlocks_of_equation {k : Schedule} {n : Nat} {x y : Nat → Block}
    (h : ∀ i, i < n → y i = encryptBlock k (x i)) : (List.range n).map y = ecbEncBlocks k ((List.range n).map x) := by
  rw [map_range_congr h, ecbEncBlocks, List.map_map]
  rfl

theorem ecbDecBlocks_of_equation {k : Schedule} {n : Nat} {x y : Nat → Block}
    (h : ∀ i, i < n → y i = decryptBlock k (x i)) : (List.range n).map y = ecbDecBlocks k ((List.range n).map x) := by
  rw [map_range_congr h, ecbDecBlocks, List.map_map]
  rfl

theorem cbcEncBlocks_of_equation {k : Schedule} {n : Nat} : ∀ {iv : Block} {x y : Nat → Block},
    (∀ i, i < n → y i = encryptBlock k (x i ^^^ (if i = 0 then iv else y (i - 1)))) →
    (List.range n).map y = cbcEncBlocks k iv ((List.range n).map x) := by
  induction n with
  | zero => intro iv x y _; rfl
  | succ n ih =>
    intro iv x y h
    have h0 : y 0 = encryptBlock k (x 0 ^^^ iv) := h 0 (by omega)
    rw [map_range_succ, map_range_succ, cbcEncBlocks, ← h0]
    refine congrArg (y 0 :: ·) (ih fun i hi => (h (i + 1) (by omega)).trans ?_)
    cases i <;> rfl

theorem cfbEncBlocks_of_equation {k : Schedule} {n : Nat} : ∀ {iv : Block} {x y : Nat → Block},
    (∀ i, i < n → y i = x i ^^^ encryptBlock k (if i = 0 then iv else y (i - 1))) →
    (List.range n).map y = cfbEncBlocks k iv ((List.range n).map x) := by
  induction n with
  | zero => intro iv x y _; rfl
  | succ n ih =>
    intro iv x y h
    have h0 : y 0 = x 0 ^^^ encryptBlock k iv := h 0 (by omega)
    rw [map_range_succ, map_range_succ, cfbEncBlocks, ← h0]
    refine congrArg (y 0 :: ·) (ih fun i hi => (h (i + 1) (by omega)).trans ?_)
    cases i <;> rfl

/-- The blocks of a text beside the ones before them, the IV first. -/
theorem zipWith_previous (f : Block → Block → Block) (iv : Block) (x : Nat → Block) (n : Nat) :
    List.zipWith f ((List.range n).map x) (iv :: (List.range n).map x) =
      (List.range n).map fun i => f (x i) (if i = 0 then iv else x (i - 1)) := by
  apply List.ext_getElem
  · simp
  · intro i h1 h2
    cases i <;> simp

theorem cbcDecBlocks_of_equation {k : Schedule} {n : Nat} {iv : Block} {x y : Nat → Block}
    (h : ∀ i, i < n → y i = decryptBlock k (x i) ^^^ (if i = 0 then iv else x (i - 1))) :
    (List.range n).map y = cbcDecBlocks k iv ((List.range n).map x) := by
  rw [map_range_congr h, cbcDecBlocks, zipWith_previous]

theorem cfbDecBlocks_of_equation {k : Schedule} {n : Nat} {iv : Block} {x y : Nat → Block}
    (h : ∀ i, i < n → y i = x i ^^^ encryptBlock k (if i = 0 then iv else x (i - 1))) :
    (List.range n).map y = cfbDecBlocks k iv ((List.range n).map x) := by
  rw [map_range_congr h, cfbDecBlocks, zipWith_previous]

/-- A text XORed with a keystream that is a function of the block number. -/
theorem mapIdx_keystream (o x : Nat → Block) (n : Nat) :
    ((List.range n).map x).mapIdx (fun i xi => xi ^^^ o i) = (List.range n).map fun i => x i ^^^ o i := by
  apply List.ext_getElem
  · simp
  · intro i h1 h2
    simp

theorem ofbKeystream_succ (k : Schedule) (iv : Block) (i : Nat) :
    ofbKeystream k iv (i + 1) = encryptBlock k (ofbKeystream k iv i) := rfl

/-- A keystream that satisfies OFB's equation is `ofbKeystream`. -/
theorem ofbKeystream_of_equation {k : Schedule} {iv : Block} {n : Nat} {o : Nat → Block}
    (h : ∀ i, i < n → o i = encryptBlock k (if i = 0 then iv else o (i - 1))) : ∀ i, i < n → o i = ofbKeystream k iv i := by
  intro i
  induction i with
  | zero => exact fun hi => h 0 hi
  | succ i ih =>
    intro hi
    rw [h _ hi, ofbKeystream_succ, ← ih (by omega)]
    rfl

theorem ofbBlocks_of_equation {k : Schedule} {n : Nat} {iv : Block} {x y : Nat → Block}
    (h : ∀ i, i < n → y i ^^^ x i = encryptBlock k (if i = 0 then iv else y (i - 1) ^^^ x (i - 1))) :
    (List.range n).map y = ofbBlocks k iv ((List.range n).map x) := by
  have ho := ofbKeystream_of_equation (o := fun i => y i ^^^ x i) h
  rw [ofbBlocks, mapIdx_keystream]
  refine map_range_congr fun i hi => ?_
  rw [← ho i hi, BitVec.xor_comm (y i), ← BitVec.xor_assoc, BitVec.xor_self, BitVec.zero_xor]

theorem ctrBlocks_of_equation {k : Schedule} {n : Nat} {iv : Block} {x y : Nat → Block}
    (h : ∀ i, i < n → y i = x i ^^^ encryptBlock k (block128 (int128 iv + i))) :
    (List.range n).map y = ctrBlocks k iv ((List.range n).map x) := by
  rw [map_range_congr h, ctrBlocks, mapIdx_keystream]
  rfl

end Sys2Proof.Laws
end

