-- ==== Sys2Proof/Laws/PerInstr.lean ====
section
/-! SUPPORT. The statements made for every command of the table: `EncodeRow` says which row of the opcode
table an encoded command falls in. -/

namespace Sys2Proof.Laws.EncodeRow

open Sys2Proof

/-- R49, R56: the row of an encoded command is the row of its mnemonic, whatever its operands. -/
def Statement (i : Instr) : Prop := (rowOf (encode i)).map OpcodeRow.mnemonic = some i.mnemonic

/-- A command word of CONFIG is CONFIG's row's, whatever KEYBITS is. -/
theorem config_word (kb : BitVec 16) : (kb ++ 0x0001#16) &&& 0x0000FFFF#32 = 0x00000001#32 := by
  apply BitVec.eq_of_getLsbD_eq
  intro j hj
  simp only [BitVec.getLsbD_and, BitVec.getLsbD_append]
  interval_cases j <;> simp

theorem config (kb : BitVec 16) : Statement (.config kb) := by
  have h : (encode (.config kb)).cmd &&& 0x0000FFFF#32 = 0x00000001#32 := config_word kb
  simp [Statement, rowOf, opcodeTable, OpcodeRow.matches, Instr.mnemonic, h]

/-- Which row a frame falls in depends on its command word alone. -/
theorem rowOf_eq {f : Frame} {w : Word} (h : f.cmd = w) : rowOf f = rowOf (bareFrame w) := by
  subst h
  rfl

theorem initkeys (src : Desc) : Statement (.initkeys src) := by
  rw [Statement, rowOf_eq (w := 0x02) rfl, Instr.mnemonic]
  decide
theorem encblk (src dst : Desc) : Statement (.encblk src dst) := by
  rw [Statement, rowOf_eq (w := 0x03) rfl, Instr.mnemonic]
  decide
theorem decblk (src dst : Desc) : Statement (.decblk src dst) := by
  rw [Statement, rowOf_eq (w := 0x04) rfl, Instr.mnemonic]
  decide
theorem ecbEnc (n : Word) (src dst : Desc) : Statement (.ecbEnc n src dst) := by
  rw [Statement, rowOf_eq (w := 0x10) rfl, Instr.mnemonic]
  decide
theorem ecbDec (n : Word) (src dst : Desc) : Statement (.ecbDec n src dst) := by
  rw [Statement, rowOf_eq (w := 0x11) rfl, Instr.mnemonic]
  decide
theorem cbcEnc (n : Word) (src dst iv : Desc) : Statement (.cbcEnc n src dst iv) := by
  rw [Statement, rowOf_eq (w := 0x12) rfl, Instr.mnemonic]
  decide
theorem cbcDec (n : Word) (src dst iv : Desc) : Statement (.cbcDec n src dst iv) := by
  rw [Statement, rowOf_eq (w := 0x13) rfl, Instr.mnemonic]
  decide
theorem cfbEnc (n : Word) (src dst iv : Desc) : Statement (.cfbEnc n src dst iv) := by
  rw [Statement, rowOf_eq (w := 0x14) rfl, Instr.mnemonic]
  decide
theorem cfbDec (n : Word) (src dst iv : Desc) : Statement (.cfbDec n src dst iv) := by
  rw [Statement, rowOf_eq (w := 0x15) rfl, Instr.mnemonic]
  decide
theorem ofbEnc (n : Word) (src dst iv : Desc) : Statement (.ofbEnc n src dst iv) := by
  rw [Statement, rowOf_eq (w := 0x16) rfl, Instr.mnemonic]
  decide
theorem ofbDec (n : Word) (src dst iv : Desc) : Statement (.ofbDec n src dst iv) := by
  rw [Statement, rowOf_eq (w := 0x17) rfl, Instr.mnemonic]
  decide
theorem ctrEnc (n : Word) (src dst iv : Desc) : Statement (.ctrEnc n src dst iv) := by
  rw [Statement, rowOf_eq (w := 0x18) rfl, Instr.mnemonic]
  decide
theorem ctrDec (n : Word) (src dst iv : Desc) : Statement (.ctrDec n src dst iv) := by
  rw [Statement, rowOf_eq (w := 0x19) rfl, Instr.mnemonic]
  decide
theorem gcmEnc (src dst iv aad tag : Desc) : Statement (.gcmEnc src dst iv aad tag) := by
  rw [Statement, rowOf_eq (w := 0x1A) rfl, Instr.mnemonic]
  decide
theorem gcmDec (src dst iv aad tag : Desc) : Statement (.gcmDec src dst iv aad tag) := by
  rw [Statement, rowOf_eq (w := 0x1B) rfl, Instr.mnemonic]
  decide

end Sys2Proof.Laws.EncodeRow
end

