-- ==== Sys2Proof/Tests/Slice0.lean ====
section
/-! SUPPORT. Tests against the spec's own vectors (95_test_vectors.md, 96_test_vectors_commands.md), the smoke
test of WellFormed, and for each obligation with hypotheses a concrete case that meets them. -/

namespace Sys2Proof.Tests

open Sys2Proof Sys2Proof.Machine Sys2Proof.Laws

/-! ## Helpers -/

/-- The `n` bytes of a hexadecimal number, first byte first. -/
def hexBytes (n v : Nat) : List Byte := (List.range n).map fun i => BitVec.ofNat 8 (v >>> (8 * (n - 1 - i)))

/-- What is asked of the next state, if there is one. -/
def answer {α : Type} (f : State → α) : Host.Outcome State Fault Refusal → Option α
  | .next t => some (f t)
  | _       => none

/-- The schedule of the KAT key `2b7e..4f3c`, written out in V30. -/
def katSchedule : Vector Word 60 :=
  #v[0x2b7e1516, 0x28aed2a6, 0xabf71588, 0x09cf4f3c, 0xa0fafe17, 0x88542cb1, 0x23a33939, 0x2a6c7605,
     0xf2c295f2, 0x7a96b943, 0x5935807a, 0x7359f67f, 0x3d80477d, 0x4716fe3e, 0x1e237e44, 0x6d7a883b,
     0xef44a541, 0xa8525b7f, 0xb671253b, 0xdb0bad00, 0xd4d1c6f8, 0x7c839d87, 0xcaf2b8bc, 0x11f915bc,
     0x6d88a37a, 0x110b3efd, 0xdbf98641, 0xca0093fd, 0x4e54f70e, 0x5f5fc9f3, 0x84a64fb2, 0x4ea6dc4f,
     0xead27321, 0xb58dbad2, 0x312bf560, 0x7f8d292f, 0xac7766f3, 0x19fadc21, 0x28d12941, 0x575c006e,
     0xd014f9a8, 0xc9ee2589, 0xe13f0cc8, 0xb6630ca6, 0, 0, 0, 0, 0, 0, 0, 0, 0, 0, 0, 0, 0, 0, 0, 0]

def katKey : List Byte := hexBytes 16 0x2b7e151628aed2a6abf7158809cf4f3c

/-- A state with the KAT key loaded. -/
def keyed (m : Memory) : State := { State.reset with ksize := 1, keyvalid := true, w := katSchedule, mem := m }

/-- A configured state without a key. -/
def keyless (k : BitVec 2) (m : Memory) : State := { State.reset with ksize := k, mem := m }

/-- P0, P1 of 96_test_vectors_commands.md at 0x2000, an IV at 0x4000. -/
def textMemory (iv : Nat) : Memory :=
  memWrite (memWrite [] 0x2000 (hexBytes 32 0x6bc1bee22e409f96e93d7e117393172aae2d8a571e03ac9c9eb76fac45af8e51)) 0x4000
    (hexBytes 16 iv)

/-- `C0 C1` at 0x2000 instead of the plaintext. -/
def cipherMemory (c iv : Nat) : Memory := memWrite (textMemory iv) 0x2000 (hexBytes 32 c)

def src1 : Desc := ⟨0x2000, 16⟩
def src2 : Desc := ⟨0x2000, 32⟩
def dst1 : Desc := ⟨0x3000, 16⟩
def dst2 : Desc := ⟨0x3000, 32⟩
def iv16 : Desc := ⟨0x4000, 16⟩
def iv12 : Desc := ⟨0x4000, 12⟩
def aad1 : Desc := ⟨0x5000, 1⟩
def tag16 : Desc := ⟨0x6000, 16⟩

/-! ## Encoding: words written out from R46, R49 and R56 -/

/-- P4 row 3. -/
theorem test_decode_config : decode ⟨0x00C00001, 0, zeroDesc, zeroDesc, zeroDesc, zeroDesc, zeroDesc⟩ = .command (.config 192) := by
  decide

/-- P1 row 2. -/
theorem test_decode_initkeys :
    decode ⟨0x00000002, 0, ⟨0x1000, 0x10⟩, zeroDesc, zeroDesc, zeroDesc, zeroDesc⟩ = .command (.initkeys ⟨0x1000, 16⟩) := by decide

/-- P1 rows 3 and 4; V85, with junk in the words ENCBLK does not use. -/
theorem test_decode_block :
    decode ⟨0x00000003, 0xDEADBEEF, ⟨0x2000, 0x10⟩, ⟨0x3000, 0x10⟩, ⟨0xFFFFFFFF, 0xFFFFFFFF⟩, ⟨0xFFFFFFFF, 0xFFFFFFFF⟩,
      ⟨0xFFFFFFFF, 0xFFFFFFFF⟩⟩ = .command (.encblk ⟨0x2000, 16⟩ ⟨0x3000, 16⟩) ∧
    decode ⟨0x00000004, 0, ⟨0x3000, 0x10⟩, ⟨0x3010, 0x10⟩, zeroDesc, zeroDesc, zeroDesc⟩ =
      .command (.decblk ⟨0x3000, 16⟩ ⟨0x3010, 16⟩) := by decide

/-- The opcodes 0x10 to 0x19 of R49, with NBLK 4 and the operands of V76's frame. -/
theorem test_decode_modes :
    ([0x10, 0x11, 0x12, 0x13, 0x14, 0x15, 0x16, 0x17, 0x18, 0x19].map fun opc : Word =>
      decode ⟨opc, 4, ⟨0x2000, 0x40⟩, ⟨0x3000, 0x40⟩, ⟨0x4000, 0x0C⟩, zeroDesc, zeroDesc⟩) =
    [ .command (.ecbEnc 4 ⟨0x2000, 64⟩ ⟨0x3000, 64⟩), .command (.ecbDec 4 ⟨0x2000, 64⟩ ⟨0x3000, 64⟩),
      .command (.cbcEnc 4 ⟨0x2000, 64⟩ ⟨0x3000, 64⟩ ⟨0x4000, 12⟩), .command (.cbcDec 4 ⟨0x2000, 64⟩ ⟨0x3000, 64⟩ ⟨0x4000, 12⟩),
      .command (.cfbEnc 4 ⟨0x2000, 64⟩ ⟨0x3000, 64⟩ ⟨0x4000, 12⟩), .command (.cfbDec 4 ⟨0x2000, 64⟩ ⟨0x3000, 64⟩ ⟨0x4000, 12⟩),
      .command (.ofbEnc 4 ⟨0x2000, 64⟩ ⟨0x3000, 64⟩ ⟨0x4000, 12⟩), .command (.ofbDec 4 ⟨0x2000, 64⟩ ⟨0x3000, 64⟩ ⟨0x4000, 12⟩),
      .command (.ctrEnc 4 ⟨0x2000, 64⟩ ⟨0x3000, 64⟩ ⟨0x4000, 12⟩), .command (.ctrDec 4 ⟨0x2000, 64⟩ ⟨0x3000, 64⟩ ⟨0x4000, 12⟩) ] := by
  decide

/-- P3 rows 3 and 5. -/
theorem test_decode_gcm :
    decode ⟨0x0000001A, 0, ⟨0x2000, 0x33⟩, ⟨0x3000, 0x33⟩, ⟨0x4000, 0x0C⟩, ⟨0x5000, 0x5A⟩, ⟨0x6000, 0x10⟩⟩ =
      .command (.gcmEnc ⟨0x2000, 51⟩ ⟨0x3000, 51⟩ ⟨0x4000, 12⟩ ⟨0x5000, 90⟩ ⟨0x6000, 16⟩) ∧
    decode ⟨0x0000001B, 0, ⟨0x3000, 0x33⟩, ⟨0x7000, 0x33⟩, ⟨0x4000, 0x0C⟩, ⟨0x5000, 0x5A⟩, ⟨0x6100, 0x10⟩⟩ =
      .command (.gcmDec ⟨0x3000, 51⟩ ⟨0x7000, 51⟩ ⟨0x4000, 12⟩ ⟨0x5000, 90⟩ ⟨0x6100, 16⟩) := by decide

/-- V70, V71: reserved opcodes at the ends of their ranges, RSV and KEYBITS. -/
theorem test_decode_illegal :
    ([0x00, 0x05, 0x0F, 0x1C, 0xFF].map fun opc => decode (bareFrame opc)) = List.replicate 5 (.illegal .reservedOpcode) ∧
    decode ⟨0x00000103, 0, ⟨0x2000, 16⟩, ⟨0x3000, 16⟩, zeroDesc, zeroDesc, zeroDesc⟩ = .illegal .reservedBits ∧
    decode (bareFrame 0x00800101) = .illegal .reservedBits ∧ decode (bareFrame 0x00800003) = .illegal .keybitsNotZero := by
  decide

/-- P5 row 3 as one number, F[11] to F[0]; and the table's word of CBC.ENC with no operand words. -/
theorem test_decode_table_word :
    decodeTableWord 384 0x0000000000000000000000000000000000000010000040000000002000003000000000200000200000000002_00000018 =
      some (.ctrEnc 2 ⟨0x2000, 32⟩ ⟨0x3000, 32⟩ ⟨0x4000, 16⟩) ∧
    decodeTableWord 32 0x12 = some (.cbcEnc 0 ⟨0, 0⟩ ⟨0, 0⟩ ⟨0, 0⟩) ∧ decodeTableWord 32 0x1C = none := by decide

/-! ## WellFormed: a term that each check refuses -/

/-- An illegal command word (R52): no row. -/
theorem test_wf_refuses_illegal : (bareFrame 0x00000005).wellFormed = false := by decide
theorem test_wf_refuses_nblk : { bareFrame 0x00000003 with nblk := 1 }.wellFormed = false := by decide
theorem test_wf_refuses_src : { bareFrame 0x00800001 with src := ⟨0, 1⟩ }.wellFormed = false := by decide
theorem test_wf_refuses_dst : { bareFrame 0x00000002 with dst := ⟨1, 0⟩ }.wellFormed = false := by decide
theorem test_wf_refuses_iv : { bareFrame 0x00000010 with iv := ⟨0x4000, 16⟩ }.wellFormed = false := by decide
theorem test_wf_refuses_aad : { bareFrame 0x00000012 with aad := ⟨0, 1⟩ }.wellFormed = false := by decide
theorem test_wf_refuses_tag : { bareFrame 0x00000018 with tag := ⟨1, 0⟩ }.wellFormed = false := by decide
theorem test_wf_accepts : (encode (.gcmDec ⟨1, 2⟩ ⟨3, 4⟩ ⟨5, 6⟩ ⟨7, 8⟩ ⟨9, 10⟩)).wellFormed = true := by decide

/-! ## Arithmetic units -/

/-- V13, V14, V15, V11. -/
theorem test_gf256 :
    multiply 0x57 0x13 = 0xfe ∧ multiply 0x80 0x02 = 0x1b ∧ multiply 0xff 0xff = 0x13 ∧ degree 0x11b = 9 ∧
    divide 0x11b 0x53 = some (5, 4) ∧ divide 0x5 0x11b = some (0, 5) ∧ divide 0x11b 0 = none ∧
    multiplicativeInverse 0x53 = 0xca ∧ multiplicativeInverse 0xff = 0x1c := by decide +kernel

/-- V12, V16. -/
theorem test_sbox :
    affine 0xca = 0xed ∧ affine 0xff = 0x9c ∧ sbox 0x53 = 0xed ∧ sbox 0x9a = 0xb8 ∧ sbox 0xff = 0x16 ∧
    invSbox 0x52 = 0x48 ∧ invSbox 0xff = 0x7d := by decide +kernel

/-- V20, V55. -/
theorem test_shift_and_increment :
    rightShiftWithCarry 0x0123456789abcdeffedcba9876543211 = (0x0091a2b3c4d5e6f7ff6e5d4c3b2a1908, true) ∧
    inc128 0xf0f1f2f3f4f5f6f7f8f9fafbfcfdfeff = (0xf0f1f2f3f4f5f6f7f8f9fafbfcfdff00, false) ∧
    inc128 0xffffffffffffffffffffffffffffffff = (0, true) := by decide +kernel

/-- V21, V23. -/
theorem test_ghash :
    ghashMultiply 0x66e94bd4ef8a2c3b884cfa59ca342b2e 0x0388dace60b6a392f328c2b971b2fe78 = 0x5e2ec746917062882c85b0685353deb7 ∧
    ghashMultiply 1 0x40000000000000000000000000000000 = 0xe1000000000000000000000000000000 := by decide +kernel

/-- V35. -/
theorem test_key_pieces :
    rcon 1 = 0x01000000 ∧ rcon 9 = 0x1b000000 ∧ rcon 10 = 0x36000000 ∧ rotWord 0x09cf4f3c = 0xcf4f3c09 ∧
    subWord 0x00102030 = 0x63cab704 := by decide +kernel

/-- V43. -/
theorem test_round_steps :
    subBytes 0x000102030405060708090a0b0c0d0e0f = 0x637c777bf26b6fc53001672bfed7ab76 ∧
    shiftRows 0x000102030405060708090a0b0c0d0e0f = 0x00050a0f04090e03080d02070c01060b ∧
    invShiftRows 0x000102030405060708090a0b0c0d0e0f = 0x000d0a0704010e0b0805020f0c090603 ∧
    mixColumns 0x000102030405060708090a0b0c0d0e0f = 0x02070005060304010a0f080d0e0b0c09 ∧
    invMixColumns 0x000102030405060708090a0b0c0d0e0f = 0x0a0f080d0e0b0c090207000506030401 ∧
    addRoundKey katSchedule 0 0x000102030405060708090a0b0c0d0e0f = 0x2b7f17152cabd4a1a3fe1f8305c24133 := by decide +kernel

/-! ## Commands -/

/-- V83, V72. -/
theorem test_config : answer status (exec (.config 192) State.reset) = some 0x09 ∧
    answer (fun t => (status t, t.w)) (exec (.config 129) (keyed [])) = some (0x17, katSchedule) := by decide +kernel

/-- V84: the same size clears the key. -/
theorem test_config_clears : answer (fun t => (status t, t.w)) (exec (.config 128) (keyed [])) =
    some (0x05, Vector.replicate 60 0) := by decide +kernel

/-- P1 step 2, V30. -/
theorem test_initkeys_128 :
    answer (fun t => (status t, t.w)) (exec (.initkeys ⟨0x1000, 16⟩) (keyless 1 (memWrite [] 0x1000 katKey))) =
      some (0x07, katSchedule) := by decide +kernel

/-- V32: the 256-bit schedule's last words. -/
theorem test_initkeys_256 :
    answer (fun t => (status t, (List.range 4).map fun i => wAt t.w (56 + i))) (exec (.initkeys ⟨0x1000, 32⟩) (keyless 3
      (memWrite [] 0x1000 (hexBytes 32 0x603deb1015ca71be2b73aef0857d77811f352c073b6108d72d9810a30914dff4)))) =
      some (0x0F, [0xfe4890d1, 0xe6188d0b, 0x046df344, 0x706c631e]) := by decide +kernel

/-- V1, P1 step 3. -/
theorem test_encblk : answer (fun t => (memRead t.mem 0x3000 16, status t)) (exec (.encblk src1 dst1) (keyed (textMemory 0))) =
    some (hexBytes 16 0x3ad77bb40d7a3660a89ecaf32466ef97, 0x07) := by decide +kernel

/-- V45, at the top of memory (V78: a buffer that ends at `2^32` is accepted). -/
theorem test_decblk :
    answer (fun t => (memRead t.mem 0xFFFFFFF0 16, status t)) (exec (.decblk ⟨0xFFFFFFF0, 16⟩ ⟨0xFFFFFFF0, 16⟩)
      (keyed (memWrite [] 0xFFFFFFF0 (hexBytes 16 0x3ad77bb40d7a3660a89ecaf32466ef97)))) =
    some (hexBytes 16 0x6bc1bee22e409f96e93d7e117393172a, 0x07) := by decide +kernel

/-- V50, the second block: the index moves both addresses. -/
theorem test_ecb_enc :
    answer (fun t => memRead t.mem 0x3010 16) (exec (.ecbEnc 2 src2 dst2) (keyed (textMemory 0))) =
    some (hexBytes 16 0xf5d3d58503b9699de785895a96fdbaaf) := by decide +kernel

theorem test_ecb_dec :
    answer (fun t => memRead t.mem 0x3000 16) (exec (.ecbDec 1 src1 dst1)
      (keyed (cipherMemory (0x3ad77bb40d7a3660a89ecaf32466ef97 <<< 128) 0))) =
    some (hexBytes 16 0x6bc1bee22e409f96e93d7e117393172a) := by decide +kernel

/-- V51. -/
theorem test_cbc_enc :
    answer (fun t => memRead t.mem 0x3000 32) (exec (.cbcEnc 2 src2 dst2 iv16) (keyed (textMemory 0x000102030405060708090a0b0c0d0e0f))) =
    some (hexBytes 32 0x7649abac8119b246cee98e9b12e9197d5086cb9b507219ee95db113a917678b2) := by decide +kernel

/-- V57: in place, where the chaining value is the copy of the input block. -/
theorem test_cbc_dec_in_place :
    answer (fun t => memRead t.mem 0x2000 32) (exec (.cbcDec 2 src2 src2 iv16)
      (keyed (cipherMemory 0x7649abac8119b246cee98e9b12e9197d5086cb9b507219ee95db113a917678b2 0x000102030405060708090a0b0c0d0e0f))) =
    some (hexBytes 32 0x6bc1bee22e409f96e93d7e117393172aae2d8a571e03ac9c9eb76fac45af8e51) := by decide +kernel

/-- V52. -/
theorem test_cfb_enc :
    answer (fun t => memRead t.mem 0x3000 32) (exec (.cfbEnc 2 src2 dst2 iv16) (keyed (textMemory 0x000102030405060708090a0b0c0d0e0f))) =
    some (hexBytes 32 0x3b3fd92eb72dad20333449f8e83cfb4ac8a64537a0b3a93fcde3cdad9f1ce58b) := by decide +kernel

theorem test_cfb_dec_in_place :
    answer (fun t => memRead t.mem 0x2000 32) (exec (.cfbDec 2 src2 src2 iv16)
      (keyed (cipherMemory 0x3b3fd92eb72dad20333449f8e83cfb4ac8a64537a0b3a93fcde3cdad9f1ce58b 0x000102030405060708090a0b0c0d0e0f))) =
    some (hexBytes 32 0x6bc1bee22e409f96e93d7e117393172aae2d8a571e03ac9c9eb76fac45af8e51) := by decide +kernel

/-- V53. -/
theorem test_ofb_enc :
    answer (fun t => memRead t.mem 0x3000 32) (exec (.ofbEnc 2 src2 dst2 iv16) (keyed (textMemory 0x000102030405060708090a0b0c0d0e0f))) =
    some (hexBytes 32 0x3b3fd92eb72dad20333449f8e83cfb4a7789508d16918f03f53c52dac54ed825) := by decide +kernel

theorem test_ofb_dec :
    answer (fun t => memRead t.mem 0x3000 16) (exec (.ofbDec 1 src1 dst1 iv16)
      (keyed (cipherMemory (0x3b3fd92eb72dad20333449f8e83cfb4a <<< 128) 0x000102030405060708090a0b0c0d0e0f))) =
    some (hexBytes 16 0x6bc1bee22e409f96e93d7e117393172a) := by decide +kernel

/-- V54: the second counter carries into byte 14. -/
theorem test_ctr_enc :
    answer (fun t => memRead t.mem 0x3000 32) (exec (.ctrEnc 2 src2 dst2 iv16) (keyed (textMemory 0xf0f1f2f3f4f5f6f7f8f9fafbfcfdfeff))) =
    some (hexBytes 32 0x874d6191b620e3261bef6864990db6ce9806f66b7970fdff8617187bb9fffdff) := by decide +kernel

/-- V51 to V54, K128: R154's functions on the list of two blocks. -/
theorem test_block_lists :
    let k : Schedule := ⟨katSchedule, 10⟩
    let p : List Block := [0x6bc1bee22e409f96e93d7e117393172a, 0xae2d8a571e03ac9c9eb76fac45af8e51]
    let iv : Block := 0x000102030405060708090a0b0c0d0e0f
    cbcEncBlocks k iv p = [0x7649abac8119b246cee98e9b12e9197d, 0x5086cb9b507219ee95db113a917678b2] ∧
    cfbDecBlocks k iv [0x3b3fd92eb72dad20333449f8e83cfb4a, 0xc8a64537a0b3a93fcde3cdad9f1ce58b] = p ∧
    ofbBlocks k iv p = [0x3b3fd92eb72dad20333449f8e83cfb4a, 0x7789508d16918f03f53c52dac54ed825] ∧
    ctrBlocks k 0xf0f1f2f3f4f5f6f7f8f9fafbfcfdfeff p =
      [0x874d6191b620e3261bef6864990db6ce, 0x9806f66b7970fdff8617187bb9fffdff] := by decide +kernel

/-- V80 through CTR.DEC, and V56: the last counter itself is usable. -/
theorem test_ctr_dec_wrap :
    answer status (exec (.ctrDec 2 src2 dst2 iv16) (keyed (textMemory (2 ^ 128 - 1)))) = some 0xB7 ∧
    answer (fun t => memRead t.mem 0x3000 16) (exec (.ctrDec 1 ⟨0x9000, 16⟩ dst1 iv16) (keyed (textMemory (2 ^ 128 - 1)))) =
      some (hexBytes 16 0x8af2860142f786f409307c1a3f7eaaac) := by decide +kernel

/-- The key, nonce and AAD byte of V63's last case: 17 bytes of text, 1 byte of AAD. -/
def gcmMemory (text : Nat) (tag : Nat) : Memory :=
  memWrite (memWrite (memWrite (memWrite [] 0x2000 (hexBytes 17 text)) 0x4000 (hexBytes 12 0xcafebabefacedbaddecaf888))
    0x5000 [0xfe]) 0x6000 (hexBytes 16 tag)

def gcmKeyed (m : Memory) : State :=
  loadKey (hexBytes 16 0xfeffe9928665731c6d6a8f9467308308) { State.reset with ksize := 1, mem := m }

/-- V63. -/
theorem test_gcm_enc :
    answer (fun t => (memRead t.mem 0x3000 18, memRead t.mem 0x6000 16, status t))
      (exec (.gcmEnc ⟨0x2000, 17⟩ ⟨0x3000, 17⟩ iv12 ⟨0x5000, 1⟩ tag16) (gcmKeyed (gcmMemory 0xd9313225f88406e5a55909c5aff5269a86 0))) =
    some (hexBytes 18 (0x42831ec2217774244b7221b784d0d49ce3 <<< 8), hexBytes 16 0x00cf240b2fb18012bdd721099a463db0, 0x07) := by
  decide +kernel

/-- V63 backwards, in place. -/
theorem test_gcm_dec :
    answer (fun t => (memRead t.mem 0x2000 17, status t)) (exec (.gcmDec ⟨0x2000, 17⟩ ⟨0x2000, 17⟩ iv12 ⟨0x5000, 1⟩ tag16)
      (gcmKeyed (gcmMemory 0x42831ec2217774244b7221b784d0d49ce3 0x00cf240b2fb18012bdd721099a463db0))) =
    some (hexBytes 17 0xd9313225f88406e5a55909c5aff5269a86, 0x07) := by decide +kernel

/-- V65's kind: one tag bit flipped, the output area zeroed. -/
theorem test_gcm_dec_mismatch :
    answer (fun t => (memRead t.mem 0x2000 17, status t)) (exec (.gcmDec ⟨0x2000, 17⟩ ⟨0x2000, 17⟩ iv12 ⟨0x5000, 1⟩ tag16)
      (gcmKeyed (gcmMemory 0x42831ec2217774244b7221b784d0d49ce3 0x00cf240b2fb18012bdd721099a463db1))) =
    some (hexBytes 17 0, 0x27) := by decide +kernel

/-- V82 and V70 to V79: the check that is reported, of several that fail. -/
theorem test_priority :
    answer status (exec (.encblk ⟨0xFFFFFFFF, 15⟩ dst1) State.reset) = some 0x50 ∧
    answer status (exec (.initkeys ⟨0x1000, 5⟩) (keyed [])) = some 0x77 ∧
    answer status (exec (.ecbEnc 1 src1 dst1) (keyless 3 [])) = some 0x6D ∧
    answer status (exec (.encblk ⟨0xFFFFFFFF, 15⟩ dst1) (keyed [])) = some 0x37 ∧
    answer status (exec (.ecbEnc 0x10000000 ⟨0x2000, 0⟩ ⟨0x3000, 0⟩) (keyed [])) = some 0x37 ∧
    answer status (exec (.gcmEnc src1 dst1 iv12 ⟨0xFFFFFFF0, 0x20000000⟩ tag16) (keyed [])) = some 0xA7 ∧
    answer status (exec (.ecbEnc 2 ⟨0xFFFFFFF0, 32⟩ ⟨0xFFFFFFE8, 32⟩) (keyed [])) = some 0x87 ∧
    answer status (exec (.ctrEnc 2 src2 ⟨0x2010, 32⟩ iv16) (keyed (textMemory (2 ^ 128 - 1)))) = some 0x97 ∧
    answer status (exec (.ecbEnc 0 ⟨0xFFFFFFFF, 0⟩ ⟨0xFFFFFFFF, 0⟩) (keyed [])) = some 0x07 ∧
    answer status (exec (.cbcEnc 0 ⟨0, 0⟩ ⟨0, 0⟩ ⟨0xFFFFFFF8, 16⟩) (keyed [])) = some 0x87 := by decide +kernel

/-- P4 row 11 through the step; then the port is empty and CORE idles. -/
theorem test_step_illegal :
    answer (fun t => (status t, t.inputs, t.responses)) (step { keyed [] with inputs := [.frame (bareFrame 0x1C)] }) =
    some (0x47, [], [.illegalCommand]) := by decide +kernel

/-! ## Witnesses: for each obligation with hypotheses, a case that meets all of them together -/

def oneFrame (s : State) (f : Frame) : State := { s with inputs := [.frame f] }

theorem witness_EncodeInvertsDecodeOnWellFormedFrames :
    ∃ f : Frame, f.wellFormed = true ∧ f.cmd = 0x18 := ⟨encode (.ctrEnc 2 src2 dst2 iv16), by decide⟩

/-- Each clause of R52, at the ends of its range, and the legal opcodes beside them. -/
theorem witness_IllegalFramesAreTheReservedOnes :
    ([0x00, 0x05, 0x0F, 0x1C, 0xFF, 0x0101, 0x00010002].map fun w : Word =>
      decide ((w.toNat % 256 = 0 ∨ (0x05 ≤ w.toNat % 256 ∧ w.toNat % 256 ≤ 0x0F) ∨ 0x1C ≤ w.toNat % 256) ∨
        w.toNat / 256 % 256 ≠ 0 ∨ (w.toNat % 256 ≠ 1 ∧ w.toNat / 65536 ≠ 0))) = List.replicate 7 true ∧
    ([0x00010001, 0x04, 0x10, 0x1B].map fun w : Word =>
      decide ((w.toNat % 256 = 0 ∨ (0x05 ≤ w.toNat % 256 ∧ w.toNat % 256 ≤ 0x0F) ∨ 0x1C ≤ w.toNat % 256) ∨
        w.toNat / 256 % 256 ≠ 0 ∨ (w.toNat % 256 ≠ 1 ∧ w.toNat / 65536 ≠ 0))) = List.replicate 4 false := by decide

theorem witness_DecoderAgreesWithOpcodeTable :
    (∃ f i, decode f = .command i) ∧ ∃ f why, decode f = .illegal why :=
  ⟨⟨bareFrame 0x02, _, rfl⟩, bareFrame 0x05, _, rfl⟩

theorem witness_UnusedWordsAreIgnored :
    ∃ (f g : Frame) (r : OpcodeRow), rowOf f = some r ∧ g.cmd = f.cmd ∧
      (r.uses.nblk = true → g.nblk = f.nblk) ∧ (r.uses.src = true → g.src = f.src) ∧ (r.uses.dst = true → g.dst = f.dst) ∧
      (r.uses.iv = true → g.iv = f.iv) ∧ (r.uses.aad = true → g.aad = f.aad) ∧ (r.uses.tag = true → g.tag = f.tag) ∧ g ≠ f :=
  ⟨encode (.encblk src1 dst1), { encode (.encblk src1 dst1) with nblk := 7, iv := iv16 },
    ⟨"ENCBLK", 0xFFFFFFFF, 3, usesBlock⟩, by decide⟩

theorem witness_StepRunsDecodedCommand :
    ∃ (s : State) (f : Frame) (rest : List HostEvent) (i : Instr), s.inputs = .frame f :: rest ∧ decode f = .command i :=
  ⟨oneFrame (keyed []) (encode (.encblk src1 dst1)), _, _, _, rfl, rfl⟩

/-- One frame for each of R52's three reasons. -/
theorem witness_IllegalFrameRaisesIllegalCommand :
    ∀ cmd ∈ [0x0000001C, 0x00000103, 0x00800003], ∃ (s : State) (f : Frame) (rest : List HostEvent),
      s.inputs = .frame f :: rest ∧ f.cmd = cmd ∧
      ((f.cmd.toNat % 256 = 0 ∨ (0x05 ≤ f.cmd.toNat % 256 ∧ f.cmd.toNat % 256 ≤ 0x0F) ∨ 0x1C ≤ f.cmd.toNat % 256) ∨
        f.cmd.toNat / 256 % 256 ≠ 0 ∨ (f.cmd.toNat % 256 ≠ 1 ∧ f.cmd.toNat / 65536 ≠ 0)) := by
  intro cmd h
  refine ⟨oneFrame (keyed []) (bareFrame cmd), bareFrame cmd, [], rfl, rfl, ?_⟩
  simp only [List.mem_cons, List.not_mem_nil, or_false] at h
  rcases h with rfl | rfl | rfl <;> decide

theorem witness_FetchWordIsRunNext : ∃ (nbits w : Nat) (i : Instr), decodeTableWord nbits w = some i :=
  ⟨32, 0x00800001, .config 128, by decide⟩

theorem witness_IdleKeepsEverything : ∃ s : State, s.inputs = [] := ⟨keyed [], rfl⟩

theorem witness_ResetEventResets : ∃ (s : State) (rest : List HostEvent), s.inputs = .reset :: rest :=
  ⟨{ keyed [] with inputs := [.reset, .reset] }, _, rfl⟩

/-- The lowest and the highest address. -/
theorem witness_HostStoreWritesOneByte :
    ∀ a ∈ [0x00000000, 0xFFFFFFFF], ∃ (s : State) (b : Byte) (rest : List HostEvent),
      Memory.wf s.mem = true ∧ s.inputs = .poke a b :: rest :=
  fun a _ => ⟨{ keyed [(0, 1)] with inputs := [.poke a 0] }, 0, [], rfl, rfl⟩

/-- A byte string that ends at the top of memory. -/
theorem witness_MemoryIsAMapOfBytes :
    ∃ (m m' : Memory) (a : Nat) (v v' : List Byte), Memory.wf m = true ∧ Memory.wf m' = true ∧ a + v.length ≤ 4294967296 ∧
      v'.length = v.length ∧ (∀ x, readByte m x = readByte m' x) :=
  ⟨[(5, 1)], [(5, 1)], 4294967294, [1, 0], [2, 3], by decide, by decide, by decide, by decide, fun _ => rfl⟩

theorem witness_MultiplyLaws : ∃ a b : Byte, multiply a b = 0 := ⟨0, 0x57, by decide⟩

theorem witness_DivideIsLongDivision : ∃ a b : Nat, a < 512 ∧ b < 512 ∧ b ≠ 0 := ⟨511, 1, by decide⟩

theorem witness_InverseContract : ∃ a v : Byte, a ≠ 0 ∧ multiply a v = 1 := ⟨0x53, 0xca, by decide⟩

theorem witness_SboxIsAffineOfInverse : ∃ x y : Byte, sbox x = sbox y := ⟨0x53, 0x53, rfl⟩

theorem witness_RightShiftBytewise : ∃ i j : Nat, (1 ≤ i ∧ i ≤ 15) ∧ 1 ≤ j ∧ j ≤ 15 ∧ i ≠ j := ⟨1, 15, by decide⟩

theorem witness_LengthBlockLayout : ∃ a t i : Nat, a ≤ 536870911 ∧ t ≤ 536870911 ∧ i < 4 := ⟨536870911, 536870911, 3, by decide⟩

/-- The three key sizes, with the last word taken from the key and the last word of the schedule. -/
theorem witness_KeyExpansionRecurrence :
    ∀ nk ∈ [4, 6, 8], (nk = 4 ∨ nk = 6 ∨ nk = 8) ∧ (∃ key : List Byte, key.length = 4 * nk) ∧
      nk - 1 < nk ∧ nk ≤ 4 * (nk + 6 + 1) - 1 ∧ 4 * (nk + 6 + 1) - 1 < 4 * (nk + 6 + 1) :=
  fun nk h => ⟨by simpa using h, ⟨List.replicate (4 * nk) 1, by simp⟩, by
    have : nk = 4 ∨ nk = 6 ∨ nk = 8 := by simpa using h
    omega⟩

theorem witness_KeyExpansionGroupByGroup : ∃ (nk : Nat) (key : List Byte), (nk = 4 ∨ nk = 6 ∨ nk = 8) ∧ key.length = 4 * nk :=
  ⟨6, List.replicate 24 1, by decide⟩

/-- R103 on the KAT key, as a check of the statement: both forms give V30's last word. -/
theorem test_groups : (keyExpansionByGroups katKey 4).getD 43 0 = 0xb6630ca6 ∧ (keyExpansion katKey 4).getD 43 0 = 0xb6630ca6 := by
  decide +kernel

theorem witness_ConfigSetsKeySizeOrRefuses :
    (∃ (kb : BitVec 16) (k : BitVec 2), (kb = 128 ∧ k = 1) ∨ (kb = 192 ∧ k = 2) ∨ (kb = 256 ∧ k = 3)) ∧
    ∃ kb : BitVec 16, kb ≠ 128 ∧ kb ≠ 192 ∧ kb ≠ 256 := ⟨⟨256, 3, by decide⟩, 129, by decide⟩

theorem witness_KeyWordPieces : ∃ g, 2 ≤ g ∧ g ≤ 10 := ⟨10, by decide⟩

theorem ready_initkeys {k : BitVec 2} {src : Desc} (h : firstFailure (initkeysChecks src (keyless k [])) = none) :
    Ready (.initkeys src) (keyless k []) := (initkeysChecks_pass_iff _ _).1 h

/-- All three key sizes. -/
theorem witness_InitkeysLoadsSchedule :
    Ready (.initkeys ⟨0x1000, 16⟩) (keyless 1 []) ∧ Ready (.initkeys ⟨0x1000, 24⟩) (keyless 2 []) ∧
      Ready (.initkeys ⟨0xFFFFFFE0, 32⟩) (keyless 3 []) :=
  ⟨ready_initkeys (by decide), ready_initkeys (by decide), ready_initkeys (by decide)⟩

theorem witness_AddRoundKeyOnColumns : ∃ c d : Nat, c < 4 ∧ d < 4 ∧ c ≠ d := ⟨0, 3, by decide⟩

/-- A state with any schedule loaded as a 128-bit key's, over any memory. -/
def base (w : Vector Word 60) (m : Memory) : State := { State.reset with ksize := 1, keyvalid := true, w := w, mem := m }

def textMem : Memory := textMemory 0x000102030405060708090a0b0c0d0e0f

def text : State := base katSchedule textMem

theorem textMemory_wf (iv : Nat) : Memory.wf (textMemory iv) = true := memWrite_wf _ _ (memWrite_wf _ _ rfl)

theorem text_wf : Memory.wf text.mem = true := textMemory_wf _

theorem block_passes (w : Vector Word 60) (m : Memory) : firstFailure (blockChecks src1 dst1 (base w m)) = none := rfl
theorem ecb_passes (w : Vector Word 60) (m : Memory) : firstFailure (ecbChecks 2 src2 dst2 (base w m)) = none := rfl
theorem ecb1_passes (w : Vector Word 60) (m : Memory) : firstFailure (ecbChecks 1 src1 dst1 (base w m)) = none := rfl
theorem chain_passes (w : Vector Word 60) (m : Memory) : firstFailure (chainChecks 2 src2 dst2 iv16 (base w m)) = none := rfl
theorem chain1_passes (w : Vector Word 60) (m : Memory) : firstFailure (chainChecks 1 src1 dst1 iv16 (base w m)) = none := rfl
theorem chain_passes_in_place (w : Vector Word 60) (m : Memory) :
    firstFailure (chainChecks 2 src2 src2 iv16 (base w m)) = none := rfl
theorem gcm_passes (w : Vector Word 60) (m : Memory) : firstFailure (gcmChecks src2 dst2 iv12 aad1 tag16 (base w m)) = none := rfl
theorem gcm_passes_in_place (w : Vector Word 60) (m : Memory) :
    firstFailure (gcmChecks src2 src2 iv12 aad1 tag16 (base w m)) = none := rfl

/-- In place at the top of memory, and into a second buffer. -/
theorem witness_EncblkEncryptsBlock :
    Memory.wf text.mem = true ∧ Ready (.encblk src1 dst1) text ∧ Ready (.encblk ⟨0xFFFFFFF0, 16⟩ ⟨0xFFFFFFF0, 16⟩) text :=
  ⟨text_wf, (blockChecks_pass_iff _ _ _).1 (block_passes _ _), (blockChecks_pass_iff _ _ _).1 rfl⟩

theorem witness_DecblkDecryptsBlock : Memory.wf text.mem = true ∧ Ready (.decblk src1 dst1) text :=
  ⟨text_wf, (blockChecks_pass_iff _ _ _).1 (block_passes _ _)⟩

/-- Two blocks; and no block at all, at the top of memory. -/
theorem witness_EcbEncEncryptsEachBlock :
    Memory.wf text.mem = true ∧ Ready (.ecbEnc 2 src2 dst2) text ∧ Ready (.ecbEnc 0 ⟨0xFFFFFFFF, 0⟩ ⟨0xFFFFFFFF, 0⟩) text :=
  ⟨text_wf, (ecbChecks_pass_iff _ _ _ _).1 (ecb_passes _ _), (ecbChecks_pass_iff _ _ _ _).1 rfl⟩

theorem witness_EcbDecDecryptsEachBlock : Memory.wf text.mem = true ∧ Ready (.ecbDec 2 src2 dst2) text :=
  ⟨text_wf, (ecbChecks_pass_iff _ _ _ _).1 (ecb_passes _ _)⟩

theorem witness_CbcEncChainsCiphertext : Memory.wf text.mem = true ∧ Ready (.cbcEnc 2 src2 dst2 iv16) text :=
  ⟨text_wf, (chainChecks_pass_iff _ _ _ _ _).1 (chain_passes _ _)⟩

theorem witness_CbcDecUnchainsCiphertext : Memory.wf text.mem = true ∧ Ready (.cbcDec 2 src2 src2 iv16) text :=
  ⟨text_wf, (chainChecks_pass_iff _ _ _ _ _).1 (chain_passes_in_place _ _)⟩

theorem witness_CfbEncFeedsBackCiphertext : Memory.wf text.mem = true ∧ Ready (.cfbEnc 2 src2 dst2 iv16) text :=
  ⟨text_wf, (chainChecks_pass_iff _ _ _ _ _).1 (chain_passes _ _)⟩

theorem witness_CfbDecFeedsBackCiphertext : Memory.wf text.mem = true ∧ Ready (.cfbDec 2 src2 src2 iv16) text :=
  ⟨text_wf, (chainChecks_pass_iff _ _ _ _ _).1 (chain_passes_in_place _ _)⟩

theorem witness_OfbAppliesKeystream :
    Memory.wf text.mem = true ∧ Ready (.ofbEnc 2 src2 dst2 iv16) text ∧ Ready (.ofbDec 2 src2 src2 iv16) text :=
  ⟨text_wf, (chainChecks_pass_iff _ _ _ _ _).1 (chain_passes _ _), (chainChecks_pass_iff _ _ _ _ _).1 (chain_passes_in_place _ _)⟩

theorem witness_CtrAppliesCounterKeystream :
    Memory.wf text.mem = true ∧ Ready (.ctrEnc 2 src2 dst2 iv16) text ∧ Ready (.ctrDec 2 src2 src2 iv16) text :=
  ⟨text_wf, (ctrChecks_pass_iff _ _ _ _ _).1 (by decide +kernel), (ctrChecks_pass_iff _ _ _ _ _).1 (by decide +kernel)⟩

theorem witness_Inc128AddsOne : ∀ j, j < 16 → 0xFF = byteAt (BitVec.allOnes 128) j := by decide

/-- The last two counters there are. -/
theorem witness_CtrKeystreamBlocksDiffer :
    ∃ i j : Nat, CountersFit 2 iv16 (base katSchedule (textMemory (2 ^ 128 - 2))) ∧ i < (2 : Word).toNat ∧ j < (2 : Word).toNat ∧ i ≠ j :=
  ⟨0, 1, .inr (by decide +kernel), by decide⟩

/-- The second decryption's buffer may be the first's, and apart from it. -/
theorem apart_of_tests {x y : Desc} (h : badOverlap x y = false) : Apart x y := (badOverlap_eq_false_iff x y).1 h

theorem witness_ModesRoundTrip_ecb :
    ∃ t, Memory.wf text.mem = true ∧ exec (.ecbEnc 1 src1 dst1) text = .next t ∧ t.last = 0 ∧
      InRange dst1 ∧ Apart dst1 dst1 ∧ Apart dst1 ⟨0x7000, 16⟩ :=
  ⟨_, text_wf, runCipher_runs (ecb1_passes katSchedule textMem) _ _, rfl, .inr (by decide), .inl rfl, apart_of_tests (by decide)⟩

/-- One block in each chaining mode: it ends with OK, and one block is written. -/
theorem chain_completes {s : State} {src dst iv : Desc} (hc : firstFailure (chainChecks 1 src dst iv s) = none)
    (hc' : firstFailure (ctrChecks 1 src dst iv s) = none) :
    ∀ enc ∈ [Instr.cbcEnc, Instr.cfbEnc, Instr.ofbEnc, Instr.ctrEnc],
      ∃ t x, exec (enc 1 src dst iv) s = .next t ∧ t.last = 0 ∧ t.mem = writeBlock s.mem (blockAddr dst 0) x := by
  intro enc h
  simp only [List.mem_cons, List.not_mem_nil, or_false] at h
  rcases h with rfl | rfl | rfl | rfl
  · exact ⟨_, _, runCipher_runs hc _ _, rfl, rfl⟩
  · exact ⟨_, _, runCipher_runs hc _ _, rfl, rfl⟩
  · exact ⟨_, _, runCipher_runs hc _ _, rfl, rfl⟩
  · exact ⟨_, _, runCipher_runs hc' _ _, rfl, rfl⟩

/-- A block written apart from a buffer's first block leaves it. -/
theorem bufBlock_apart {s t : State} {dst d : Desc} {x : Block} (ht : t.mem = writeBlock s.mem (blockAddr dst 0) x)
    (h : dst.addr.toNat + 16 ≤ d.addr.toNat) : bufBlock t d 0 = bufBlock s d 0 := by
  unfold bufBlock
  rw [ht]
  exact readBlock_writeBlock_apart (.inr (by unfold blockAddr; omega))

/-- One block in each of the four modes, decrypted in place or into a third buffer. -/
theorem witness_ModesRoundTrip_chaining :
    ∀ enc ∈ [Instr.cbcEnc, Instr.cfbEnc, Instr.ofbEnc, Instr.ctrEnc],
      ∃ t, Memory.wf text.mem = true ∧ exec (enc 1 src1 dst1 iv16) text = .next t ∧ t.last = 0 ∧
        InRange dst1 ∧ Apart dst1 dst1 ∧ Apart dst1 ⟨0x7000, 16⟩ ∧ iv16.len = 16 ∧ InRange iv16 ∧
        bufBlock t iv16 0 = bufBlock text iv16 0 := by
  intro enc h
  obtain ⟨t, x, h1, h2, h3⟩ := chain_completes (chain1_passes katSchedule textMem) (by decide +kernel) enc h
  exact ⟨t, text_wf, h1, h2, .inr (by decide), .inl rfl, apart_of_tests (by decide), rfl, .inr (by decide),
    bufBlock_apart h3 (by decide)⟩

/-! ### GCM -/

theorem tag16_apart : DisjointBuffers tag16 dst2 := by
  intro a h
  have h1 : 0x6000 ≤ a := h.1.1
  have h2 : a < 0x3000 + 32 := h.2.2
  omega

theorem gcm_ready (w : Vector Word 60) (m : Memory) : Ready (.gcmEnc src2 dst2 iv12 aad1 tag16) (base w m) :=
  (gcmChecks_pass_iff _ _ _ _ _ _).1 (gcm_passes w m)

theorem witness_GcmEncSealsText :
    Memory.wf text.mem = true ∧ Ready (.gcmEnc src2 dst2 iv12 aad1 tag16) text ∧ DisjointBuffers tag16 dst2 :=
  ⟨text_wf, gcm_ready _ _, tag16_apart⟩

/-- TAG inside DST; and the greatest lengths. -/
theorem witness_GcmEncTagWrittenLast :
    Memory.wf text.mem = true ∧ Ready (.gcmEnc src2 dst2 iv12 aad1 ⟨0x3008, 16⟩) text ∧
      Ready (.gcmEnc ⟨0, 536870911⟩ ⟨0x20000000, 536870911⟩ iv12 ⟨0, 536870911⟩ tag16) text :=
  ⟨text_wf, (gcmChecks_pass_iff _ _ _ _ _ _).1 rfl, (gcmChecks_pass_iff _ _ _ _ _ _).1 rfl⟩

/-- A state with a given tag written to its tag buffer. -/
def withTag (s : State) (tag : Desc) (x : Block) : State := { s with mem := writeBlock s.mem tag.addr.toNat x }

theorem withTag_wf {s : State} (tag : Desc) (x : Block) (h : Memory.wf s.mem = true) : Memory.wf (withTag s tag x).mem = true :=
  writeBlock_wf _ _ h

theorem withTag_reads (s : State) {tag d : Desc} (x : Block) (h : d.addr.toNat + d.len.toNat ≤ tag.addr.toNat) :
    bufBytes (withTag s tag x) d = bufBytes s d :=
  memRead_congr fun k hk => readByte_writeBlock_outside (.inl (by omega))

theorem withTag_tag {s : State} {tag : Desc} (x : Block) (hwf : Memory.wf s.mem = true) (h : tag.addr.toNat + 16 ≤ Config.addressSpace) :
    bufBlock (withTag s tag x) tag 0 = x := by
  unfold bufBlock withTag
  rw [Nat.mul_zero, Nat.add_zero]
  exact readBlock_writeBlock_self hwf h

/-- The tag of the text in `src`. -/
def tagIn (s : State) (src iv aad : Desc) : Block := gcmTag (scheduleOf s) (bufBytes s iv) (bufBytes s aad) (bufBytes s src)

theorem withTag_computes (s : State) {src iv aad tag : Desc} (x : Block) (h1 : src.addr.toNat + src.len.toNat ≤ tag.addr.toNat)
    (h2 : iv.addr.toNat + iv.len.toNat ≤ tag.addr.toNat) (h3 : aad.addr.toNat + aad.len.toNat ≤ tag.addr.toNat) :
    gcmTag (scheduleOf (withTag s tag x)) (bufBytes (withTag s tag x) iv) (bufBytes (withTag s tag x) aad)
      (bufBytes (withTag s tag x) src) = tagIn s src iv aad := by
  rw [withTag_reads s x h1, withTag_reads s x h2, withTag_reads s x h3]
  rfl

theorem withTag_ready (x : Block) : Ready (.gcmDec src2 src2 iv12 aad1 tag16) (withTag text tag16 x) :=
  (gcmChecks_pass_iff _ _ _ _ _ _).1 (gcm_passes_in_place katSchedule _)

theorem withTag_text (x : Block) :
    bufBlock (withTag text tag16 x) tag16 0 = x ∧
    gcmTag (scheduleOf (withTag text tag16 x)) (bufBytes (withTag text tag16 x) iv12) (bufBytes (withTag text tag16 x) aad1)
      (bufBytes (withTag text tag16 x) src2) = tagIn text src2 iv12 aad1 :=
  ⟨withTag_tag x text_wf (by decide), withTag_computes text x (by decide) (by decide) (by decide)⟩

/-- Every nonce and AAD buffer between DST and TAG reads after GCM.ENC as before it. -/
theorem gcmEnc_reads {s : State} {src dst iv aad tag : Desc} (hwf : Memory.wf s.mem = true)
    (hc : firstFailure (gcmChecks src dst iv aad tag s) = none) (hlen : dst.len = src.len) (hr : InRange dst) (hap : Apart src dst) :
    ∃ t, exec (.gcmEnc src dst iv aad tag) s = .next t ∧ t.last = 0 ∧
      ∀ d : Desc, dst.addr.toNat + dst.len.toNat ≤ d.addr.toNat → d.addr.toNat + d.len.toNat ≤ tag.addr.toNat →
        bufBytes t d = bufBytes s d := by
  obtain ⟨out, -, -, -, -, -, -, hout⟩ := gcmEnc_textLoop (k := scheduleOf s) (m := s.mem) (src := src) (dst := dst)
    (wk := authPhase aad (gcmSetup iv (scheduleOf s) (workOf s))) hwf (by simp) hlen hr hap
    (by rw [authPhase_ctrb, gcmSetup_ctrb])
  refine ⟨_, runCipher_runs hc _ _, rfl, fun d h1 h2 => memRead_congr fun k hk => ?_⟩
  refine (readByte_writeBlock_outside (.inl (by omega))).trans (hout _ fun hin => ?_)
  have := hin.2
  omega

theorem witness_GcmDecOpensText :
    ∃ s, Memory.wf s.mem = true ∧ Ready (.gcmDec src2 src2 iv12 aad1 tag16) s ∧
      bufBlock s tag16 0 = gcmTag (scheduleOf s) (bufBytes s iv12) (bufBytes s aad1) (bufBytes s src2) :=
  ⟨withTag text tag16 (tagIn text src2 iv12 aad1), withTag_wf _ _ text_wf, withTag_ready _,
    (withTag_text _).1.trans (withTag_text _).2.symm⟩

theorem flipped_ne (x : Block) : x ^^^ 1 ≠ x := by
  intro h
  have h0 := congrArg (fun b : Block => b.getLsbD 0) h
  simp at h0

/-- A tag that differs in its last bit. -/
theorem witness_GcmDecFailsClosed :
    ∃ s, Memory.wf s.mem = true ∧ Ready (.gcmDec src2 src2 iv12 aad1 tag16) s ∧
      bufBlock s tag16 0 ≠ gcmTag (scheduleOf s) (bufBytes s iv12) (bufBytes s aad1) (bufBytes s src2) :=
  ⟨withTag text tag16 (tagIn text src2 iv12 aad1 ^^^ 1), withTag_wf _ _ text_wf, withTag_ready _,
    fun h => flipped_ne _ ((withTag_text _).1.symm.trans (h.trans (withTag_text _).2))⟩

theorem witness_GcmRoundTrip :
    ∃ t, Memory.wf text.mem = true ∧ exec (.gcmEnc src2 dst2 iv12 aad1 tag16) text = .next t ∧ t.last = 0 ∧
      DisjointBuffers tag16 dst2 ∧ InRange dst2 ∧ Apart dst2 dst2 ∧ iv12.len = 12 ∧ InRange iv12 ∧
      bufBytes t iv12 = bufBytes text iv12 ∧ InRange aad1 ∧ bufBytes t aad1 = bufBytes text aad1 ∧ tag16.len = 16 ∧ InRange tag16 := by
  obtain ⟨t, h1, h2, h3⟩ := gcmEnc_reads text_wf (gcm_passes katSchedule textMem) rfl (.inr (by decide)) (apart_of_tests (by decide))
  exact ⟨t, text_wf, h1, h2, tag16_apart, .inr (by decide), .inl rfl, rfl, .inr (by decide), h3 iv12 (by decide) (by decide),
    .inr (by decide), h3 aad1 (by decide) (by decide), rfl, .inr (by decide)⟩

/-! ### Result codes: each clause of R199's statement -/

theorem witness_FirstFailingCheckIsReported_config :
    ¬ KeySizeOk (.config 129) ∧ KeySizeOk (.config 128) ∧ KeySizeOk (.config 256) := by simp [KeySizeOk]

theorem witness_FirstFailingCheckIsReported_key :
    (∀ kb, Instr.initkeys src1 ≠ .config kb) ∧ State.reset.ksize = 0 ∧
    (text.ksize ≠ 0 ∧ ¬ KeyStateOk (.initkeys src1) text) ∧
    (keyless 3 []).ksize ≠ 0 ∧ ¬ KeyStateOk (.ecbEnc 1 src1 dst1) (keyless 3 []) :=
  ⟨by simp, rfl, ⟨by decide, by simp [KeyStateOk, text, base]⟩, by decide, by simp [KeyStateOk, keyless, State.reset]⟩

/-- One byte short; and a block count whose length is `2^32`. -/
theorem witness_FirstFailingCheckIsReported_length :
    text.ksize ≠ 0 ∧ KeyStateOk (.encblk ⟨0x2000, 15⟩ dst1) text ∧ ¬ LengthsOk (.encblk ⟨0x2000, 15⟩ dst1) text ∧
      ¬ LengthsOk (.ecbEnc 0x10000000 ⟨0x2000, 0⟩ ⟨0x3000, 0⟩) text :=
  ⟨by decide, rfl, by simp [LengthsOk], by simp [LengthsOk, TextLens]⟩

/-- One byte above GCM_MAX_BYTES. -/
theorem witness_FirstFailingCheckIsReported_range :
    LengthsPass (.gcmEnc src2 dst2 iv12 ⟨0, 536870912⟩ tag16) text ∧ ¬ GcmLengthsOk (.gcmEnc src2 dst2 iv12 ⟨0, 536870912⟩ tag16) :=
  ⟨⟨by decide, rfl, by decide, by decide, by decide⟩, by simp [GcmLengthsOk]⟩

/-- One byte past the top of memory. -/
theorem witness_FirstFailingCheckIsReported_address :
    LengthsPass (.encblk ⟨0xFFFFFFF1, 16⟩ dst1) text ∧ GcmLengthsOk (.encblk ⟨0xFFFFFFF1, 16⟩ dst1) ∧
      ¬ RangesOk (.encblk ⟨0xFFFFFFF1, 16⟩ dst1) :=
  ⟨⟨by decide, rfl, by decide, by decide⟩, trivial, by simp [RangesOk, usedBuffers, InRange]⟩

/-- One byte shared. -/
theorem witness_FirstFailingCheckIsReported_overlap :
    AddressesPass (.encblk src1 ⟨0x200F, 16⟩) text ∧ ¬ OverlapOk (.encblk src1 ⟨0x200F, 16⟩) := by
  refine ⟨⟨⟨by decide, rfl, by decide, by decide⟩, trivial, by simp [RangesOk, usedBuffers, InRange, src1]⟩, ?_⟩
  rintro (h | h)
  · simp [src1] at h
  · exact h 0x200F (by simp [InBuffer, src1])

/-- Two counters from the last one on; and one counter, which fits. -/
theorem witness_FirstFailingCheckIsReported_counter :
    AddressesPass (.ctrEnc 2 src2 dst2 iv16) (base katSchedule (textMemory (2 ^ 128 - 1))) ∧ OverlapOk (.ctrEnc 2 src2 dst2 iv16) ∧
    ¬ CounterOk (.ctrEnc 2 src2 dst2 iv16) (base katSchedule (textMemory (2 ^ 128 - 1))) ∧
    Ready (.ctrEnc 1 src1 dst1 iv16) (base katSchedule (textMemory (2 ^ 128 - 1))) := by
  have hp := (chainChecks_pass_iff _ _ _ _ _).1 (chain_passes katSchedule (textMemory (2 ^ 128 - 1)))
  refine ⟨hp.1, hp.2.1, fun h => ?_, (ctrChecks_pass_iff _ _ _ _ _).1 (by decide +kernel)⟩
  exact absurd ((counterWraps_eq_false_iff 2 iv16 (base katSchedule (textMemory (2 ^ 128 - 1)))).2 h) (by decide +kernel)

theorem witness_FirstFailingCheckIsReported_decode :
    ∃ (s : State) (f : Frame) (rest : List HostEvent) (why : Illegal), s.inputs = .frame f :: rest ∧ decode f = .illegal why :=
  ⟨oneFrame (keyed []) (bareFrame 0x1C), _, _, _, rfl, rfl⟩

theorem witness_ErrorChangesOnlyLast :
    ∃ (s t : State) (r : ResultCode), step s = .next t ∧ t.responses = s.responses ++ [r] ∧ r ≠ .ok ∧ r ≠ .tagMismatch :=
  ⟨oneFrame text (bareFrame 0x00810001), complete .invalidKeySize text.mem text, .invalidKeySize, rfl, rfl, by decide, by decide⟩

/-! ### The whole machine -/

/-- The KAT key's schedule is one (V30). -/
theorem katSchedule_is_one : ∀ i, i < 60 → wAt katSchedule i = (keyExpansion katKey 4).getD i 0 := by decide +kernel

/-- A keyed state with inputs still to come meets the invariant. -/
theorem inv_text (inputs : List HostEvent) : Inv { text with inputs := inputs } where
  keyed_configured := fun _ => by simp [text, base]
  keyed_schedule := fun _ => ⟨katKey, rfl, katSchedule_is_one⟩
  unkeyed_zero := fun h => by simp [text, base] at h
  last_is_code := ⟨.ok, rfl⟩
  mem_wf := text_wf
  transients_zero := rfl

theorem witness_StepKeepsInvariant :
    ∃ s t : State, Inv s ∧ step s = .next t ∧ t ≠ s :=
  ⟨{ text with inputs := [.reset] }, _, inv_text _, rfl, fun h => by
    have := congrArg State.keyvalid h
    simp [text, base] at this⟩

theorem witness_CipherCommandsOnlyReadContext :
    ∃ (i : Instr) (s t : State), isCipher i = true ∧ exec i s = .next t :=
  ⟨.encblk src1 dst1, text, _, rfl, runCipher_runs (block_passes katSchedule textMem) _ _⟩

/-- Both ways to unlock: a reset, and CONFIG with a supported size. -/
theorem witness_LoadedKeyIsLocked :
    ∀ e ∈ [HostEvent.reset, .frame (bareFrame 0x00800001)], ∃ s t : State, s.inputs = [e] ∧ s.keyvalid = true ∧ step s = .next t ∧
      ¬ SameContext s t := by
  intro e h
  simp only [List.mem_cons, List.not_mem_nil, or_false] at h
  rcases h with rfl | rfl <;>
    exact ⟨{ text with inputs := [_] }, _, rfl, rfl, rfl, fun h => absurd h.2.1 (by decide)⟩

/-- Two states that differ in everything but the context and the memory. -/
theorem witness_NothingElseIsCarriedOver :
    ∃ s s' : State, SameContext s s' ∧ s'.mem = s.mem ∧ s'.last ≠ s.last ∧ s'.tr ≠ s.tr :=
  ⟨text, { text with last := 9, tr := { Transients.zero with cv := 1 } }, ⟨rfl, rfl, rfl⟩, rfl, by decide, by decide⟩

/-- An address next to both output buffers of GCM.ENC. -/
theorem witness_WritesStayInOutputBuffers :
    ∃ (t : State) (a : Nat), exec (.gcmEnc src2 dst2 iv12 aad1 tag16) text = .next t ∧ ¬ InBuffer dst2 a ∧ ¬ InBuffer tag16 a :=
  ⟨_, 0x3020, runCipher_runs (gcm_passes katSchedule textMem) _ _, fun h => absurd h.2 (by decide),
    fun h => absurd h.1 (by decide)⟩

end Sys2Proof.Tests
end

section
/-! The state: the step that takes a reset event, W after a reset, and the fields of the status port
(10_state.md R18, R23; 70_reset_and_hazards.md R221). -/

namespace Sys2Proof.Proofs

open Sys2Proof Sys2Proof.Machine Sys2Proof.Laws

/-! ### Reset -/

/-- R220: the next event is a reset, and the step takes it. -/
theorem step_eq_applyReset {s : State} {rest : List HostEvent} (h : s.inputs = .reset :: rest) :
    step s = .next (applyReset { s with inputs := rest }) := by
  simp [step, nextInput_cons h]

/-- A cleared register file reads 0 at every index, those beyond it included. -/
@[simp] theorem wAt_replicate_zero (i : Nat) : wAt (Vector.replicate Config.wRegs 0) i = 0 := by
  unfold wAt
  simp

/-! ### The status port: R18's concatenation, read from its low end -/

theorem configured_eq_decide (s : State) : configured s = decide (s.ksize ≠ 0) :=
  Bool.eq_iff_iff.2 ((configured_iff s).trans decide_eq_true_iff.symm)

theorem status_getLsbD_zero (s : State) : (status s).getLsbD 0 = configured s := by
  unfold status
  rw [BitVec.getLsbD_append, if_pos (by decide)]
  simp

theorem status_getLsbD_one (s : State) : (status s).getLsbD 1 = s.keyvalid := by
  unfold status
  rw [BitVec.getLsbD_append, if_neg (by decide), BitVec.getLsbD_append, if_pos (by decide)]
  simp

theorem status_extractLsb_ksize (s : State) : (status s).extractLsb' 2 2 = s.ksize := by
  unfold status
  rw [BitVec.extractLsb'_append_eq_of_le (by decide), BitVec.extractLsb'_append_eq_of_le (by decide)]
  exact BitVec.extractLsb'_append_eq_right

theorem status_extractLsb_last (s : State) : (status s).extractLsb' 4 4 = s.last := by
  unfold status
  rw [BitVec.extractLsb'_append_eq_of_le (by decide), BitVec.extractLsb'_append_eq_of_le (by decide)]
  exact BitVec.extractLsb'_append_eq_left

/-- R23: while LAST, KSIZE and KEYVALID are 0 the port reads 0x00. -/
theorem status_eq_zero {s : State} (hl : s.last = 0) (hk : s.ksize = 0) (hv : s.keyvalid = false) :
    status s = 0x00 := by
  have hc : configured s = false := by simp [configured, hk]
  unfold status
  rw [hl, hk, hv, hc]
  rfl

/-! ### The obligations -/

/-- Settles O12: the step is `applyReset`, whose fields are R23's values. -/
theorem resetEventResets : Obligations.ResetEventResets := by
  intro s rest h
  exact ⟨_, step_eq_applyReset h, rfl, rfl, fun i _ => wAt_replicate_zero i, rfl, rfl, status_eq_zero rfl rfl rfl, rfl⟩

/-- Settles O15, a field of the port at a time. -/
theorem statusPortLayout : Obligations.StatusPortLayout := by
  intro s
  exact ⟨(status_getLsbD_zero s).trans (configured_eq_decide s), status_getLsbD_one s, status_extractLsb_ksize s,
    status_extractLsb_last s⟩

end Sys2Proof.Proofs
end

section
/-! The buffer memory as a map of bytes (20_memory.md R30, R33): two canonical memories that read alike are equal, so
an equality of memories after writes is an equality of the bytes they read. -/

namespace Sys2Proof.Proofs

open Sys2Proof Sys2Proof.Machine Sys2Proof.Laws

/-! ### Canonical memories are determined by their bytes -/

@[simp] theorem readByte_cons_self (x : Nat) (c : Byte) (m : Memory) : readByte ((x, c) :: m) x = c := by
  simp [readByte]

theorem readByte_cons_other {x a : Nat} (c : Byte) (m : Memory) (hne : x ≠ a) :
    readByte ((x, c) :: m) a = readByte m a := by
  simp [readByte, hne]

/-- Below its lower bound a canonical memory lists no byte. -/
theorem le_of_readByte_ne {lo a : Nat} {m : Memory} (h : Memory.wfFrom lo m = true)
    (hne : readByte m a ≠ Config.unlistedByte) : lo ≤ a :=
  Nat.le_of_not_lt fun ha => hne (readByte_of_wfFrom h ha)

/-- Two canonical lists that read alike have the same first cell, and past it they read alike. -/
theorem wfFrom_ext {lo lo' : Nat} {m m' : Memory} (h : Memory.wfFrom lo m = true) (h' : Memory.wfFrom lo' m' = true)
    (he : ∀ x, readByte m x = readByte m' x) : m = m' := by
  induction m generalizing lo lo' m' with
  | nil =>
    cases m' with
    | nil => rfl
    | cons cell m' =>
      obtain ⟨x', c'⟩ := cell
      obtain ⟨-, -, hc', -⟩ := wfFrom_cons.1 h'
      exact absurd ((he x').trans (readByte_cons_self x' c' m')).symm hc'
  | cons cell m ih =>
    obtain ⟨x, c⟩ := cell
    obtain ⟨-, hx, hc, hm⟩ := wfFrom_cons.1 h
    have hread : readByte m' x = c := (he x).symm.trans (readByte_cons_self x c m)
    cases m' with
    | nil => exact absurd hread.symm hc
    | cons cell' m' =>
      obtain ⟨x', c'⟩ := cell'
      obtain ⟨-, hx', hc', hm'⟩ := wfFrom_cons.1 h'
      have hread' : readByte ((x, c) :: m) x' = c' := (he x').trans (readByte_cons_self x' c' m')
      have hle : x ≤ x' := le_of_readByte_ne (wfFrom_cons.2 ⟨le_refl x, hx, hc, hm⟩) (hread' ▸ hc')
      have hle' : x' ≤ x := le_of_readByte_ne (wfFrom_cons.2 ⟨le_refl x', hx', hc', hm'⟩) (hread ▸ hc)
      obtain rfl : x = x' := le_antisymm hle hle'
      obtain rfl : c = c' := hread.symm.trans (readByte_cons_self x c' m')
      have htail : ∀ y, readByte m y = readByte m' y := by
        intro y
        rcases Nat.lt_or_ge x y with hy | hy
        · rw [← readByte_cons_other c m hy.ne, he y, readByte_cons_other c m' hy.ne]
        · rw [readByte_of_wfFrom hm (by omega), readByte_of_wfFrom hm' (by omega)]
      rw [ih hm hm' htail]

/-- R30: a memory is the map from addresses to the bytes it reads. -/
theorem memory_ext {m m' : Memory} (h : Memory.wf m = true) (h' : Memory.wf m' = true)
    (he : ∀ x, readByte m x = readByte m' x) : m = m' :=
  wfFrom_ext h h' he

/-! ### Writes as equalities of memories -/

/-- R33: a write gives `m'` when `m'` reads as the string on the written addresses and as `m` off them. -/
theorem memWrite_eq_of_bytes {m m' : Memory} {a : Nat} {v : List Byte} (h : Memory.wf m = true)
    (h' : Memory.wf m' = true) (hv : a + v.length ≤ Config.addressSpace)
    (hin : ∀ k, k < v.length → readByte m' (a + k) = v.getD k 0)
    (hout : ∀ x, (x < a ∨ a + v.length ≤ x) → readByte m' x = readByte m x) : memWrite m a v = m' := by
  refine memory_ext (memWrite_wf a v h) h' fun x => ?_
  by_cases hx : x < a ∨ a + v.length ≤ x
  · rw [readByte_memWrite_outside hx, hout x hx]
  · obtain ⟨k, rfl⟩ := Nat.exists_eq_add_of_le (show a ≤ x by omega)
    have hk : k < v.length := by omega
    rw [readByte_memWrite_inside h hv hk, hin k hk]

theorem memWrite_memRead {m : Memory} {a n : Nat} (h : Memory.wf m = true) (hn : a + n ≤ Config.addressSpace) :
    memWrite m a (memRead m a n) = m := by
  refine memWrite_eq_of_bytes h h (by simpa using hn) (fun k hk => ?_) fun _ _ => rfl
  rw [getD_memRead m a (by simpa using hk)]

theorem memWrite_memWrite_same {m : Memory} {a : Nat} {v v' : List Byte} (h : Memory.wf m = true)
    (hv : a + v.length ≤ Config.addressSpace) (hl : v'.length = v.length) :
    memWrite (memWrite m a v') a v = memWrite m a v := by
  refine memWrite_eq_of_bytes (memWrite_wf a v' h) (memWrite_wf a v h) hv
    (fun k hk => readByte_memWrite_inside h hv hk) fun x hx => ?_
  rw [readByte_memWrite_outside hx, readByte_memWrite_outside (hl ▸ hx)]

/-! ### The obligation -/

/-- Settles O16: the clauses on bytes are R33's, those on whole memories follow since bytes determine a memory. -/
theorem memoryIsAMapOfBytes : Obligations.MemoryIsAMapOfBytes := by
  intro m m' a v v' h h' hv
  exact ⟨memory_ext h h', memRead_memWrite h hv, fun _ => readByte_memWrite_outside, memWrite_memRead h hv,
    memWrite_memWrite_same h hv⟩

end Sys2Proof.Proofs
end

section
/-! The decoder's fields as numbers, which frames it calls illegal (30_encoding.md R46, R49, R52), and the step that
takes such a frame (60_exceptions.md R200). -/

namespace Sys2Proof.Proofs

open Sys2Proof Sys2Proof.Machine Sys2Proof.Laws

/-! ### The fields of the command word (R46) -/

@[simp] theorem opcOf_toNat (f : Frame) : (opcOf f).toNat = f.cmd.toNat % 256 := by
  simp [opcOf]

@[simp] theorem rsvOf_toNat (f : Frame) : (rsvOf f).toNat = f.cmd.toNat / 256 % 256 := by
  simp [rsvOf, Nat.shiftRight_eq_div_pow]

/-- KEYBITS is the top field, so nothing is cut off above it. -/
@[simp] theorem keybitsOf_toNat (f : Frame) : (keybitsOf f).toNat = f.cmd.toNat / 65536 := by
  have hlt : f.cmd.toNat / 65536 < 65536 := by have := f.cmd.isLt; omega
  simpa [keybitsOf, Nat.shiftRight_eq_div_pow] using hlt

/-! ### Illegal frames (R52) -/

/-- R49: the opcodes that select no command, CONFIG's among them (`decode` answers CONFIG before it asks). -/
theorem commandOf_eq_none_iff (f : Frame) :
    commandOf f = none ↔ (opcOf f).toNat ≤ 0x01 ∨
      (0x05 ≤ (opcOf f).toNat ∧ (opcOf f).toNat ≤ 0x0F) ∨ 0x1C ≤ (opcOf f).toNat := by
  unfold commandOf
  split
  case h_16 => simp only [imp_false, true_iff] at *; omega
  all_goals simp only [reduceCtorEq, false_iff]; omega

/-- R52, R58: what makes the decoder answer `illegal`, in its own fields. -/
theorem decode_illegal_iff (f : Frame) :
    (∃ why, decode f = .illegal why) ↔
      rsvOf f ≠ 0 ∨ (opcOf f ≠ 0x01 ∧ (keybitsOf f ≠ 0 ∨ commandOf f = none)) := by
  unfold decode
  by_cases hrsv : rsvOf f = 0#8
  case neg => simp [hrsv]
  by_cases hopc : opcOf f = 1#8
  case pos => simp [hrsv, hopc]
  by_cases hkb : keybitsOf f = 0#16
  case neg => simp [hrsv, hopc, hkb]
  cases commandOf f <;> simp [hrsv, hopc, hkb]

/-- R52 on the bits of F[0]: each of the three reasons makes the frame illegal. -/
theorem decode_illegal_of_reserved {f : Frame}
    (h : (f.cmd.toNat % 256 = 0 ∨ (0x05 ≤ f.cmd.toNat % 256 ∧ f.cmd.toNat % 256 ≤ 0x0F) ∨ 0x1C ≤ f.cmd.toNat % 256) ∨
      f.cmd.toNat / 256 % 256 ≠ 0 ∨ (f.cmd.toNat % 256 ≠ 1 ∧ f.cmd.toNat / 65536 ≠ 0)) :
    ∃ why, decode f = .illegal why := by
  rw [decode_illegal_iff, commandOf_eq_none_iff]
  simp only [ne_eq, ← BitVec.toNat_inj, rsvOf_toNat, opcOf_toNat, keybitsOf_toNat, BitVec.ofNat_eq_ofNat,
    BitVec.toNat_ofNat]
  omega

/-! ### The step -/

/-- R200: a step that takes an illegal frame raises IllegalCommand, whatever the reason. -/
theorem step_of_illegal {s : State} {f : Frame} {rest : List HostEvent} {why : Illegal}
    (h : s.inputs = .frame f :: rest) (hd : decode f = .illegal why) :
    step s = .next (afterError .illegalCommand { s with inputs := rest }) := by
  simp only [step, nextInput_cons h, hd, raise_eq]
  rfl

/-- Settles O8: each of R52's reasons makes the decoder answer `illegal`, and the step raises on that answer. -/
theorem illegalFrameRaisesIllegalCommand : Obligations.IllegalFrameRaisesIllegalCommand := by
  intro s f rest h hbits
  obtain ⟨why, hd⟩ := decode_illegal_of_reserved hbits
  exact step_of_illegal h hd

end Sys2Proof.Proofs
end

section
/-! The field GF(2^8) and the S-box tables (40_gf256_sbox.md R66 to R73).  What the functions and the tables hold at
each byte is evaluated once, in `byte_evaluation`.  The rest is algebra: a map that preserves sums and `xtime` passes
through the loop of `multiply`, so two right factors can be exchanged, the product is commutative and an inverse is
unique; and a map with a left inverse is injective. -/

namespace Sys2Proof.Proofs

open Sys2Proof Sys2Proof.Machine

/-! ### What is evaluated -/

/-- R73: the argument of the closed form, which undoes the affine transform. -/
def invAffine (y : Byte) : Byte := rotl8 y 1 ^^^ rotl8 y 3 ^^^ rotl8 y 6 ^^^ 0x05

/-- One pass over the 256 bytes: two clauses need the Euclidean loop of R70, and the kernel then runs it once a byte.
The lemmas that follow name the clauses; no other proof uses this one. -/
theorem byte_evaluation : ∀ x : Byte,
    multiply 1#8 x = x ∧ (x ≠ 0 → multiply x (multiplicativeInverse x) = 1) ∧
    invAffine (affine x) = x ∧ sbox x = affine (multiplicativeInverse x) ∧ sbox (invSbox x) = x ∧
    (sbox x ≠ x ∧ sbox x ≠ x ^^^ 0xff) := by
  decide +kernel

@[simp] theorem one_multiply (x : Byte) : multiply 1#8 x = x := by
  obtain ⟨h, -⟩ := byte_evaluation x
  exact h

/-- R69, R70: the Euclidean loop finds an inverse of every nonzero byte. -/
theorem multiply_multiplicativeInverse {a : Byte} (ha : a ≠ 0) : multiply a (multiplicativeInverse a) = 1 := by
  obtain ⟨-, h, -⟩ := byte_evaluation a
  exact h ha

@[simp] theorem invAffine_affine (x : Byte) : invAffine (affine x) = x := by
  obtain ⟨-, -, h, -⟩ := byte_evaluation x
  exact h

theorem sbox_eq_affine (x : Byte) : sbox x = affine (multiplicativeInverse x) := by
  obtain ⟨-, -, -, h, -⟩ := byte_evaluation x
  exact h

@[simp] theorem sbox_invSbox (y : Byte) : sbox (invSbox y) = y := by
  obtain ⟨-, -, -, -, h, -⟩ := byte_evaluation y
  exact h

theorem sbox_ne_self_and_ne_complement (x : Byte) : sbox x ≠ x ∧ sbox x ≠ x ^^^ 0xff := by
  obtain ⟨-, -, -, -, -, h⟩ := byte_evaluation x
  exact h

/-! ### The product (R66) -/

/-- Where both operands overflow, the two reductions cancel, and the sum does not overflow. -/
theorem xtime_xor (a b : Byte) : xtime (a ^^^ b) = xtime a ^^^ xtime b := by
  have hcancel (x y c : Byte) : x ^^^ c ^^^ (y ^^^ c) = x ^^^ y := by
    rw [BitVec.xor_comm y c, ← BitVec.xor_assoc, BitVec.xor_assoc x, BitVec.xor_self, BitVec.xor_zero]
  unfold xtime
  simp only [BitVec.setWidth_xor, BitVec.shiftLeft_xor_distrib, BitVec.getLsbD_xor]
  cases (a.setWidth 9 <<< 1).getLsbD 8 <;> cases (b.setWidth 9 <<< 1).getLsbD 8
  case true.true => simp [hcancel]
  case false.false => simp
  all_goals
    simp only [Bool.xor_false, Bool.xor_true, Bool.not_false, Bool.false_eq_true, if_true, if_false, BitVec.setWidth_xor]
    ac_rfl

theorem multiplyLoop_xor_left (k : Nat) (a a' b p p' : Byte) :
    multiplyLoop k (a ^^^ a') b (p ^^^ p') = multiplyLoop k a b p ^^^ multiplyLoop k a' b p' := by
  induction k generalizing a a' b p p' with
  | zero => rfl
  | succ k ih =>
    simp only [multiplyLoop, xtime_xor, ← ih]
    split
    · congr 1
      ac_rfl
    · rfl

theorem multiply_xor_left (a a' b : Byte) : multiply (a ^^^ a') b = multiply a b ^^^ multiply a' b :=
  multiplyLoop_xor_left 8 a a' b 0 0

@[simp] theorem zero_multiply (b : Byte) : multiply 0#8 b = 0#8 := by
  simpa using multiply_xor_left 0 0 b

/-- The loop only adds and applies `xtime`, so what preserves both can be applied to its operands beforehand. -/
theorem map_multiplyLoop {f : Byte → Byte} (hadd : ∀ x y, f (x ^^^ y) = f x ^^^ f y)
    (hxtime : ∀ x, f (xtime x) = xtime (f x)) (k : Nat) (a b p : Byte) :
    f (multiplyLoop k a b p) = multiplyLoop k (f a) b (f p) := by
  induction k generalizing a b p with
  | zero => rfl
  | succ k ih => rw [multiplyLoop, ih, multiplyLoop, hxtime, apply_ite f, hadd]

theorem multiply_xtime_left (a b : Byte) : multiply (xtime a) b = xtime (multiply a b) :=
  (map_multiplyLoop xtime_xor (fun _ => rfl) 8 a b 0).symm

/-- Multiplication by `c` passes through the loop that multiplies by `b`. -/
theorem multiply_right_comm (a b c : Byte) : multiply (multiply a b) c = multiply (multiply a c) b := by
  calc multiply (multiply a b) c
      = multiplyLoop 8 (multiply a c) b (multiply 0 c) :=
        map_multiplyLoop (f := (multiply · c)) (fun x y => multiply_xor_left x y c)
          (fun x => multiply_xtime_left x c) 8 a b 0
    _ = multiply (multiply a c) b := congrArg (multiplyLoop 8 (multiply a c) b) (zero_multiply c)

theorem multiply_comm (a b : Byte) : multiply a b = multiply b a := by
  simpa using multiply_right_comm 1 a b

/-- An inverse is unique: each of the two is the product of all three bytes. -/
theorem eq_of_multiply_eq_one {a v w : Byte} (hv : multiply a v = 1) (hw : multiply a w = 1) : v = w := by
  have h := multiply_right_comm a w v
  simpa [hv, hw] using h

theorem ne_zero_of_multiply_eq_one {a v : Byte} (h : multiply a v = 1) : a ≠ 0 := by
  rintro rfl
  simp at h

/-! ### The inverse (R69) -/

@[simp] theorem multiplicativeInverse_zero : multiplicativeInverse 0#8 = 0#8 := rfl

theorem multiply_eq_one_iff {a : Byte} (ha : a ≠ 0) (v : Byte) :
    multiply a v = 1 ↔ v = multiplicativeInverse a := by
  constructor
  · intro hv
    exact eq_of_multiply_eq_one hv (multiply_multiplicativeInverse ha)
  · rintro rfl
    exact multiply_multiplicativeInverse ha

theorem multiplicativeInverse_eq_of_multiply {a v : Byte} (h : multiply a v = 1) : multiplicativeInverse a = v :=
  ((multiply_eq_one_iff (ne_zero_of_multiply_eq_one h) v).1 h).symm

@[simp] theorem multiplicativeInverse_multiplicativeInverse (a : Byte) :
    multiplicativeInverse (multiplicativeInverse a) = a := by
  by_cases ha : a = 0
  · simp [ha]
  · apply multiplicativeInverse_eq_of_multiply
    rw [multiply_comm, multiply_multiplicativeInverse ha]

/-- Settles O19: the loop finds an inverse, and an inverse is unique; each corner value is checked by its product. -/
theorem inverseContract : Obligations.InverseContract :=
  ⟨multiplicativeInverse_zero, fun _ => multiply_eq_one_iff, multiplicativeInverse_multiplicativeInverse,
    multiplicativeInverse_eq_of_multiply (by decide), multiplicativeInverse_eq_of_multiply (by decide),
    multiplicativeInverse_eq_of_multiply (by decide)⟩

/-! ### The tables (R71 to R73) -/

/-- The closed form of R73 is a left inverse of SBOX. -/
theorem multiplicativeInverse_invAffine_sbox (x : Byte) : multiplicativeInverse (invAffine (sbox x)) = x := by
  rw [sbox_eq_affine, invAffine_affine, multiplicativeInverse_multiplicativeInverse]

theorem sbox_injective : Function.Injective sbox :=
  Function.LeftInverse.injective (g := multiplicativeInverse ∘ invAffine) multiplicativeInverse_invAffine_sbox

@[simp] theorem invSbox_sbox (x : Byte) : invSbox (sbox x) = x :=
  sbox_injective (sbox_invSbox (sbox x))

theorem invSbox_eq (y : Byte) : invSbox y = multiplicativeInverse (invAffine y) := by
  rw [← multiplicativeInverse_invAffine_sbox (invSbox y), sbox_invSbox]

/-- Settles O20: SBOX is injective since the closed form of R73 undoes the affine transform of the inverse. -/
theorem sboxIsAffineOfInverse : Obligations.SboxIsAffineOfInverse :=
  ⟨sbox_eq_affine, fun _ _ h => sbox_injective h, sbox_ne_self_and_ne_complement⟩

/-- Settles O21: the table of R73 is a right inverse of SBOX, hence the left inverse that the closed form is. -/
theorem invSboxUndoesSbox : Obligations.InvSboxUndoesSbox :=
  fun x => ⟨invSbox_sbox x, sbox_invSbox x, invSbox_eq x⟩

end Sys2Proof.Proofs
end

section
/-! The shift with carry of the GF(2^128) unit (41_gf128_ghash.md R87).  Byte `k` of a block holds the integer's bits
from `8 * (15 - k)` on, so the bit shifted into the top of a byte is the low bit of the byte before it. -/

namespace Sys2Proof.Proofs

open Sys2Proof Sys2Proof.Machine

/-! ### Bits -/

theorem getLsbD_byteAt (b : Block) (k : Nat) {j : Nat} (hj : j < 8) :
    (byteAt b k).getLsbD j = b.getLsbD (8 * (15 - k) + j) := by
  unfold byteAt
  rw [BitVec.getLsbD_extractLsb', decide_eq_true hj, Bool.true_and]

theorem getLsbD_rightShiftWithCarry (b : Block) (j : Nat) : (rightShiftWithCarry b).1.getLsbD j = b.getLsbD (1 + j) :=
  BitVec.getLsbD_ushiftRight b 1 j

theorem getLsbD_byteAt_rightShiftWithCarry (b : Block) (k : Nat) {j : Nat} (hj : j < 8) :
    (byteAt (rightShiftWithCarry b).1 k).getLsbD j = b.getLsbD (8 * (15 - k) + (1 + j)) := by
  rw [getLsbD_byteAt _ k hj, getLsbD_rightShiftWithCarry, Nat.add_left_comm]

/-! ### Bytes -/

theorem rightShiftWithCarry_carry_eq_byteAt (b : Block) : (rightShiftWithCarry b).2 = (byteAt b 15).getLsbD 0 :=
  (getLsbD_byteAt b 15 (j := 0) (by decide)).symm

theorem byteAt_zero_rightShiftWithCarry (b : Block) : byteAt (rightShiftWithCarry b).1 0 = byteAt b 0 >>> 1 := by
  refine BitVec.eq_of_getLsbD_eq fun j hj => ?_
  rw [getLsbD_byteAt_rightShiftWithCarry b 0 hj, BitVec.getLsbD_ushiftRight]
  rcases Nat.lt_or_ge (1 + j) 8 with hlow | htop
  · rw [getLsbD_byteAt b 0 hlow]
  · rw [BitVec.getLsbD_of_ge _ _ htop, BitVec.getLsbD_of_ge b _ (by omega)]

theorem byteAt_succ_rightShiftWithCarry (b : Block) {k : Nat} (hk : k < 15) :
    byteAt (rightShiftWithCarry b).1 (k + 1) = (byteAt b (k + 1) >>> 1) ||| (byteAt b k <<< 7) := by
  refine BitVec.eq_of_getLsbD_eq fun j hj => ?_
  rw [getLsbD_byteAt_rightShiftWithCarry b (k + 1) hj, BitVec.getLsbD_or, BitVec.getLsbD_ushiftRight,
    BitVec.getLsbD_shiftLeft]
  rcases Nat.lt_or_ge (1 + j) 8 with hlow | htop
  · have hj7 : j < 7 := by omega
    simp [getLsbD_byteAt b (k + 1) hlow, hj7]
  · obtain rfl : j = 7 := by omega
    have hidx : 8 * (15 - (k + 1)) + (1 + 7) = 8 * (15 - k) + 0 := by omega
    rw [hidx, BitVec.getLsbD_of_ge (byteAt b (k + 1)) _ htop, ← getLsbD_byteAt b k (by decide)]
    simp

/-! ### Integers -/

theorem rightShiftWithCarry_carry_eq_mod_two (b : Block) : (rightShiftWithCarry b).2 = decide (int128 b % 2 = 1) :=
  Nat.testBit_zero b.toNat

theorem int128_rightShiftWithCarry (b : Block) : int128 (rightShiftWithCarry b).1 = int128 b / 2 :=
  (BitVec.toNat_ushiftRight b 1).trans (Nat.shiftRight_eq_div_pow b.toNat 1)

/-- Settles O22: the integer forms are those of a shift of the block, the byte forms follow bit by bit. -/
theorem rightShiftBytewise : Obligations.RightShiftBytewise := by
  intro b
  refine ⟨rightShiftWithCarry_carry_eq_byteAt b, rightShiftWithCarry_carry_eq_mod_two b,
    byteAt_zero_rightShiftWithCarry b, fun i hi hle => ?_, int128_rightShiftWithCarry b⟩
  obtain ⟨k, rfl⟩ := Nat.exists_eq_add_of_le' hi
  exact byteAt_succ_rightShiftWithCarry b hle

end Sys2Proof.Proofs
end

section
/-! The key scheduler (42_key_schedule.md R96 to R103): the pieces of the expansion, the loop that makes a word at each
index, the loop by groups, and CONFIG.  A new word reads only words before it, so appending more does not change it; and
after any number of groups the words are those of the loop at one index, stopped at the same place. -/

namespace Sys2Proof.Proofs

open Sys2Proof Sys2Proof.Machine Sys2Proof.Laws

/-! ### RotWord, SubWord and the round constants (R99 to R101) -/

theorem rotWord_eq_rotateLeft (w : Word) : rotWord w = w.rotateLeft 8 := rfl

/-- Byte 0 is the top byte, so the rotation moves byte `k + 1` to byte `k`. -/
theorem wordByte_rotWord (w : Word) {k : Nat} (hk : k < 4) : wordByte (rotWord w) k = wordByte w ((k + 1) % 4) := by
  refine BitVec.eq_of_getLsbD_eq fun j hj => ?_
  rw [rotWord_eq_rotateLeft, wordByte, wordByte, BitVec.getLsbD_extractLsb', BitVec.getLsbD_extractLsb',
    BitVec.getLsbD_rotateLeft]
  rcases Nat.lt_or_eq_of_le (Nat.le_of_lt_succ hk) with hupper | rfl
  · have hsource : 8 * (3 - (k + 1) % 4) + j = 8 * (3 - k) + j - 8 := by omega
    have hwithin : 8 * (3 - k) + j < 32 := by omega
    have hge : ¬ 8 * (3 - k) + j < 8 := by omega
    simp [hsource, hwithin, hge]
  · simp [hj]

theorem rotWord_be32 (b0 b1 b2 b3 : Byte) : rotWord (be32 b0 b1 b2 b3) = be32 b1 b2 b3 b0 := by
  obtain ⟨h0, h1, h2, h3⟩ := wordByte_be32 b0 b1 b2 b3
  obtain ⟨r0, r1, r2, r3⟩ := wordByte_be32 b1 b2 b3 b0
  refine word_ext fun k hk => ?_
  rw [wordByte_rotWord _ hk]
  interval_cases k
  · rw [h1, r0]
  · rw [h2, r1]
  · rw [h3, r2]
  · rw [h0, r3]

theorem subWord_be32 (b0 b1 b2 b3 : Byte) :
    subWord (be32 b0 b1 b2 b3) = be32 (sbox b0) (sbox b1) (sbox b2) (sbox b3) := by
  obtain ⟨h0, h1, h2, h3⟩ := wordByte_be32 b0 b1 b2 b3
  rw [subWord, h0, h1, h2, h3]

theorem rc_eq_multiply_two {g : Nat} (hg : 2 ≤ g) : rc g = multiply (rc (g - 1)) 2 := by
  obtain ⟨k, rfl⟩ := Nat.exists_eq_add_of_le' hg
  rfl

theorem rcon_values : (List.range 10).map (fun g => rcon (g + 1)) = [0x01000000, 0x02000000, 0x04000000, 0x08000000,
    0x10000000, 0x20000000, 0x40000000, 0x80000000, 0x1b000000, 0x36000000] := by decide

/-- Settles O26: RotWord and SubWord byte by byte; `rc` is the recurrence, and its first ten values are evaluated. -/
theorem keyWordPieces : Obligations.KeyWordPieces :=
  ⟨fun b0 b1 b2 b3 => ⟨rotWord_be32 b0 b1 b2 b3, subWord_be32 b0 b1 b2 b3⟩, rotWord_eq_rotateLeft, fun _ => rfl, rfl,
    fun _ hg _ => rc_eq_multiply_two hg, rcon_values⟩

/-! ### The loop at one index (R98, R102) -/

/-- The new word `i` reads words `i - nk` and `i - 1`. -/
theorem nextWord_append {nk i : Nat} {w : List Word} (hnk : 0 < nk) (hi : i - 1 < w.length) (v : List Word) :
    nextWord nk i (w ++ v) = nextWord nk i w := by
  unfold nextWord
  rw [List.getD_append w v 0 (i - nk) (by omega), List.getD_append w v 0 (i - 1) hi]

@[simp] theorem expandLoop_length (nk : Nat) (w : List Word) (n : Nat) :
    (expandLoop nk w n).length = w.length + n := by
  induction n with
  | zero => rfl
  | succ n ih => simp [expandLoop, ih, Nat.add_assoc]

/-- The loop appends only. -/
theorem getD_expandLoop_of_lt (nk : Nat) {w : List Word} {i : Nat} (hi : i < w.length) (n : Nat) :
    (expandLoop nk w n).getD i 0 = w.getD i 0 := by
  induction n with
  | zero => rfl
  | succ n ih => rw [expandLoop, List.getD_append _ _ _ _ (by simp; omega), ih]

/-- R102: every word from Nk on is the next word after those before it. -/
theorem getD_expandLoop {nk : Nat} {w : List Word} (hnk : 0 < nk) (hw : w.length = nk) {i n : Nat} (hle : nk ≤ i)
    (hi : i < nk + n) : (expandLoop nk w n).getD i 0 = nextWord nk i (expandLoop nk w n) := by
  induction n with
  | zero => omega
  | succ n ih =>
    have hlen : (expandLoop nk w n).length = nk + n := by rw [expandLoop_length, hw]
    rw [expandLoop, nextWord_append hnk (by omega)]
    rcases Nat.lt_or_ge i (nk + n) with hbefore | hlast
    · rw [List.getD_append _ _ _ _ (by omega)]
      exact ih hbefore
    · obtain rfl : i = nk + n := by omega
      rw [List.getD_append_right _ _ _ _ (by omega), hlen, Nat.sub_self, List.getD_cons_zero]

/-! ### KeyExpansion (R98, R102) -/

theorem keyWords_length (key : List Byte) (nk : Nat) : ((List.range nk).map (keyWord key)).length = nk := by simp

@[simp] theorem keyExpansion_length (key : List Byte) (nk : Nat) : (keyExpansion key nk).length = 4 * (nk + 7) := by
  rw [keyExpansion, expandLoop_length, keyWords_length]
  omega

theorem getD_keyExpansion_of_lt (key : List Byte) {nk i : Nat} (hi : i < nk) :
    (keyExpansion key nk).getD i 0 = keyWord key i := by
  rw [keyExpansion, getD_expandLoop_of_lt nk (by rwa [keyWords_length])]
  simp [List.getD_eq_getElem?_getD, hi]

theorem getD_keyExpansion (key : List Byte) {nk i : Nat} (hnk : 0 < nk) (hle : nk ≤ i) (hi : i < 4 * (nk + 7)) :
    (keyExpansion key nk).getD i 0 = nextWord nk i (keyExpansion key nk) :=
  getD_expandLoop hnk (keyWords_length key nk) hle (by omega)

/-- Settles O27: the loop starts from the key's words and makes each later word from those before it. -/
theorem keyExpansionRecurrence : Obligations.KeyExpansionRecurrence := by
  intro nk key hsize _
  have hnk : 0 < nk := by omega
  exact ⟨keyExpansion_length key nk, fun _ => getD_keyExpansion_of_lt key, fun _ => getD_keyExpansion key hnk⟩

/-! ### The loop by groups (R103) -/

theorem groupWord_eq_nextWord {nk j : Nat} (hj : j < nk) (g : Nat) (w : List Word) :
    groupWord nk g j w = nextWord nk (g * nk + j) w := by
  have hmod : (g * nk + j) % nk = j := by rw [Nat.mul_add_mod_self_right, Nat.mod_eq_of_lt hj]
  have hdiv (h0 : j = 0) : (g * nk + j) / nk = g := by rw [h0, Nat.add_zero, Nat.mul_div_cancel g (by omega)]
  unfold groupWord nextWord expansionTerm
  rw [hmod]
  split
  next h0 => rw [hdiv h0, BitVec.xor_assoc]
  next => split <;> rfl

/-- `g` groups of words stand, cut off at NW; `n` words of the next one are added. -/
theorem groupLoop_expandLoop (nk nw : Nat) (w : List Word) (g : Nat) {n : Nat} (hn : n ≤ nk) :
    groupLoop nk nw (g + 1) (expandLoop nk w (min (g * nk) (nw - nk))) n =
      expandLoop nk w (min (g * nk + n) (nw - nk)) := by
  induction n with
  | zero => rfl
  | succ n ih =>
    have hindex : (g + 1) * nk + n = nk + (g * nk + n) := by ring
    rw [groupLoop, ih (by omega), groupWord_eq_nextWord hn, hindex]
    split
    next hend =>
      congr 1
      omega
    next hroom =>
      rw [Nat.min_eq_left (by omega), Nat.min_eq_left (by omega)]
      rfl

theorem groupsLoop_eq_expandLoop (nk nw : Nat) (w : List Word) (g : Nat) :
    groupsLoop nk nw w g = expandLoop nk w (min (g * nk) (nw - nk)) := by
  induction g with
  | zero =>
    rw [Nat.zero_mul, Nat.zero_min]
    rfl
  | succ g ih => rw [groupsLoop, ih, groupLoop_expandLoop nk nw w g le_rfl, Nat.succ_mul]

/-- R103 for every positive Nk: the number of steps is rounded up, so the groups reach NW. -/
theorem keyExpansionByGroups_eq (key : List Byte) {nk : Nat} (hnk : 0 < nk) :
    keyExpansionByGroups key nk = keyExpansion key nk := by
  have hsteps := Nat.lt_div_mul_add hnk (a := 4 * (nk + 7) - nk + nk - 1)
  rw [keyExpansionByGroups, groupsLoop_eq_expandLoop, Nat.min_eq_right (by omega), keyExpansion]

/-- Settles O28, from the equality for every positive Nk. -/
theorem keyExpansionGroupByGroup : Obligations.KeyExpansionGroupByGroup :=
  fun _ key hsize _ => keyExpansionByGroups_eq key (by omega)

/-! ### CONFIG (R96) -/

theorem exec_config_of_some {kb : BitVec 16} {k : BitVec 2} (h : ksizeOfBits kb = some k) (s : State) :
    exec (.config kb) s = .next (complete .ok s.mem (configure k s)) := by
  rw [exec, execConfig, h]

theorem exec_config_of_none {kb : BitVec 16} (h : ksizeOfBits kb = none) (s : State) :
    exec (.config kb) s = .next (afterError .invalidKeySize s) := by
  rw [exec, execConfig, h]
  rfl

theorem ksizeOfBits_eq_none {kb : BitVec 16} (h128 : kb ≠ 128) (h192 : kb ≠ 192) (h256 : kb ≠ 256) :
    ksizeOfBits kb = none := by
  rw [ksizeOfBits, if_neg h128, if_neg h192, if_neg h256]

/-- Settles O29: a supported size is configured, any other is raised. -/
theorem configSetsKeySizeOrRefuses : Obligations.ConfigSetsKeySizeOrRefuses := by
  intro s kb
  refine ⟨fun k hk => ?_, fun h128 h192 h256 => exec_config_of_none (ksizeOfBits_eq_none h128 h192 h256) s⟩
  have hsize : ksizeOfBits kb = some k := by
    obtain ⟨rfl, rfl⟩ | ⟨rfl, rfl⟩ | ⟨rfl, rfl⟩ := hk <;> rfl
  exact ⟨_, exec_config_of_some hsize s, ⟨rfl, rfl, rfl, rfl⟩, rfl, rfl, fun i _ => wAt_replicate_zero i, rfl⟩

end Sys2Proof.Proofs
end

section
/-! The round function and the single-block cipher (43_round_function.md R117 to R127).  Each step of a round says what
each byte of its result is, so two steps undo each other byte by byte; the column mixes compose as their matrices do,
and IM times M is the identity.  With the column mix drawn to the addition of the key, every round of encryption is
substitution, shift and keyed addition, every round of decryption their inverses in the other order, and the two loops
cancel round by round. -/

namespace Sys2Proof.Proofs

open Sys2Proof Sys2Proof.Machine Sys2Proof.Laws

/-! ### AddRoundKey (R117) -/

theorem wordByte_colWord (s : Block) (c : Nat) {j : Nat} (hj : j < 4) :
    wordByte (colWord s c) j = byteAt s (4 * c + j) := by
  obtain ⟨h0, h1, h2, h3⟩ :=
    wordByte_be32 (byteAt s (4 * c)) (byteAt s (4 * c + 1)) (byteAt s (4 * c + 2)) (byteAt s (4 * c + 3))
  interval_cases j
  · exact h0
  · exact h1
  · exact h2
  · exact h3

theorem byteAt_addRoundKey (w : Vector Word Config.wRegs) (r : Nat) (s : Block) {k : Nat} (hk : k < 16) :
    byteAt (addRoundKey w r s) k = byteAt s k ^^^ wordByte (wAt w (4 * r + k / 4)) (k % 4) :=
  byteAt_blockOf _ hk

theorem colWord_addRoundKey (w : Vector Word Config.wRegs) (r : Nat) (s : Block) {c : Nat} (hc : c < 4) :
    colWord (addRoundKey w r s) c = colWord s c ^^^ wAt w (4 * r + c) := by
  refine word_ext fun j hj => ?_
  have hcol : (4 * c + j) / 4 = c := by omega
  have hrow : (4 * c + j) % 4 = j := by omega
  rw [wordByte_xor, wordByte_colWord _ c hj, wordByte_colWord _ c hj, byteAt_addRoundKey w r s (by omega), hcol, hrow]

@[simp] theorem addRoundKey_addRoundKey (w : Vector Word Config.wRegs) (r : Nat) (s : Block) :
    addRoundKey w r (addRoundKey w r s) = s := by
  refine block_ext fun k hk => ?_
  rw [byteAt_addRoundKey w r _ hk, byteAt_addRoundKey w r s hk, BitVec.xor_assoc, BitVec.xor_self, BitVec.xor_zero]

/-- Settles O31, from the bytes of a column and of a word. -/
theorem addRoundKeyOnColumns : Obligations.AddRoundKeyOnColumns :=
  fun w r s => ⟨fun _ hc => colWord_addRoundKey w r s hc, addRoundKey_addRoundKey w r s⟩

/-! ### SubBytes and ShiftRows (R118 to R121) -/

@[simp] theorem invSubBytes_subBytes (s : Block) : invSubBytes (subBytes s) = s := by
  refine block_ext fun k hk => ?_
  rw [invSubBytes, byteAt_blockOf _ hk, subBytes, byteAt_blockOf _ hk, invSbox_sbox]

@[simp] theorem subBytes_invSubBytes (s : Block) : subBytes (invSubBytes s) = s := by
  refine block_ext fun k hk => ?_
  rw [subBytes, byteAt_blockOf _ hk, invSubBytes, byteAt_blockOf _ hk, sbox_invSbox]

theorem bytesOf_blockOf (f : Nat → Byte) : bytesOf (blockOf f) = (List.range 16).map f :=
  List.map_congr_left fun _ hk => byteAt_blockOf f (List.mem_range.1 hk)

/-- Bytes taken at the indices `p` and then at the indices `q` are the block, where `p` undoes `q`. -/
theorem blockOf_byteAt_of_leftInverse {p q : Nat → Nat} (h : ∀ k, k < 16 → q k < 16 ∧ p (q k) = k) (s : Block) :
    (blockOf fun k => byteAt (blockOf fun i => byteAt s (p i)) (q k)) = s := by
  refine block_ext fun k hk => ?_
  obtain ⟨hlt, hpq⟩ := h k hk
  rw [byteAt_blockOf _ hk, byteAt_blockOf _ hlt, hpq]

@[simp] theorem invShiftRows_shiftRows (s : Block) : invShiftRows (shiftRows s) = s :=
  blockOf_byteAt_of_leftInverse (by decide) s

@[simp] theorem shiftRows_invShiftRows (s : Block) : shiftRows (invShiftRows s) = s :=
  blockOf_byteAt_of_leftInverse (by decide) s

/-- Settles O32: the lists are the index functions at 0 to 15, and each index function undoes the other. -/
theorem shiftRowsPermutations : Obligations.ShiftRowsPermutations :=
  fun s => ⟨bytesOf_blockOf _, bytesOf_blockOf _, invShiftRows_shiftRows s, shiftRows_invShiftRows s⟩

/-! ### MixColumns (R122, R123) -/

theorem multiply_xor_right (a b b' : Byte) : multiply a (b ^^^ b') = multiply a b ^^^ multiply a b' := by
  rw [multiply_comm, multiply_xor_left, multiply_comm b, multiply_comm b']

theorem multiply_assoc (a b c : Byte) : multiply (multiply a b) c = multiply a (multiply b c) := by
  rw [multiply_comm a b, multiply_right_comm, multiply_comm]

/-- A row of coefficients times a matrix given by its rows. -/
def rowTimesMatrix (row : List Byte) (m : List (List Byte)) : List Byte :=
  (List.range 4).map fun j =>
    multiply (row.getD 0 0) ((m.getD 0 []).getD j 0) ^^^ multiply (row.getD 1 0) ((m.getD 1 []).getD j 0) ^^^
    multiply (row.getD 2 0) ((m.getD 2 []).getD j 0) ^^^ multiply (row.getD 3 0) ((m.getD 3 []).getD j 0)

/-- The product of two matrices given by their rows. -/
def matrixProduct (m m' : List (List Byte)) : List (List Byte) :=
  (List.range 4).map fun i => rowTimesMatrix (m.getD i []) m'

def identityMatrix : List (List Byte) := [[1, 0, 0, 0], [0, 1, 0, 0], [0, 0, 1, 0], [0, 0, 0, 1]]

theorem byteAt_mixWith (m : List (List Byte)) (s : Block) {c i : Nat} (hc : c < 4) (hi : i < 4) :
    byteAt (mixWith m s) (4 * c + i) = rowTimesCol (m.getD i []) s c := by
  have hcol : (4 * c + i) / 4 = c := by omega
  have hrow : (4 * c + i) % 4 = i := by omega
  rw [mixWith, byteAt_blockOf _ (by omega), hcol, hrow]

/-- Blocks are equal where the rows of every column are. -/
theorem block_ext_columns {a b : Block} (h : ∀ c i, c < 4 → i < 4 → byteAt a (4 * c + i) = byteAt b (4 * c + i)) :
    a = b := by
  refine block_ext fun k hk => ?_
  have hsplit : 4 * (k / 4) + k % 4 = k := Nat.div_add_mod k 4
  simpa only [hsplit] using h (k / 4) (k % 4) (by omega) (Nat.mod_lt k (by decide))

theorem rowTimesCol_mixWith (row : List Byte) (m : List (List Byte)) (s : Block) {c : Nat} (hc : c < 4) :
    rowTimesCol row (mixWith m s) c = rowTimesCol (rowTimesMatrix row m) s c := by
  have h0 : byteAt (mixWith m s) (4 * c) = rowTimesCol (m.getD 0 []) s c := byteAt_mixWith m s hc (i := 0) (by decide)
  rw [rowTimesCol, h0, byteAt_mixWith m s hc (by decide), byteAt_mixWith m s hc (by decide),
    byteAt_mixWith m s hc (by decide)]
  simp only [rowTimesCol, rowTimesMatrix, List.range, List.range.loop, List.map_cons, List.map_nil, List.getD_cons_zero,
    List.getD_cons_succ, multiply_xor_left, multiply_xor_right, multiply_assoc]
  ac_rfl

theorem getD_matrixProduct (m m' : List (List Byte)) {i : Nat} (hi : i < 4) :
    (matrixProduct m m').getD i [] = rowTimesMatrix (m.getD i []) m' := by
  simp [matrixProduct, List.getD_eq_getElem?_getD, hi]

theorem mixWith_mixWith (m m' : List (List Byte)) (s : Block) :
    mixWith m (mixWith m' s) = mixWith (matrixProduct m m') s :=
  block_ext_columns fun c i hc hi => by
    rw [byteAt_mixWith m _ hc hi, rowTimesCol_mixWith _ m' s hc, byteAt_mixWith _ s hc hi, getD_matrixProduct m m' hi]

theorem mixWith_identityMatrix (s : Block) : mixWith identityMatrix s = s := by
  refine block_ext_columns fun c i hc hi => ?_
  rw [byteAt_mixWith identityMatrix s hc hi]
  interval_cases i <;> simp [identityMatrix, rowTimesCol]

theorem invMixMatrix_mixMatrix : matrixProduct invMixMatrix mixMatrix = identityMatrix := by decide

theorem mixMatrix_invMixMatrix : matrixProduct mixMatrix invMixMatrix = identityMatrix := by decide

@[simp] theorem invMixColumns_mixColumns (s : Block) : invMixColumns (mixColumns s) = s := by
  rw [invMixColumns, mixColumns, mixWith_mixWith, invMixMatrix_mixMatrix, mixWith_identityMatrix]

@[simp] theorem mixColumns_invMixColumns (s : Block) : mixColumns (invMixColumns s) = s := by
  rw [mixColumns, invMixColumns, mixWith_mixWith, mixMatrix_invMixMatrix, mixWith_identityMatrix]

/-! ### The loops (R125 to R127) -/

/-- How encryption enters the key of round `r`: after the column mix, which the first and the last key go without. -/
def mixThenAddKey (k : Schedule) (r : Nat) (st : Block) : Block :=
  if r = 0 ∨ r = k.nr then addRoundKey k.w r st else addRoundKey k.w r (mixColumns st)

/-- How decryption takes the key of round `r` off again. -/
def addKeyThenUnmix (k : Schedule) (r : Nat) (st : Block) : Block :=
  if r = 0 ∨ r = k.nr then addRoundKey k.w r st else invMixColumns (addRoundKey k.w r st)

@[simp] theorem addKeyThenUnmix_mixThenAddKey (k : Schedule) (r : Nat) (st : Block) :
    addKeyThenUnmix k r (mixThenAddKey k r st) = st := by
  unfold addKeyThenUnmix mixThenAddKey
  split <;> simp

@[simp] theorem mixThenAddKey_addKeyThenUnmix (k : Schedule) (r : Nat) (st : Block) :
    mixThenAddKey k r (addKeyThenUnmix k r st) = st := by
  unfold addKeyThenUnmix mixThenAddKey
  split <;> simp

theorem encRound_succ (k : Schedule) (n : Nat) (st : Block) :
    encRound k (n + 1) st = mixThenAddKey k (n + 1) (shiftRows (subBytes st)) := by
  simp [encRound, mixThenAddKey]

/-- The key of the round before is never the last one, so decryption leaves out the mix for key 0 only. -/
theorem decRound_succ {k : Schedule} {n : Nat} (hn : n < k.nr) (st : Block) :
    decRound k (n + 1) st = addKeyThenUnmix k n (invSubBytes (invShiftRows st)) := by
  simp [decRound, addKeyThenUnmix, hn.ne]

theorem encryptBlock_eq (k : Schedule) (x : Block) : encryptBlock k x = encRounds k k.nr (mixThenAddKey k 0 x) := by
  simp [encryptBlock, mixThenAddKey]

theorem decryptBlock_eq (k : Schedule) (x : Block) :
    decryptBlock k x = decRounds k k.nr (addKeyThenUnmix k k.nr x) := by
  simp [decryptBlock, addKeyThenUnmix]

/-- Iterations `n` down to 1 of decryption undo rounds 1 to `n`, up to the key on either side of them. -/
theorem decRounds_encRounds {k : Schedule} {n : Nat} (hn : n ≤ k.nr) (st : Block) :
    decRounds k n (addKeyThenUnmix k n (encRounds k n st)) = addKeyThenUnmix k 0 st := by
  induction n with
  | zero => rfl
  | succ n ih =>
    rw [encRounds, encRound_succ, addKeyThenUnmix_mixThenAddKey, decRounds, decRound_succ hn, invShiftRows_shiftRows,
      invSubBytes_subBytes, ih (Nat.le_of_succ_le hn)]

theorem encRounds_decRounds {k : Schedule} {n : Nat} (hn : n ≤ k.nr) (st : Block) :
    encRounds k n (mixThenAddKey k 0 (decRounds k n st)) = mixThenAddKey k n st := by
  induction n generalizing st with
  | zero => rfl
  | succ n ih =>
    rw [encRounds, decRounds, ih (Nat.le_of_succ_le hn), encRound_succ, decRound_succ hn, mixThenAddKey_addKeyThenUnmix,
      subBytes_invSubBytes, shiftRows_invShiftRows]

/-- Settles O34: the loops cancel round by round, and what is left is the first or the last key, added twice. -/
theorem blockCipherRoundTrip : Obligations.BlockCipherRoundTrip := by
  intro k x
  constructor
  · rw [decryptBlock_eq, encryptBlock_eq, decRounds_encRounds le_rfl, addKeyThenUnmix_mixThenAddKey]
  · rw [encryptBlock_eq, decryptBlock_eq, encRounds_decRounds le_rfl, mixThenAddKey_addKeyThenUnmix]

end Sys2Proof.Proofs
end

section
/-! The mode controllers' round trip (44_modes.md R142 to R155).  Every mode is one machine on blocks: a chaining
register and an input block give the block written and the register's next value.  A command that runs such a machine
leaves its outputs in DST; where the machine of M.DEC undoes the block of M.ENC and follows its register, the two runs
go through the same registers, so the outputs are the text. -/

namespace Sys2Proof.Proofs

open Sys2Proof Sys2Proof.Machine Sys2Proof.Laws

/-! ### A mode as a machine on blocks -/

/-- One block of a mode, of the chaining register and the input block: the block written, the register's next value. -/
structure ModeStep where
  out : Block → Block → Block
  next : Block → Block → Block

/-- The register before block `i` of the text `x`, from `v` on. -/
def ModeStep.register (m : ModeStep) (v : Block) (x : Nat → Block) : Nat → Block
  | 0     => v
  | i + 1 => m.next (m.register v x i) (x i)

/-- Block `i` of the output on the text `x`. -/
def ModeStep.output (m : ModeStep) (v : Block) (x : Nat → Block) (i : Nat) : Block := m.out (m.register v x i) (x i)

/-- From the same register, `d` gives back the block that `e` enciphered and keeps the same register. -/
structure ModeStep.Undoes (d e : ModeStep) : Prop where
  out_out : ∀ v x, d.out v (e.out v x) = x
  next_out : ∀ v x, d.next v (e.out v x) = e.next v x

theorem ModeStep.Undoes.register_eq {d e : ModeStep} (h : d.Undoes e) {v : Block} {x y : Nat → Block} {n : Nat}
    (hy : ∀ i, i < n → y i = e.output v x i) {i : Nat} (hi : i ≤ n) : d.register v y i = e.register v x i := by
  induction i with
  | zero => rfl
  | succ i ih => rw [register, register, ih (by omega), hy i hi, output, h.next_out]

theorem ModeStep.Undoes.output_eq {d e : ModeStep} (h : d.Undoes e) {v : Block} {x y : Nat → Block} {n : Nat}
    (hy : ∀ i, i < n → y i = e.output v x i) {i : Nat} (hi : i < n) : d.output v y i = x i := by
  rw [output, h.register_eq hy hi.le, hy i hi, output, h.out_out]

/-! ### The machines of the modes (R142 to R152) -/

/-- R142: ECB has no register; the value given for one is handed on. -/
def ecbEncMode (k : Schedule) : ModeStep := ⟨fun _ p => encryptBlock k p, fun v _ => v⟩

/-- R143. -/
def ecbDecMode (k : Schedule) : ModeStep := ⟨fun _ c => decryptBlock k c, fun v _ => v⟩

/-- R144: the register takes the block written. -/
def cbcEncMode (k : Schedule) : ModeStep := ⟨fun v p => encryptBlock k (p ^^^ v), fun v p => encryptBlock k (p ^^^ v)⟩

/-- R145: the register takes the block read. -/
def cbcDecMode (k : Schedule) : ModeStep := ⟨fun v c => decryptBlock k c ^^^ v, fun _ c => c⟩

/-- R146: the register takes the block written. -/
def cfbEncMode (k : Schedule) : ModeStep := ⟨fun v p => p ^^^ encryptBlock k v, fun v p => p ^^^ encryptBlock k v⟩

/-- R147: the register takes the block read. -/
def cfbDecMode (k : Schedule) : ModeStep := ⟨fun v c => c ^^^ encryptBlock k v, fun _ c => c⟩

/-- R148, R149: the register takes the keystream block. -/
def ofbMode (k : Schedule) : ModeStep := ⟨fun v x => x ^^^ encryptBlock k v, fun v _ => encryptBlock k v⟩

/-- R151, R152: the register is the counter. -/
def ctrMode (k : Schedule) : ModeStep := ⟨fun v x => x ^^^ encryptBlock k v, fun v _ => (inc128 v).1⟩

@[simp] theorem decryptBlock_encryptBlock (k : Schedule) (x : Block) : decryptBlock k (encryptBlock k x) = x := by
  obtain ⟨h, -⟩ := blockCipherRoundTrip k x
  exact h

theorem ecbDecMode_undoes (k : Schedule) : (ecbDecMode k).Undoes (ecbEncMode k) :=
  ⟨fun _ => decryptBlock_encryptBlock k, fun _ _ => rfl⟩

theorem cbcDecMode_undoes (k : Schedule) : (cbcDecMode k).Undoes (cbcEncMode k) :=
  ⟨fun v x => by simp [cbcDecMode, cbcEncMode], fun _ _ => rfl⟩

theorem cfbDecMode_undoes (k : Schedule) : (cfbDecMode k).Undoes (cfbEncMode k) :=
  ⟨fun v x => xor_cancel_right x (encryptBlock k v), fun _ _ => rfl⟩

theorem ofbMode_undoes (k : Schedule) : (ofbMode k).Undoes (ofbMode k) :=
  ⟨fun v x => xor_cancel_right x (encryptBlock k v), fun _ _ => rfl⟩

theorem ctrMode_undoes (k : Schedule) : (ctrMode k).Undoes (ctrMode k) :=
  ⟨fun v x => xor_cancel_right x (encryptBlock k v), fun _ _ => rfl⟩

/-! ### When a mode command is ready (R199) -/

theorem ready_chain_iff {n : Word} {src dst iv : Desc} {s : State} :
    Ready (.cbcEnc n src dst iv) s ↔ Ready (.ecbEnc n src dst) s ∧ iv.len = 16 ∧ InRange iv := by
  simp only [Ready, AddressesPass, LengthsPass, KeyStateOk, LengthsOk, GcmLengthsOk, RangesOk, usedBuffers, OverlapOk,
    CounterOk, List.forall_mem_cons, List.not_mem_nil, false_implies, implies_true, and_true, true_and]
  tauto

theorem ready_ctr_iff {n : Word} {src dst iv : Desc} {s : State} :
    Ready (.ctrEnc n src dst iv) s ↔ Ready (.cbcEnc n src dst iv) s ∧ CountersFit n iv s := by
  simp only [Ready, AddressesPass, LengthsPass, KeyStateOk, LengthsOk, GcmLengthsOk, RangesOk, usedBuffers, OverlapOk,
    CounterOk, and_true, and_assoc]

/-- The descriptors' part of a mode's checks. -/
theorem text_of_ready {n : Word} {src dst : Desc} {s : State} (h : Ready (.ecbEnc n src dst) s) :
    TextLens n src dst ∧ InRange dst ∧ Apart src dst := by
  obtain ⟨⟨⟨-, -, hlens⟩, -, hranges⟩, hap, -⟩ := h
  exact ⟨hlens, hranges dst (by simp [usedBuffers]), hap⟩

/-- The output of a command that was ready, as the text of the next one. -/
theorem ready_next {n : Word} {src dst dst2 : Desc} {s t : State} (h : Ready (.ecbEnc n src dst) s)
    (hctx : SameContext s t) (hlen : dst2.len = dst.len) (hrange : InRange dst2) (hap : Apart dst dst2) :
    Ready (.ecbEnc n dst dst2) t := by
  obtain ⟨⟨-, hdst⟩, hdstRange, -⟩ := text_of_ready h
  obtain ⟨⟨⟨hksize, hkeyed, -⟩, -⟩, -⟩ := h
  obtain ⟨eksize, ekeyvalid, -⟩ := hctx
  refine ⟨⟨⟨eksize ▸ hksize, ekeyvalid.trans hkeyed, hdst, hlen ▸ hdst⟩, trivial, ?_⟩, hap, trivial⟩
  simp [RangesOk, usedBuffers, hdstRange, hrange]

/-! ### Commands that run a machine -/

/-- The iteration `step` is block `i` of the machine `m`, with the register `reg` of the work; IDX plays no part. -/
structure Realizes (m : ModeStep) (reg : Work → Block) (src dst : Desc) (step : Nat → Work → Work) : Prop where
  mem_eq : ∀ i j w, (step i { w with idx := j }).mem =
    writeBlock w.mem (blockAddr dst i) (m.out (reg w) (readBlock w.mem (blockAddr src i)))
  reg_eq : ∀ i j w, reg (step i { w with idx := j }) = m.next (reg w) (readBlock w.mem (blockAddr src i))

/-- R140: the loop over blocks leaves the machine's outputs in DST, in place too. -/
theorem forBlocks_output {m : ModeStep} {reg : Work → Block} {n : Word} {src dst : Desc} {step : Nat → Work → Work}
    {wk : Work} (hstep : Realizes m reg src dst step) (hwf : Memory.wf wk.mem = true)
    (hlens : TextLens n src dst) (hrange : InRange dst) (hap : Apart src dst) :
    Memory.wf (forBlocks n.toNat step wk).mem = true ∧
    (∀ i, i < n.toNat → readBlock (forBlocks n.toNat step wk).mem (blockAddr dst i) =
      m.output (reg wk) (fun j => readBlock wk.mem (blockAddr src j)) i) ∧
    ∀ a, ¬ InBuffer dst a → readByte (forBlocks n.toNat step wk).mem a = readByte wk.mem a := by
  obtain ⟨hsrc, hdst⟩ := hlens
  obtain ⟨hwf', -, hout, hframe⟩ := forBlocks_text (m := wk.mem) (body := step)
    (m.output (reg wk) fun j => readBlock wk.mem (blockAddr src j))
    (fun i w => reg w = m.register (reg wk) (fun j => readBlock wk.mem (blockAddr src j)) i)
    hwf rfl hsrc hdst hrange hap rfl fun i w _ hreg hread => by
      rw [hstep.mem_eq, hstep.reg_eq, hreg, hread]
      exact ⟨rfl, rfl⟩
  exact ⟨hwf', hout, hframe⟩

/-- The command `i` runs the machine `m` from the register value `v` over the `n` blocks of SRC, into DST. -/
structure RunsMode (i : Instr) (n : Word) (src dst : Desc) (m : Schedule → ModeStep) (v : Block) (s : State) : Prop where
  ready_of_ok : ∀ t, exec i s = .next t → t.last = 0 → Ready i s
  ready_text : Ready i s → Ready (.ecbEnc n src dst) s
  completes : Memory.wf s.mem = true → Ready i s →
    ∃ t, exec i s = .next t ∧ CompletedInto dst s t ∧ Memory.wf t.mem = true ∧
      ∀ j, j < n.toNat → bufBlock t dst j = (m (scheduleOf s)).output v (bufBlock s src) j

theorem code_eq_zero_iff (r : ResultCode) : r.code = 0 ↔ r = .ok := by
  cases r <;> decide

/-- A cipher command whose checks never answer OK ends with OK only when they pass. -/
theorem checks_pass_of_last_zero {checks : List (Bool × ResultCode)} {body : Schedule → Work → Work × ResultCode}
    {s t : State} (hcodes : ∀ c ∈ checks, c.2 ≠ .ok) (h : runCipher checks body s = .next t) (hlast : t.last = 0) :
    firstFailure checks = none := by
  obtain ⟨r, hr, rfl⟩ | ⟨hpass, -⟩ := runCipher_cases h
  · exact absurd ((code_eq_zero_iff r).1 hlast) (hcodes _ (firstFailure_some hr))
  · exact hpass

/-- A command made of checks and the loop over a machine's iterations runs the machine. -/
theorem RunsMode.of_runCipher {i : Instr} {n : Word} {src dst : Desc} {m : Schedule → ModeStep} {v : Block} {s : State}
    {checks : List (Bool × ResultCode)} {load : Work → Work} {step : Schedule → Nat → Work → Work} (reg : Work → Block)
    (hexec : exec i s = runCipher checks (returnOk fun k wk => forBlocks n.toNat (step k) (load wk)) s)
    (hcodes : ∀ c ∈ checks, c.2 ≠ .ok) (hready : firstFailure checks = none ↔ Ready i s)
    (htext : Ready i s → Ready (.ecbEnc n src dst) s) (hstep : ∀ k, Realizes (m k) reg src dst (step k))
    (hmem : (load (workOf s)).mem = s.mem) (hreg : reg (load (workOf s)) = v) : RunsMode i n src dst m v s where
  ready_of_ok t ht hlast := hready.1 (checks_pass_of_last_zero hcodes (hexec ▸ ht) hlast)
  ready_text := htext
  completes hwf hr := by
    obtain ⟨hlens, hrange, hap⟩ := text_of_ready (htext hr)
    obtain ⟨hwf', hout, hframe⟩ := forBlocks_output (hstep (scheduleOf s)) (hmem ▸ hwf) hlens hrange hap
    rw [hmem] at hout hframe
    rw [hreg] at hout
    exact ⟨_, hexec.trans (runCipher_runs (hready.2 hr) _ s), ⟨⟨rfl, rfl, rfl, rfl⟩, ⟨rfl, rfl, rfl⟩, hframe⟩, hwf', hout⟩

/-! ### The iterations of the modes realize their machines -/

theorem ecbEncStep_realizes (k : Schedule) (src dst : Desc) :
    Realizes (ecbEncMode k) (fun _ => 0) src dst (ecbEncStep k src dst) := ⟨fun _ _ _ => rfl, fun _ _ _ => rfl⟩

theorem ecbDecStep_realizes (k : Schedule) (src dst : Desc) :
    Realizes (ecbDecMode k) (fun _ => 0) src dst (ecbDecStep k src dst) := ⟨fun _ _ _ => rfl, fun _ _ _ => rfl⟩

theorem cbcEncStep_realizes (k : Schedule) (src dst : Desc) :
    Realizes (cbcEncMode k) (fun w => w.cv) src dst (cbcEncStep k src dst) := ⟨fun _ _ _ => rfl, fun _ _ _ => rfl⟩

theorem cbcDecStep_realizes (k : Schedule) (src dst : Desc) :
    Realizes (cbcDecMode k) (fun w => w.cv) src dst (cbcDecStep k src dst) := ⟨fun _ _ _ => rfl, fun _ _ _ => rfl⟩

theorem cfbEncStep_realizes (k : Schedule) (src dst : Desc) :
    Realizes (cfbEncMode k) (fun w => w.cv) src dst (cfbEncStep k src dst) := ⟨fun _ _ _ => rfl, fun _ _ _ => rfl⟩

theorem cfbDecStep_realizes (k : Schedule) (src dst : Desc) :
    Realizes (cfbDecMode k) (fun w => w.cv) src dst (cfbDecStep k src dst) := ⟨fun _ _ _ => rfl, fun _ _ _ => rfl⟩

theorem ofbStep_realizes (k : Schedule) (src dst : Desc) :
    Realizes (ofbMode k) (fun w => w.cv) src dst (ofbStep k src dst) := ⟨fun _ _ _ => rfl, fun _ _ _ => rfl⟩

theorem ctrStep_realizes (k : Schedule) (src dst : Desc) :
    Realizes (ctrMode k) (fun w => w.ctrb) src dst (ctrStep k src dst) := ⟨fun _ _ _ => rfl, fun _ _ _ => rfl⟩

/-! ### The ten commands run their machines -/

theorem ecbChecks_codes (n : Word) (src dst : Desc) (s : State) : ∀ c ∈ ecbChecks n src dst s, c.2 ≠ .ok := by
  simp [ecbChecks, keyChecks]

theorem chainChecks_codes (n : Word) (src dst iv : Desc) (s : State) : ∀ c ∈ chainChecks n src dst iv s, c.2 ≠ .ok := by
  simp [chainChecks, keyChecks]

theorem ctrChecks_codes (n : Word) (src dst iv : Desc) (s : State) : ∀ c ∈ ctrChecks n src dst iv s, c.2 ≠ .ok := by
  simp [ctrChecks, chainChecks, keyChecks]

section
variable {n : Word} {src dst iv : Desc} {s : State} {i : Instr} {m : Schedule → ModeStep}
  {step : Schedule → Nat → Work → Work}

/-- The ECB commands: no register is loaded. -/
theorem RunsMode.of_ecb
    (hexec : exec i s = runCipher (ecbChecks n src dst s) (returnOk fun k wk => forBlocks n.toNat (step k) wk) s)
    (hready : Ready (.ecbEnc n src dst) s ↔ Ready i s) (hstep : ∀ k, Realizes (m k) (fun _ => 0) src dst (step k)) :
    RunsMode i n src dst m 0 s :=
  .of_runCipher (load := id) (fun _ => 0) hexec (ecbChecks_codes n src dst s)
    ((ecbChecks_pass_iff n src dst s).trans hready) hready.2 hstep rfl rfl

/-- The commands that load the IV into CV. -/
theorem RunsMode.of_chain
    (hexec : exec i s =
      runCipher (chainChecks n src dst iv s) (returnOk fun k wk => forBlocks n.toNat (step k) (loadCv iv wk)) s)
    (hready : Ready (.cbcEnc n src dst iv) s ↔ Ready i s)
    (hstep : ∀ k, Realizes (m k) (fun w => w.cv) src dst (step k)) : RunsMode i n src dst m (bufBlock s iv 0) s :=
  .of_runCipher (fun w => w.cv) hexec (chainChecks_codes n src dst iv s)
    ((chainChecks_pass_iff n src dst iv s).trans hready) (fun h => (ready_chain_iff.1 (hready.2 h)).1) hstep rfl rfl

/-- The CTR commands: the IV is the first counter. -/
theorem RunsMode.of_ctr
    (hexec : exec i s =
      runCipher (ctrChecks n src dst iv s) (returnOk fun k wk => forBlocks n.toNat (step k) (loadCtrb iv wk)) s)
    (hready : Ready (.ctrEnc n src dst iv) s ↔ Ready i s)
    (hstep : ∀ k, Realizes (m k) (fun w => w.ctrb) src dst (step k)) : RunsMode i n src dst m (bufBlock s iv 0) s :=
  .of_runCipher (fun w => w.ctrb) hexec (ctrChecks_codes n src dst iv s)
    ((ctrChecks_pass_iff n src dst iv s).trans hready)
    (fun h => (ready_chain_iff.1 (ready_ctr_iff.1 (hready.2 h)).1).1) hstep rfl rfl

theorem ecbEnc_runs : RunsMode (.ecbEnc n src dst) n src dst ecbEncMode 0 s :=
  .of_ecb rfl .rfl fun k => ecbEncStep_realizes k src dst

theorem ecbDec_runs : RunsMode (.ecbDec n src dst) n src dst ecbDecMode 0 s :=
  .of_ecb rfl .rfl fun k => ecbDecStep_realizes k src dst

theorem cbcEnc_runs : RunsMode (.cbcEnc n src dst iv) n src dst cbcEncMode (bufBlock s iv 0) s :=
  .of_chain rfl .rfl fun k => cbcEncStep_realizes k src dst

theorem cbcDec_runs : RunsMode (.cbcDec n src dst iv) n src dst cbcDecMode (bufBlock s iv 0) s :=
  .of_chain rfl .rfl fun k => cbcDecStep_realizes k src dst

theorem cfbEnc_runs : RunsMode (.cfbEnc n src dst iv) n src dst cfbEncMode (bufBlock s iv 0) s :=
  .of_chain rfl .rfl fun k => cfbEncStep_realizes k src dst

theorem cfbDec_runs : RunsMode (.cfbDec n src dst iv) n src dst cfbDecMode (bufBlock s iv 0) s :=
  .of_chain rfl .rfl fun k => cfbDecStep_realizes k src dst

theorem ofbEnc_runs : RunsMode (.ofbEnc n src dst iv) n src dst ofbMode (bufBlock s iv 0) s :=
  .of_chain rfl .rfl fun k => ofbStep_realizes k src dst

theorem ofbDec_runs : RunsMode (.ofbDec n src dst iv) n src dst ofbMode (bufBlock s iv 0) s :=
  .of_chain rfl .rfl fun k => ofbStep_realizes k src dst

theorem ctrEnc_runs : RunsMode (.ctrEnc n src dst iv) n src dst ctrMode (bufBlock s iv 0) s :=
  .of_ctr rfl .rfl fun k => ctrStep_realizes k src dst

theorem ctrDec_runs : RunsMode (.ctrDec n src dst iv) n src dst ctrMode (bufBlock s iv 0) s :=
  .of_ctr rfl .rfl fun k => ctrStep_realizes k src dst

end

/-! ### The round trip (R155) -/

/-- R140: buffers of `n` whole blocks with equal blocks hold the same bytes. -/
theorem bufBytes_eq_of_bufBlock {s t : State} {d e : Desc} {n : Nat} (hd : d.len.toNat = 16 * n)
    (he : e.len.toNat = 16 * n) (h : ∀ i, i < n → bufBlock s d i = bufBlock t e i) : bufBytes s d = bufBytes t e := by
  rw [bufBytes, bufBytes, hd, he]
  refine memRead_congr fun j hj => ?_
  have hmod : j % 16 < 16 := Nat.mod_lt j (by decide)
  have hbyte := congrArg (byteAt · (j % 16)) (h (j / 16) (by omega))
  simpa only [bufBlock, byteAt_readBlock _ _ hmod, Nat.add_assoc, Nat.div_add_mod] using hbyte

theorem scheduleOf_eq {s t : State} (h : SameContext s t) : scheduleOf t = scheduleOf s := by
  obtain ⟨hksize, -, hw⟩ := h
  simp [scheduleOf, hksize, hw]

/-- A command that ended with OK was ready, so it completed. -/
theorem RunsMode.completed {i : Instr} {n : Word} {src dst : Desc} {m : Schedule → ModeStep} {v : Block} {s t : State}
    (h : RunsMode i n src dst m v s) (hwf : Memory.wf s.mem = true) (hexec : exec i s = .next t) (hlast : t.last = 0) :
    Ready i s ∧ SameContext s t ∧ Memory.wf t.mem = true ∧
      ∀ j, j < n.toNat → bufBlock t dst j = (m (scheduleOf s)).output v (bufBlock s src) j := by
  have hready := h.ready_of_ok t hexec hlast
  obtain ⟨t', hexec', ⟨-, hctx, -⟩, hwf', hout⟩ := h.completes hwf hready
  obtain rfl : t = t' := Host.Outcome.next.inj (hexec.symm.trans hexec')
  exact ⟨hready, hctx, hwf', hout⟩

/-- The machine of the second command undoes that of the first, from the same register value. -/
theorem RunsMode.roundTrip {enc dec : Instr} {n : Word} {src dst dst2 : Desc} {e d : Schedule → ModeStep} {v : Block}
    {s t : State} (he : RunsMode enc n src dst e v s) (hd : RunsMode dec n dst dst2 d v t)
    (hundo : ∀ k, (d k).Undoes (e k)) (hwf : Memory.wf s.mem = true) (hexec : exec enc s = .next t) (hlast : t.last = 0)
    (hready : Ready enc s → SameContext s t → Ready dec t) :
    ∃ u, exec dec t = .next u ∧ u.last = 0 ∧ bufBytes u dst2 = bufBytes s src := by
  obtain ⟨hencReady, hctx, hwf', hcipher⟩ := he.completed hwf hexec hlast
  have hdecReady := hready hencReady hctx
  obtain ⟨u, hu, ⟨⟨hulast, -⟩, -⟩, -, hplain⟩ := hd.completes hwf' hdecReady
  obtain ⟨⟨hsrc, -⟩, -⟩ := text_of_ready (he.ready_text hencReady)
  obtain ⟨⟨-, hdst2⟩, -⟩ := text_of_ready (hd.ready_text hdecReady)
  refine ⟨u, hu, hulast, bufBytes_eq_of_bufBlock hdst2 hsrc fun i hi => ?_⟩
  rw [hplain i hi, scheduleOf_eq hctx]
  exact (hundo (scheduleOf s)).output_eq hcipher hi

section
variable {n : Word} {src dst dst2 iv iv2 : Desc} {s t : State}

theorem ready_next_chain (h : Ready (.cbcEnc n src dst iv) s) (hctx : SameContext s t) (hlen : dst2.len = dst.len)
    (hrange : InRange dst2) (hap : Apart dst dst2) (hivlen : iv2.len = 16) (hivrange : InRange iv2) :
    Ready (.cbcEnc n dst dst2 iv2) t :=
  ready_chain_iff.2 ⟨ready_next (ready_chain_iff.1 h).1 hctx hlen hrange hap, hivlen, hivrange⟩

theorem ready_next_ctr (h : Ready (.ctrEnc n src dst iv) s) (hctx : SameContext s t) (hlen : dst2.len = dst.len)
    (hrange : InRange dst2) (hap : Apart dst dst2) (hivlen : iv2.len = 16) (hivrange : InRange iv2)
    (hiv : bufBlock t iv2 0 = bufBlock s iv 0) : Ready (.ctrEnc n dst dst2 iv2) t := by
  obtain ⟨hchain, hfit⟩ := ready_ctr_iff.1 h
  refine ready_ctr_iff.2 ⟨ready_next_chain hchain hctx hlen hrange hap hivlen hivrange, ?_⟩
  rwa [CountersFit, hiv]

end

/-- Settles O47: in each mode the machine of DEC undoes that of ENC, and the IV is the same register value. -/
theorem modesRoundTrip : Obligations.ModesRoundTrip := by
  constructor
  · intro s t n src dst dst2 hwf hexec hlast hlen hrange hap
    exact ecbEnc_runs.roundTrip ecbDec_runs ecbDecMode_undoes hwf hexec hlast fun h hctx =>
      ready_next h hctx hlen hrange hap
  · intro s t n src dst iv dst2 iv2 enc dec hmode hwf hexec hlast hlen hrange hap hivlen hivrange hiv
    have hchain (h : Ready (.cbcEnc n src dst iv) s) (hctx : SameContext s t) : Ready (.cbcEnc n dst dst2 iv2) t :=
      ready_next_chain h hctx hlen hrange hap hivlen hivrange
    simp only [List.mem_cons, Prod.mk.injEq, List.not_mem_nil, or_false] at hmode
    obtain ⟨rfl, rfl⟩ | ⟨rfl, rfl⟩ | ⟨rfl, rfl⟩ | ⟨rfl, rfl⟩ := hmode
    · exact cbcEnc_runs.roundTrip (hiv ▸ cbcDec_runs) cbcDecMode_undoes hwf hexec hlast hchain
    · exact cfbEnc_runs.roundTrip (hiv ▸ cfbDec_runs) cfbDecMode_undoes hwf hexec hlast hchain
    · exact ofbEnc_runs.roundTrip (hiv ▸ ofbDec_runs) ofbMode_undoes hwf hexec hlast hchain
    · exact ctrEnc_runs.roundTrip (hiv ▸ ctrDec_runs) ctrMode_undoes hwf hexec hlast fun h hctx =>
        ready_next_ctr h hctx hlen hrange hap hivlen hivrange hiv

end Sys2Proof.Proofs
end

section
/-! The priority table (60_exceptions.md R199): `prioritySteps` is the table in the predicates of Safety.lean, and each
list of checks of Operands.lean reports the first step of it that fails. -/

namespace Sys2Proof.Proofs

open Sys2Proof Sys2Proof.Machine Sys2Proof.Laws

/-! ### The priority table (R199) -/

/-- The steps of R199 after decoding, for a command other than CONFIG: what each demands and the code it gives. -/
def prioritySteps (i : Instr) (s : State) : List (Prop × ResultCode) :=
  [ (s.ksize ≠ 0,    .notConfigured),
    (KeyStateOk i s, if isCipher i then .keyNotLoaded else .keyLocked),
    (LengthsOk i s,  .bufferLengthMismatch),
    (GcmLengthsOk i, .lengthRange),
    (RangesOk i,     .addressRange),
    (OverlapOk i,    .bufferOverlap),
    (CounterOk i s,  .counterWrap) ]

/-- The code of the first step that fails, none when every step passes. -/
inductive Reports : List (Prop × ResultCode) → Option ResultCode → Prop where
  | nil : Reports [] none
  | fails {p : Prop} {r : ResultCode} {rows : List (Prop × ResultCode)} : ¬ p → Reports ((p, r) :: rows) (some r)
  | passes {p : Prop} {r : ResultCode} {rows : List (Prop × ResultCode)} {o : Option ResultCode} :
      p → Reports rows o → Reports ((p, r) :: rows) o

section
variable {p : Prop} {r : ResultCode} {rows : List (Prop × ResultCode)} {o : Option ResultCode}

theorem Reports.none_of_nil (h : Reports [] o) : o = none := by
  cases h
  rfl

theorem Reports.code (h : Reports ((p, r) :: rows) o) (hp : ¬ p) : o = some r := by
  cases h with
  | fails _ => rfl
  | passes hp' _ => exact absurd hp' hp

theorem Reports.rest (h : Reports ((p, r) :: rows) o) (hp : p) : Reports rows o := by
  cases h with
  | fails hp' => exact absurd hp hp'
  | passes _ hrows => exact hrows

/-- A check that fails when its step does; it need say so only after the steps before. -/
theorem Reports.check {bad : Bool} {cs : List (Bool × ResultCode)} (hbad : bad = false ↔ p)
    (h : p → Reports rows (firstFailure cs)) : Reports ((p, r) :: rows) (firstFailure ((bad, r) :: cs)) := by
  cases bad with
  | false => exact .passes (hbad.1 rfl) (h (hbad.1 rfl))
  | true => exact .fails fun hp => absurd (hbad.2 hp) (by decide)

end

/-! ### Each list of checks reports the table's first failure -/

theorem not_configured_eq_false_iff (s : State) : (!configured s) = false ↔ s.ksize ≠ 0 := by
  simp [configured_iff]

theorem tooLong_eq_false_iff (d : Desc) : tooLong d = false ↔ d.len.toNat ≤ 536870911 := by
  simp [tooLong, Config.gcmMaxBytes]

/-- R199 for a cipher command, whose checks are those of the steps up to the ones that always pass for it. -/
theorem Reports.of_cipher {i : Instr} {s : State} {cs : List (Bool × ResultCode)}
    {lens gcmLens ranges overlap counter : Bool}
    (hcs : firstFailure cs = firstFailure (keyChecks s ++ [(lens, .bufferLengthMismatch), (gcmLens, .lengthRange),
      (ranges, .addressRange), (overlap, .bufferOverlap), (counter, .counterWrap)]))
    (hcipher : isCipher i = true) (hkey : KeyStateOk i s ↔ s.keyvalid = true) (hlens : lens = false ↔ LengthsOk i s)
    (hgcm : gcmLens = false ↔ GcmLengthsOk i) (hranges : ranges = false ↔ RangesOk i)
    (hoverlap : overlap = false ↔ OverlapOk i) (hcounter : counter = false ↔ CounterOk i s) :
    Reports (prioritySteps i s) (firstFailure cs) := by
  rw [hcs, prioritySteps, if_pos hcipher]
  exact .check (not_configured_eq_false_iff s) fun _ => .check (by rw [hkey, Bool.not_eq_false']) fun _ =>
    .check hlens fun _ => .check hgcm fun _ => .check hranges fun _ => .check hoverlap fun _ =>
    .check hcounter fun _ => .nil

theorem blockChecks_report (src dst : Desc) (s : State) :
    Reports (prioritySteps (.encblk src dst) s) (firstFailure (blockChecks src dst s)) :=
  .of_cipher (gcmLens := false) (counter := false) rfl rfl .rfl
    (by simp [LengthsOk, badLen_eq_false_iff, len_sixteen_iff]) (by simp [GcmLengthsOk])
    (by simp [RangesOk, usedBuffers, outOfRange_eq_false_iff]) (badOverlap_eq_false_iff src dst) (by simp [CounterOk])

theorem ecbChecks_report (n : Word) (src dst : Desc) (s : State) :
    Reports (prioritySteps (.ecbEnc n src dst) s) (firstFailure (ecbChecks n src dst s)) :=
  .of_cipher (gcmLens := false) (counter := false) rfl rfl .rfl
    (by simp [LengthsOk, TextLens, badLen_eq_false_iff]) (by simp [GcmLengthsOk])
    (by simp [RangesOk, usedBuffers, outOfRange_eq_false_iff]) (badOverlap_eq_false_iff src dst) (by simp [CounterOk])

theorem chainChecks_report (n : Word) (src dst iv : Desc) (s : State) :
    Reports (prioritySteps (.cbcEnc n src dst iv) s) (firstFailure (chainChecks n src dst iv s)) :=
  .of_cipher (gcmLens := false) (counter := false) rfl rfl .rfl
    (by simp [LengthsOk, TextLens, badLen_eq_false_iff, len_sixteen_iff]) (by simp [GcmLengthsOk])
    (by simp [RangesOk, usedBuffers, outOfRange_eq_false_iff, and_assoc]) (badOverlap_eq_false_iff src dst)
    (by simp [CounterOk])

theorem ctrChecks_report (n : Word) (src dst iv : Desc) (s : State) :
    Reports (prioritySteps (.ctrEnc n src dst iv) s) (firstFailure (ctrChecks n src dst iv s)) :=
  .of_cipher (gcmLens := false) rfl rfl .rfl
    (by simp [LengthsOk, TextLens, badLen_eq_false_iff, len_sixteen_iff]) (by simp [GcmLengthsOk])
    (by simp [RangesOk, usedBuffers, outOfRange_eq_false_iff, and_assoc]) (badOverlap_eq_false_iff src dst)
    (counterWraps_eq_false_iff n iv s)

theorem gcmChecks_report (src dst iv aad tag : Desc) (s : State) :
    Reports (prioritySteps (.gcmEnc src dst iv aad tag) s) (firstFailure (gcmChecks src dst iv aad tag s)) :=
  .of_cipher (counter := false) rfl rfl .rfl
    (by simp [LengthsOk, badLen_eq_false_iff, len_sixteen_iff, len_twelve_iff, BitVec.toNat_inj, and_assoc])
    (by simp [GcmLengthsOk, tooLong_eq_false_iff])
    (by simp [RangesOk, usedBuffers, outOfRange_eq_false_iff, and_assoc]) (badOverlap_eq_false_iff src dst)
    (by simp [CounterOk])

/-- INITKEYS: KEYBYTES is the length that step 4 demands once the key size is configured. -/
theorem initkeysChecks_report (src : Desc) (s : State) :
    Reports (prioritySteps (.initkeys src) s) (firstFailure (initkeysChecks src s)) :=
  .check (not_configured_eq_false_iff s) fun hksize => .check .rfl fun _ =>
    .check (by rw [badLen_eq_false_iff, keybytesOf, nkOf, if_neg hksize, LengthsOk]) fun _ => .passes trivial <|
    .check (by simp [RangesOk, usedBuffers, outOfRange_eq_false_iff]) fun _ => .passes trivial <| .passes trivial .nil

end Sys2Proof.Proofs
end

section
/-! Result codes (60_exceptions.md R195 to R210).  `exec_ends` says once how any command ends: the first of its checks
that fails is raised, and a command whose checks pass ends with OK or, for GCM.DEC, with TagMismatch.
`checksOf_report` says that those checks report the first failing step of R199's table, `prioritySteps`. -/

namespace Sys2Proof.Proofs

open Sys2Proof Sys2Proof.Machine Sys2Proof.Laws

/-! ### How a command ends -/

/-- The checks a command makes before it executes (R96, R97, R128, R141, R186), as `exec` makes them. -/
def checksOf : Instr → State → List (Bool × ResultCode)
  | .config kb,                _ => [((ksizeOfBits kb).isNone, .invalidKeySize)]
  | .initkeys src,             s => initkeysChecks src s
  | .encblk src dst,           s => blockChecks src dst s
  | .decblk src dst,           s => blockChecks src dst s
  | .ecbEnc n src dst,         s => ecbChecks n src dst s
  | .ecbDec n src dst,         s => ecbChecks n src dst s
  | .cbcEnc n src dst iv,      s => chainChecks n src dst iv s
  | .cbcDec n src dst iv,      s => chainChecks n src dst iv s
  | .cfbEnc n src dst iv,      s => chainChecks n src dst iv s
  | .cfbDec n src dst iv,      s => chainChecks n src dst iv s
  | .ofbEnc n src dst iv,      s => chainChecks n src dst iv s
  | .ofbDec n src dst iv,      s => chainChecks n src dst iv s
  | .ctrEnc n src dst iv,      s => ctrChecks n src dst iv s
  | .ctrDec n src dst iv,      s => ctrChecks n src dst iv s
  | .gcmEnc src dst iv aad tag, s => gcmChecks src dst iv aad tag s
  | .gcmDec src dst iv aad tag, s => gcmChecks src dst iv aad tag s

/-- R183, R199: the codes a command can end with once its checks pass. -/
def CompletionCode (i : Instr) (r : ResultCode) : Prop :=
  r = .ok ∨ (r = .tagMismatch ∧ ∃ src dst iv aad tag, i = .gcmDec src dst iv aad tag)

/-- R197, R199: the command raises the first failing check, or runs and ends with a completion code. -/
def EndsAsChecked (i : Instr) (s : State) : Prop :=
  (∃ r, firstFailure (checksOf i s) = some r ∧ exec i s = .next (afterError r s)) ∨
  (firstFailure (checksOf i s) = none ∧ ∃ r t, exec i s = .next t ∧ EndsWith r s t ∧ CompletionCode i r)

theorem endsWith_complete (r : ResultCode) (m : Memory) (s : State) : EndsWith r s (complete r m s) :=
  ⟨rfl, rfl, rfl, rfl⟩

theorem endsWith_afterError (r : ResultCode) (s : State) : EndsWith r s (afterError r s) := endsWith_complete r s.mem s

/-- A cipher command ends as its body does when its checks pass. -/
theorem EndsAsChecked.of_runCipher {i : Instr} {s : State} {body : Schedule → Work → Work × ResultCode}
    (hexec : exec i s = runCipher (checksOf i s) body s)
    (hcode : CompletionCode i (body (scheduleOf s) (workOf s)).2) : EndsAsChecked i s := by
  cases hcs : firstFailure (checksOf i s) with
  | some r => exact .inl ⟨r, hcs, hexec.trans (runCipher_fails hcs body s)⟩
  | none => exact .inr ⟨hcs, _, _, hexec.trans (runCipher_runs hcs body s), endsWith_complete _ _ s, hcode⟩

/-- R183, R184: decryption when TAG holds the tag of the text, zeros otherwise. -/
theorem gcmDecBody_eq (src dst iv aad tag : Desc) (k : Schedule) (wk : Work) :
    gcmDecBody src dst iv aad tag k wk =
      if gcmTag k (memRead wk.mem iv.addr.toNat 12) (memRead wk.mem aad.addr.toNat aad.len.toNat)
          (memRead wk.mem src.addr.toNat src.len.toNat) = readBlock wk.mem tag.addr.toNat then
        (gcmDecrypt src dst iv k (gcmAuthenticate src iv aad tag k wk), .ok)
      else (zeroOutput src dst (gcmAuthenticate src iv aad tag k wk), .tagMismatch) := by
  rw [← gcmAuthenticate_tag src iv aad tag, ← gcmAuthenticate_tagin src iv aad tag k]
  rfl

theorem gcmDecBody_code (src dst iv aad tag : Desc) (k : Schedule) (wk : Work) :
    (gcmDecBody src dst iv aad tag k wk).2 = .ok ∨ (gcmDecBody src dst iv aad tag k wk).2 = .tagMismatch := by
  rw [gcmDecBody_eq]
  split
  · exact .inl rfl
  · exact .inr rfl

/-- All a command can do. -/
theorem exec_ends (i : Instr) (s : State) : EndsAsChecked i s := by
  cases i with
  | config kb =>
    cases hk : ksizeOfBits kb with
    | none => exact .inl ⟨_, by simp [checksOf, hk], exec_config_of_none hk s⟩
    | some k => exact .inr ⟨by simp [checksOf, hk], _, _, exec_config_of_some hk s, endsWith_complete _ _ _, .inl rfl⟩
  | initkeys src =>
    cases hcs : firstFailure (initkeysChecks src s) with
    | some r => exact .inl ⟨r, hcs, by rw [exec, execInitkeys, hcs]; rfl⟩
    | none => exact .inr ⟨hcs, _, _, by rw [exec, execInitkeys, hcs], endsWith_complete .ok s.mem (loadKey _ s), .inl rfl⟩
  | gcmDec src dst iv aad tag =>
    exact .of_runCipher rfl ((gcmDecBody_code src dst iv aad tag _ _).imp_right fun h => ⟨h, _, _, _, _, _, rfl⟩)
  | _ => exact .of_runCipher rfl (.inl rfl)

/-- R195, R199: every command answers with one code, that of the first failing check or a completion code. -/
theorem exec_code (i : Instr) (s : State) :
    ∃ r t, exec i s = .next t ∧ EndsWith r s t ∧ (∀ r', firstFailure (checksOf i s) = some r' → r = r') ∧
      (firstFailure (checksOf i s) = none → CompletionCode i r) := by
  obtain ⟨r, hcs, hexec⟩ | ⟨hcs, r, t, hexec, hend, hcode⟩ := exec_ends i s
  · exact ⟨r, _, hexec, endsWith_afterError r s, by simp [hcs], by simp [hcs]⟩
  · exact ⟨r, t, hexec, hend, by simp [hcs], fun _ => hcode⟩

/-- R197: a command that returns an error other than TagMismatch has raised it. -/
theorem exec_error {i : Instr} {s t : State} {r : ResultCode} (hexec : exec i s = .next t)
    (hresp : t.responses = s.responses ++ [r]) (hok : r ≠ .ok) (htag : r ≠ .tagMismatch) : t = afterError r s := by
  obtain ⟨r', -, hexec'⟩ | ⟨-, r', t', hexec', ⟨-, hresp', -⟩, hcode⟩ := exec_ends i s
  all_goals obtain rfl := Host.Outcome.next.inj (hexec.symm.trans hexec')
  · obtain rfl : r' = r := by simpa [afterError] using hresp
    rfl
  · obtain rfl : r' = r := by simpa [hresp'] using hresp
    exact absurd hcode (not_or.2 ⟨hok, fun h => htag h.1⟩)

/-! ### Every command's checks report the table's first failure -/

/-- R199: the commands that share a list of checks share the table's steps. -/
theorem checksOf_report {i : Instr} (hi : ∀ kb, i ≠ .config kb) (s : State) :
    Reports (prioritySteps i s) (firstFailure (checksOf i s)) := by
  cases i with
  | config kb => exact absurd rfl (hi kb)
  | initkeys src => exact initkeysChecks_report src s
  | encblk src dst | decblk src dst => exact blockChecks_report src dst s
  | ecbEnc n src dst | ecbDec n src dst => exact ecbChecks_report n src dst s
  | cbcEnc n src dst iv | cbcDec n src dst iv | cfbEnc n src dst iv | cfbDec n src dst iv | ofbEnc n src dst iv
  | ofbDec n src dst iv => exact chainChecks_report n src dst iv s
  | ctrEnc n src dst iv | ctrDec n src dst iv => exact ctrChecks_report n src dst iv s
  | gcmEnc src dst iv aad tag | gcmDec src dst iv aad tag => exact gcmChecks_report src dst iv aad tag s

/-- R201: CONFIG's one check is step 2 of R199. -/
theorem firstFailure_config {kb : BitVec 16} (h : KeySizeOk (.config kb)) (s : State) :
    firstFailure (checksOf (.config kb) s) = none := by
  obtain rfl | rfl | rfl := h <;> rfl

theorem firstFailure_config_of_not {kb : BitVec 16} (h : ¬ KeySizeOk (.config kb)) (s : State) :
    firstFailure (checksOf (.config kb) s) = some .invalidKeySize := by
  obtain ⟨h128, h192, h256⟩ : kb ≠ 128 ∧ kb ≠ 192 ∧ kb ≠ 256 := by simpa [KeySizeOk] using h
  simp [checksOf, ksizeOfBits_eq_none h128 h192 h256]

/-! ### GCM.DEC on a mismatch of the tags (R198) -/

@[simp] theorem zeroOutput_mem (src dst : Desc) (wk : Work) :
    (zeroOutput src dst wk).mem = memWrite wk.mem dst.addr.toNat (List.replicate src.len.toNat 0) := rfl

/-- R33, R198: a buffer in range written with zeros reads zero at each of its addresses. -/
theorem readByte_memWrite_zeros {m : Memory} {d : Desc} {a : Nat} (hwf : Memory.wf m = true) (hrange : InRange d)
    (ha : InBuffer d a) : readByte (memWrite m d.addr.toNat (List.replicate d.len.toNat 0)) a = 0 := by
  have hpos := len_pos_of_inBuffer ha
  have htop : d.addr.toNat + d.len.toNat ≤ Config.addressSpace := hrange.resolve_left fun h => by simp [h] at hpos
  obtain ⟨hle, hlt⟩ := ha
  obtain ⟨k, rfl⟩ := Nat.exists_eq_add_of_le hle
  have hk : k < d.len.toNat := by omega
  rw [readByte_memWrite_inside hwf (by simpa using htop) (by simpa using hk)]
  simp [List.getD_eq_getElem?_getD, hk]

/-- R183, R198: nothing is decrypted, the whole of DST is written with zeros. -/
theorem exec_gcmDec_of_mismatch {s : State} {src dst iv aad tag : Desc} (hready : Ready (.gcmDec src dst iv aad tag) s)
    (hne : bufBlock s tag 0 ≠ gcmTag (scheduleOf s) (bufBytes s iv) (bufBytes s aad) (bufBytes s src)) :
    exec (.gcmDec src dst iv aad tag) s =
      .next (complete .tagMismatch (memWrite s.mem dst.addr.toNat (List.replicate dst.len.toNat 0)) s) := by
  have hpass := (gcmChecks_pass_iff src dst iv aad tag s).2 hready
  obtain ⟨⟨⟨-, -, hlen, hiv, -⟩, -⟩, -⟩ := hready
  rw [exec, execGcmDec, runCipher_runs hpass, gcmDecBody_eq,
    if_neg (by simpa [bufBlock, bufBytes, hiv] using hne.symm)]
  simp [hlen]

/-! ### The obligations -/

/-- Settles O10: every event is taken, and a command always answers. -/
theorem everyStepGoesOn : Obligations.EveryStepGoesOn := by
  intro s
  obtain ⟨-, h⟩ | ⟨f, rest, i, -, -, h⟩ | ⟨f, rest, why, -, -, h⟩ | ⟨rest, -, h⟩ | ⟨a, b, rest, -, h⟩ := step_cases s
  · exact ⟨_, h⟩
  · obtain ⟨-, t, hexec, -⟩ := exec_code i { s with inputs := rest }
    exact ⟨t, h.trans hexec⟩
  · exact ⟨_, h⟩
  · exact ⟨_, h⟩
  · exact ⟨_, h⟩

/-- R195: only a frame is answered with a code, by its command or, an illegal one, with IllegalCommand. -/
theorem step_answer {s t : State} {r : ResultCode} (hstep : step s = .next t) (hresp : t.responses = s.responses ++ [r]) :
    ∃ f rest, s.inputs = .frame f :: rest ∧ ((∃ i, exec i { s with inputs := rest } = .next t) ∨
      t = afterError r { s with inputs := rest }) := by
  obtain ⟨-, h⟩ | ⟨f, rest, i, hin, -, h⟩ | ⟨f, rest, why, hin, -, h⟩ | ⟨rest, -, h⟩ | ⟨a, b, rest, -, h⟩ := step_cases s
  case inr.inl => exact ⟨f, rest, hin, .inl ⟨i, h.symm.trans hstep⟩⟩
  all_goals obtain rfl := Host.Outcome.next.inj (hstep.symm.trans h)
  case inr.inr.inl =>
    obtain rfl : .illegalCommand = r := by simpa using hresp
    exact ⟨f, rest, hin, .inr rfl⟩
  all_goals simp at hresp

/-- Settles O54: the answer is an illegal frame's, or that of a command in error, which has raised it. -/
theorem errorChangesOnlyLast : Obligations.ErrorChangesOnlyLast := by
  intro s t r hstep hresp hok htag
  obtain ⟨f, rest, hin, ⟨i, hexec⟩ | rfl⟩ := step_answer hstep hresp
  · rw [hin]
    exact exec_error hexec hresp hok htag
  · rw [hin]
    rfl

/-- Settles O51: the command ends with TagMismatch, and its only write is that of the zeros over DST. -/
theorem gcmDecFailsClosed : Obligations.GcmDecFailsClosed := by
  intro s src dst iv aad tag hwf hready hne
  have hrange : InRange dst := by
    obtain ⟨⟨-, -, hranges⟩, -⟩ := hready
    exact hranges dst (by simp [usedBuffers])
  exact ⟨_, exec_gcmDec_of_mismatch hready hne, endsWith_complete _ _ s, ⟨rfl, rfl, rfl⟩,
    fun a ha => readByte_memWrite_outside (by simpa [InBuffer, imp_iff_not_or] using ha),
    fun a ha => readByte_memWrite_zeros hwf hrange ha⟩

/-- Settles O53: the code is that of the first failing check, which is that of the first failing step of the table. -/
theorem firstFailingCheckIsReported : Obligations.FirstFailingCheckIsReported := by
  refine ⟨fun s f rest why hin hd => ⟨_, step_of_illegal hin hd, endsWith_afterError _ _⟩, fun i s => ?_⟩
  obtain ⟨r, t, hexec, hend, hfail, hpass⟩ := exec_code i s
  refine ⟨r, t, hexec, hend, fun hsize => ?_, ?_, fun hi => ?_⟩
  · cases i with
    | config kb => exact hfail _ (firstFailure_config_of_not hsize s)
    | _ => exact absurd trivial hsize
  · rintro ⟨kb, rfl⟩ hsize
    exact (hpass (firstFailure_config hsize s)).resolve_right (by simp)
  · have key := checksOf_report hi s
    have lengths (h : s.ksize ≠ 0) (hk : KeyStateOk i s) := (key.rest h).rest hk
    have gcmLengths : LengthsPass i s → _ := fun ⟨h, hk, hl⟩ => (lengths h hk).rest hl
    have overlap : AddressesPass i s → _ := fun ⟨h, hg, hr⟩ => ((gcmLengths h).rest hg).rest hr
    exact ⟨fun h => hfail _ (key.code (not_not.2 h)),
      fun h hk => hfail _ ((key.rest h).code hk),
      fun h hk hl => hfail _ ((lengths h hk).code hl),
      fun h hg => hfail _ ((gcmLengths h).code hg),
      fun h hg hr => hfail _ (((gcmLengths h).rest hg).code hr),
      fun h ho => hfail _ ((overlap h).code ho),
      fun h ho hc => hfail _ (((overlap h).rest ho).code hc),
      fun ⟨h, ho, hc⟩ => hpass (((overlap h).rest ho).rest hc).none_of_nil⟩

end Sys2Proof.Proofs
end

section
/-! The encoding (30_encoding.md R46 to R58).  A frame that falls in a row of the opcode table decodes to the command
whose encoding is the frame with the words the row does not use set to zero: `decode_of_rowOf`.  A command is determined
by its encoding, so the row, the used words and the command determine one another. -/

namespace Sys2Proof.Proofs

open Sys2Proof Sys2Proof.Machine Sys2Proof.Laws

/-! ### CONFIG's command words (R46, R50) -/

theorem and_config_mask_toNat (w : Word) : (w &&& 0x0000FFFF#32).toNat = w.toNat % 65536 :=
  (BitVec.toNat_and w _).trans (Nat.and_two_pow_sub_one_eq_mod w.toNat 16)

theorem config_word_toNat (kb : BitVec 16) : (kb ++ 0x0001#16).toNat = kb.toNat * 65536 + 1 := by
  rw [BitVec.toNat_append, ← Nat.shiftLeft_add_eq_or_of_lt (by decide), Nat.shiftLeft_eq]
  rfl

theorem config_mask_iff (f : Frame) : f.cmd &&& 0x0000FFFF#32 = 0x00000001#32 ↔ rsvOf f = 0 ∧ opcOf f = 0x01 := by
  simp only [← BitVec.toNat_inj, and_config_mask_toNat, rsvOf_toNat, opcOf_toNat, BitVec.ofNat_eq_ofNat,
    BitVec.toNat_ofNat]
  omega

theorem cmd_of_config_mask {f : Frame} (h : f.cmd &&& 0x0000FFFF#32 = 0x00000001#32) :
    keybitsOf f ++ 0x0001#16 = f.cmd := by
  have hlow := congrArg BitVec.toNat h
  rw [and_config_mask_toNat, BitVec.toNat_ofNat] at hlow
  refine BitVec.eq_of_toNat_eq ?_
  rw [config_word_toNat, keybitsOf_toNat]
  omega

theorem decode_of_config_mask {f : Frame} (h : f.cmd &&& 0x0000FFFF#32 = 0x00000001#32) :
    decode f = .command (.config (keybitsOf f)) := by
  obtain ⟨hrsv, hopc⟩ := (config_mask_iff f).1 h
  simp [decode, hrsv, hopc]

theorem keybitsOf_encode_config (kb : BitVec 16) : keybitsOf (encode (.config kb)) = kb := by
  have hcmd : (encode (.config kb)).cmd.toNat = kb.toNat * 65536 + 1 := config_word_toNat kb
  refine BitVec.eq_of_toNat_eq ?_
  rw [keybitsOf_toNat, hcmd]
  omega

/-! ### Decoding an encoded command (R58) -/

/-- R56: an opcode's command is encoded with that opcode alone in its command word. -/
theorem encode_cmd_of_commandOf {f : Frame} {i : Instr} (h : commandOf f = some i) :
    (encode i).cmd.toNat = (opcOf f).toNat := by
  unfold commandOf at h
  split at h
  case h_16 => simp at h
  all_goals
    obtain rfl := Option.some.inj h
    exact Eq.symm ‹_›

/-- R58: a command word that is an opcode alone has neither reserved bits nor KEYBITS. -/
theorem decode_of_commandOf {f : Frame} {i : Instr} (hc : commandOf f = some i) (hcmd : (encode i).cmd = f.cmd) :
    decode f = .command i := by
  have hopc : opcOf f ≠ 0x01 := fun h => by
    have hnone := (commandOf_eq_none_iff f).2 (.inl (by rw [h]; decide))
    simp [hnone] at hc
  have hbyte := encode_cmd_of_commandOf hc
  rw [hcmd, opcOf_toNat] at hbyte
  have hrsv : rsvOf f = 0 := BitVec.eq_of_toNat_eq ((rsvOf_toNat f).trans (show _ % 256 = 0 by omega))
  have hkb : keybitsOf f = 0 := BitVec.eq_of_toNat_eq ((keybitsOf_toNat f).trans (show _ / 65536 = 0 by omega))
  rw [decode, if_neg (not_not.2 hrsv), if_neg hopc, if_neg (not_not.2 hkb), hc]

theorem decode_encode (i : Instr) : decode (encode i) = .command i := by
  cases i with
  | config kb => rw [decode_of_config_mask (EncodeRow.config_word kb), keybitsOf_encode_config]
  | _ => exact decode_of_commandOf rfl rfl

theorem encode_injective : Function.Injective encode := fun i j h => by
  have hd := decode_encode i
  rw [h, decode_encode] at hd
  exact (Decoded.command.inj hd).symm

/-! ### Frames and rows (R49, R52) -/

/-- CONFIG's row, the one whose mask leaves a field of the command word free. -/
def configRow : OpcodeRow := ⟨"CONFIG", 0x0000FFFF#32, 0x00000001#32, {}⟩

/-- R56: the frame with the words the row does not use set to zero. -/
def clearUnused (r : OpcodeRow) (f : Frame) : Frame :=
  { cmd  := f.cmd
    nblk := if r.uses.nblk then f.nblk else 0
    src  := if r.uses.src then f.src else zeroDesc
    dst  := if r.uses.dst then f.dst else zeroDesc
    iv   := if r.uses.iv then f.iv else zeroDesc
    aad  := if r.uses.aad then f.aad else zeroDesc
    tag  := if r.uses.tag then f.tag else zeroDesc }

theorem eq_zeroDesc_of_isZero {d : Desc} (h : d.isZero = true) : d = zeroDesc := by
  obtain ⟨a, l⟩ := d
  obtain ⟨rfl, rfl⟩ : a = 0 ∧ l = 0 := by simpa [Desc.isZero] using h
  rfl

/-- A word that is used or zero is kept when the unused ones are cleared. -/
theorem ite_used_eq_self {α : Type} {used zero : Bool} {x z : α} (h : (used || zero) = true) (hz : zero = true → x = z) :
    (if used then x else z) = x := by
  cases used with
  | false => exact (hz (by simpa using h)).symm
  | true => rfl

theorem clearUnused_eq_self {r : OpcodeRow} {f : Frame} (h : r.unusedZero f = true) : clearUnused r f = f := by
  simp only [OpcodeRow.unusedZero, Bool.and_eq_true] at h
  obtain ⟨⟨⟨⟨⟨hnblk, hsrc⟩, hdst⟩, hiv⟩, haad⟩, htag⟩ := h
  rw [clearUnused, ite_used_eq_self hnblk eq_of_beq, ite_used_eq_self hsrc eq_zeroDesc_of_isZero,
    ite_used_eq_self hdst eq_zeroDesc_of_isZero, ite_used_eq_self hiv eq_zeroDesc_of_isZero,
    ite_used_eq_self haad eq_zeroDesc_of_isZero, ite_used_eq_self htag eq_zeroDesc_of_isZero]

theorem unusedZero_clearUnused (r : OpcodeRow) (f : Frame) : r.unusedZero (clearUnused r f) = true := by
  have hword {used : Bool} (x : Word) : (used || (if used then x else 0) == 0) = true := by cases used <;> rfl
  have hdesc {used : Bool} (d : Desc) : (used || (if used then d else zeroDesc).isZero) = true := by cases used <;> rfl
  simp only [OpcodeRow.unusedZero, clearUnused, hword, hdesc, Bool.and_self]

theorem rowOf_congr {f g : Frame} (h : f.cmd = g.cmd) : rowOf f = rowOf g :=
  (EncodeRow.rowOf_eq h).trans (EncodeRow.rowOf_eq rfl).symm

theorem rowOf_cases {f : Frame} {r : OpcodeRow} (h : rowOf f = some r) :
    (r = configRow ∧ f.cmd &&& 0x0000FFFF#32 = 0x00000001#32) ∨ (r ∈ opcodeTable.tail ∧ f.cmd = r.value) := by
  have hmatch : f.cmd &&& r.mask = r.value := by simpa [OpcodeRow.matches] using List.find?_some h
  have hmem : r = configRow ∨ r ∈ opcodeTable.tail := List.mem_cons.1 (List.mem_of_find?_eq_some h)
  obtain rfl | hr := hmem
  · exact .inl ⟨rfl, hmatch⟩
  · have hmask : ∀ q ∈ opcodeTable.tail, q.mask = BitVec.allOnes 32 := by decide
    rw [hmask r hr, BitVec.and_allOnes] at hmatch
    exact .inr ⟨hr, hmatch⟩

/-- R58 for the fifteen rows that fix the command word. -/
theorem commandOf_of_value {f : Frame} {r : OpcodeRow} (hr : r ∈ opcodeTable.tail) (hcmd : f.cmd = r.value) :
    ∃ i, commandOf f = some i ∧ encode i = clearUnused r f := by
  obtain ⟨cmd, nblk, src, dst, iv, aad, tag⟩ := f
  obtain rfl : cmd = r.value := hcmd
  simp only [opcodeTable, List.tail_cons, List.mem_cons, List.not_mem_nil, or_false] at hr
  obtain rfl | rfl | rfl | rfl | rfl | rfl | rfl | rfl | rfl | rfl | rfl | rfl | rfl | rfl | rfl := hr
  all_goals exact ⟨_, rfl, rfl⟩

/-- R49, R56: what a frame in a row decodes to. -/
theorem decode_of_rowOf {f : Frame} {r : OpcodeRow} (h : rowOf f = some r) :
    ∃ i, decode f = .command i ∧ encode i = clearUnused r f := by
  obtain ⟨rfl, hmask⟩ | ⟨hr, hcmd⟩ := rowOf_cases h
  · exact ⟨_, decode_of_config_mask hmask, congrArg bareFrame (cmd_of_config_mask hmask)⟩
  · obtain ⟨i, hi, henc⟩ := commandOf_of_value hr hcmd
    exact ⟨i, decode_of_commandOf hi (by rw [henc]; rfl), henc⟩

/-- R49: every command's encoding falls in the row of its mnemonic. -/
theorem rowOf_encode (i : Instr) : (rowOf (encode i)).map OpcodeRow.mnemonic = some i.mnemonic := by
  cases i with
  | config kb => exact EncodeRow.config kb
  | initkeys src => exact EncodeRow.initkeys src
  | encblk src dst => exact EncodeRow.encblk src dst
  | decblk src dst => exact EncodeRow.decblk src dst
  | ecbEnc n src dst => exact EncodeRow.ecbEnc n src dst
  | ecbDec n src dst => exact EncodeRow.ecbDec n src dst
  | cbcEnc n src dst iv => exact EncodeRow.cbcEnc n src dst iv
  | cbcDec n src dst iv => exact EncodeRow.cbcDec n src dst iv
  | cfbEnc n src dst iv => exact EncodeRow.cfbEnc n src dst iv
  | cfbDec n src dst iv => exact EncodeRow.cfbDec n src dst iv
  | ofbEnc n src dst iv => exact EncodeRow.ofbEnc n src dst iv
  | ofbDec n src dst iv => exact EncodeRow.ofbDec n src dst iv
  | ctrEnc n src dst iv => exact EncodeRow.ctrEnc n src dst iv
  | ctrDec n src dst iv => exact EncodeRow.ctrDec n src dst iv
  | gcmEnc src dst iv aad tag => exact EncodeRow.gcmEnc src dst iv aad tag
  | gcmDec src dst iv aad tag => exact EncodeRow.gcmDec src dst iv aad tag

theorem encode_cmd_of_decode {f : Frame} {i : Instr} (h : decode f = .command i) : (encode i).cmd = f.cmd := by
  unfold decode at h
  split at h
  case isTrue => simp at h
  split at h
  case isTrue hrsv hopc =>
    obtain rfl := Decoded.command.inj h
    exact cmd_of_config_mask ((config_mask_iff f).2 ⟨not_not.1 hrsv, hopc⟩)
  split at h
  case isTrue => simp at h
  case isFalse hrsv _ hkb =>
    split at h
    case h_2 => simp at h
    case h_1 j hj =>
      obtain rfl := Decoded.command.inj h
      have hrsv' := congrArg BitVec.toNat (not_not.1 hrsv)
      have hkb' := congrArg BitVec.toNat (not_not.1 hkb)
      rw [rsvOf_toNat] at hrsv'
      rw [keybitsOf_toNat] at hkb'
      refine BitVec.eq_of_toNat_eq ?_
      rw [encode_cmd_of_commandOf hj, opcOf_toNat]
      simp only [BitVec.ofNat_eq_ofNat, BitVec.toNat_ofNat] at hrsv' hkb'
      omega

/-! ### The obligations -/

/-- R53, R56: an encoded command is in a row, and is what clearing that row's unused words makes of it. -/
theorem wellFormed_encode (i : Instr) : (encode i).wellFormed = true := by
  obtain ⟨r, hr, -⟩ := Option.map_eq_some_iff.1 (rowOf_encode i)
  obtain ⟨j, hj, henc⟩ := decode_of_rowOf hr
  obtain rfl : i = j := Decoded.command.inj ((decode_encode i).symm.trans hj)
  rw [Frame.wellFormed, hr]
  exact henc ▸ unusedZero_clearUnused r (encode i)

/-- Settles O1: both halves hold of each command, whatever its operands. -/
theorem decodeInvertsEncode : Obligations.DecodeInvertsEncode := fun i => ⟨decode_encode i, wellFormed_encode i⟩

/-- Settles O2: a well-formed frame is in a row, and clearing its unused words changes nothing. -/
theorem encodeInvertsDecodeOnWellFormedFrames : Obligations.EncodeInvertsDecodeOnWellFormedFrames := by
  intro f hf
  unfold Frame.wellFormed at hf
  split at hf
  next r hr =>
    obtain ⟨i, hd, henc⟩ := decode_of_rowOf hr
    exact ⟨i, hd, henc.trans (clearUnused_eq_self hf)⟩
  next => simp at hf

/-- Settles O3: the decoder's three tests, as numbers. -/
theorem illegalFramesAreTheReservedOnes : Obligations.IllegalFramesAreTheReservedOnes := by
  intro f
  rw [decode_illegal_iff, commandOf_eq_none_iff]
  simp only [ne_eq, ← BitVec.toNat_inj, rsvOf_toNat, opcOf_toNat, keybitsOf_toNat, BitVec.ofNat_eq_ofNat,
    BitVec.toNat_ofNat]
  omega

/-- Settles O4: a frame's row is that of the encoding of its command; a frame in a row decodes to a command. -/
theorem decoderAgreesWithOpcodeTable : Obligations.DecoderAgreesWithOpcodeTable := by
  refine fun f => ⟨fun i hd => ?_, fun why hd => ?_⟩
  · rw [← rowOf_congr (encode_cmd_of_decode hd), rowOf_encode]
  · refine Option.eq_none_iff_forall_ne_some.2 fun r hr => ?_
    obtain ⟨i, hd', -⟩ := decode_of_rowOf hr
    simp [hd'] at hd

/-- Settles O5: the two frames are the same once their unused words are cleared, and so are their commands. -/
theorem unusedWordsAreIgnored : Obligations.UnusedWordsAreIgnored := by
  intro f g r hr hcmd hnblk hsrc hdst hiv haad htag
  obtain ⟨i, hi, henc⟩ := decode_of_rowOf hr
  obtain ⟨j, hj, henc'⟩ := decode_of_rowOf ((rowOf_congr hcmd).trans hr)
  have hclear : clearUnused r g = clearUnused r f := by
    unfold clearUnused
    rw [hcmd, ite_congr rfl hnblk fun _ => rfl, ite_congr rfl hsrc fun _ => rfl, ite_congr rfl hdst fun _ => rfl,
      ite_congr rfl hiv fun _ => rfl, ite_congr rfl haad fun _ => rfl, ite_congr rfl htag fun _ => rfl]
  rw [hi, hj, encode_injective (henc'.trans (hclear.trans henc.symm))]

/-- Settles O6: the four frames are evaluated. -/
theorem sampleFramesDecode : Obligations.SampleFramesDecode := by
  unfold Obligations.SampleFramesDecode
  decide

end Sys2Proof.Proofs
end

section
/-! The step and the host's side (10_state.md R23, R25; 20_memory.md R30, R40): what a step does with each kind of input,
and the state after reset. -/

namespace Sys2Proof.Proofs

open Sys2Proof Sys2Proof.Machine Sys2Proof.Laws

/-! ### One input a step -/

/-- R40, R45: a legal frame's command runs. -/
theorem step_of_command {s : State} {f : Frame} {rest : List HostEvent} {i : Instr} (h : s.inputs = .frame f :: rest)
    (hd : decode f = .command i) : step s = exec i { s with inputs := rest } := by
  simp only [step, nextInput_cons h, hd]

theorem step_of_poke {s : State} {a : Word} {b : Byte} {rest : List HostEvent} (h : s.inputs = .poke a b :: rest) :
    step s = .next (applyPoke a b { s with inputs := rest }) := by
  simp only [step, nextInput_cons h]

theorem step_of_idle {s : State} (h : s.inputs = []) : step s = .next s := by
  simp only [step, nextInput_nil h]

theorem decode_of_decodeTableWord {nbits w : Nat} {i : Instr} (h : decodeTableWord nbits w = some i) :
    decode (frameOfBits nbits w) = .command i := by
  unfold decodeTableWord at h
  split at h
  next j hj => rw [hj, Option.some.inj h]
  next => simp at h

/-! ### The obligations -/

/-- Settles O7, a branch of the step. -/
theorem stepRunsDecodedCommand : Obligations.StepRunsDecodedCommand := fun _ _ _ _ => step_of_command

/-- Settles O9: the frame placed on the port is the head of the inputs, and taking it gives the state back. -/
theorem fetchWordIsRunNext : Obligations.FetchWordIsRunNext := fun s _ _ _ h =>
  step_of_command (s := s.withFetchWord _ _) (present_inputs _ s) (decode_of_decodeTableWord h)

/-- Settles O11, a branch of the step. -/
theorem idleKeepsEverything : Obligations.IdleKeepsEverything := fun _ => step_of_idle

/-- Settles O13, a register at a time. -/
theorem resetStateValues : Obligations.ResetStateValues :=
  ⟨rfl, rfl, fun i _ => wAt_replicate_zero i, rfl, rfl, status_eq_zero rfl rfl rfl⟩

/-- Settles O14: the store is one write of a byte, whose address is below the top of memory. -/
theorem hostStoreWritesOneByte : Obligations.HostStoreWritesOneByte := by
  intro s a b rest hwf h
  exact ⟨_, step_of_poke h, readByte_writeByte_self b hwf a.isLt, fun _ hx => readByte_writeByte_other b hx,
    ⟨rfl, rfl, rfl⟩, rfl, rfl, rfl, rfl⟩

end Sys2Proof.Proofs
end

section
/-! Long division of polynomials over GF(2) (40_gf256_sbox.md R67, R68, R70) and the laws of `multiply` (R66).  The
carry-less product is linear in its first operand, and a power of x shifts the second, so each pass of `divide` keeps
`a = q * b + r`; the pass cancels the top bit of the remainder, so the degree falls and the passes suffice. -/

namespace Sys2Proof.Proofs

open Sys2Proof Sys2Proof.Machine

/-! ### The laws of multiply -/

/-- An inverse of one operand takes a zero product back to the other. -/
theorem eq_zero_of_multiply_eq_zero {a b : Byte} (ha : a ≠ 0) (h : multiply a b = 0) : b = 0 := by
  have hb := multiply_right_comm a b (multiplicativeInverse a)
  rw [h, multiply_multiplicativeInverse ha] at hb
  exact ((one_multiply b).symm.trans hb.symm).trans (zero_multiply _)

/-- Settles O17: the laws of the first operand, carried over by commutativity. -/
theorem multiplyLaws : Obligations.MultiplyLaws := by
  intro a b c
  exact ⟨multiply_comm a b, multiply_xor_right a b c, (multiply_comm a 1).trans (one_multiply a),
    (multiply_comm a 0).trans (zero_multiply a), fun h => or_iff_not_imp_left.2 fun ha => eq_zero_of_multiply_eq_zero ha h⟩

/-! ### The carry-less product (R70) -/

theorem clmulLoop_xor_left (k x x' y p p' : Nat) :
    clmulLoop k (x ^^^ x') y (p ^^^ p') = clmulLoop k x y p ^^^ clmulLoop k x' y p' := by
  induction k generalizing x x' y p p' with
  | zero => rfl
  | succ k ih =>
    simp only [clmulLoop, Nat.shiftLeft_xor_distrib, ← ih]
    split
    · congr 1
      ac_rfl
    · rfl

theorem clmul_xor_left (x x' y : Nat) : clmul (x ^^^ x') y = clmul x y ^^^ clmul x' y :=
  clmulLoop_xor_left (degree y) x x' y 0 0

@[simp] theorem clmul_zero_left (y : Nat) : clmul 0 y = 0 := by
  simpa using clmul_xor_left 0 0 y

/-- The low bit and the bits above it. -/
theorem mod_two_xor_shift (y : Nat) : y % 2 ^^^ (y >>> 1) <<< 1 = y := by
  refine Nat.eq_of_testBit_eq fun i => ?_
  rw [Nat.testBit_xor, Nat.testBit_shiftLeft, Nat.testBit_shiftRight]
  cases i with
  | zero => simp
  | succ i => simp [Nat.testBit_succ, Nat.add_comm 1, Nat.div_eq_of_lt (Nat.mod_lt y Nat.two_pos)]

/-- The passes of the loop take the bits of `y` from the low end on; a power of x puts them `j` places up. -/
theorem clmulLoop_one_shiftLeft {k y : Nat} (hy : y < 2 ^ k) (j p : Nat) :
    clmulLoop k (1 <<< j) y p = p ^^^ y <<< j := by
  induction k generalizing y j p with
  | zero =>
    obtain rfl : y = 0 := by omega
    simp [clmulLoop]
  | succ k ih =>
    have hhalf : y >>> 1 < 2 ^ k := by rw [Nat.shiftRight_one]; omega
    have hsplit : y <<< j = (y % 2) <<< j ^^^ (y >>> 1) <<< (j + 1) := by
      rw [Nat.add_comm j 1, Nat.shiftLeft_add, ← Nat.shiftLeft_xor_distrib, mod_two_xor_shift]
    rw [clmulLoop, ← Nat.shiftLeft_add, ih hhalf, hsplit]
    rcases Nat.mod_two_eq_zero_or_one y with h | h
    · simp [h]
    · simp [h, Nat.xor_assoc]

/-! ### The degree (R67) -/

theorem degree_le_iff {n k : Nat} : degree n ≤ k ↔ n < 2 ^ k := by
  unfold degree
  split
  next h => simp [h]
  next h => rw [Nat.succ_le_iff, Nat.log2_lt h]

theorem lt_two_pow_degree (n : Nat) : n < 2 ^ degree n := degree_le_iff.1 le_rfl

theorem degree_pos {n : Nat} (h : n ≠ 0) : 0 < degree n := by simp [degree, h]

/-- The top bit of a number of positive degree. -/
theorem testBit_of_degree_eq_succ {n m : Nat} (h : degree n = m + 1) : n.testBit m = true :=
  Nat.testBit_of_two_pow_le_and_two_pow_add_one_gt
    (Nat.le_of_not_lt fun hlt => by have := degree_le_iff.2 hlt; omega) (degree_le_iff.1 h.le)

theorem clmul_one_shiftLeft (j y : Nat) : clmul (1 <<< j) y = y <<< j :=
  (clmulLoop_one_shiftLeft (lt_two_pow_degree y) j 0).trans (Nat.zero_xor _)

/-- R68: a pass cancels the top bit of the remainder. -/
theorem degree_pass_lt {b r : Nat} (hb : b ≠ 0) (h : degree b ≤ degree r) :
    degree (r ^^^ b <<< (degree r - degree b)) < degree r := by
  obtain ⟨c, hc⟩ := Nat.exists_eq_add_of_lt (degree_pos hb)
  obtain ⟨m, hm⟩ := Nat.exists_eq_add_of_le h
  have hdr : degree r = c + m + 1 := by omega
  rw [hdr, show c + m + 1 - degree b = m by omega, Nat.lt_succ_iff, degree_le_iff]
  refine Nat.lt_pow_two_of_testBit _ fun i hi => ?_
  rw [Nat.testBit_xor, Nat.testBit_shiftLeft]
  rcases Nat.eq_or_lt_of_le hi with rfl | hlt
  · have hbit : b.testBit c = true := testBit_of_degree_eq_succ (by omega)
    simp [testBit_of_degree_eq_succ hdr, hbit]
  · have hbits {n : Nat} (j : Nat) (hj : degree n ≤ j) : n.testBit j = false :=
      Nat.testBit_lt_two_pow (degree_le_iff.1 hj)
    rw [hbits i (by omega), hbits (i - m) (by omega)]
    simp

/-! ### The loop (R68) -/

/-- Each pass keeps `q * b + r`; with as many passes as the remainder's degree the loop ends below `b`'s. -/
theorem divideLoop_spec {k b q r : Nat} (hb : b ≠ 0) (hk : degree r ≤ k) :
    clmul (divideLoop k b q r).1 b ^^^ (divideLoop k b q r).2 = clmul q b ^^^ r ∧
      degree (divideLoop k b q r).2 < degree b := by
  induction k generalizing q r with
  | zero => exact ⟨rfl, (Nat.le_zero.1 hk).trans_lt (degree_pos hb)⟩
  | succ k ih =>
    unfold divideLoop
    split
    next h =>
      obtain ⟨heq, hdeg⟩ := ih (q := q ^^^ 1 <<< (degree r - degree b))
        (Nat.le_of_lt_succ ((degree_pass_lt hb h).trans_le hk))
      refine ⟨heq.trans ?_, hdeg⟩
      rw [clmul_xor_left, clmul_one_shiftLeft, Nat.xor_comm r, ← Nat.xor_assoc, xor_cancel_right]
    next h => exact ⟨rfl, Nat.lt_of_not_le h⟩

/-- Settles O18: from the quotient 0 and the remainder `a`, whatever the size of the operands. -/
theorem divideIsLongDivision : Obligations.DivideIsLongDivision := by
  intro a b _ _ hb
  obtain ⟨heq, hdeg⟩ := divideLoop_spec (q := 0) hb (le_refl (degree a))
  exact ⟨_, _, if_neg hb, by rw [heq, clmul_zero_left, Nat.zero_xor], hdeg⟩

end Sys2Proof.Proofs
end

section
/-! The GHASH product (41_gf128_ghash.md R85 to R89).  The loop is linear in each operand, and only adds and shifts, so a
linear map that preserves the shift passes through it: two left factors can be exchanged.  The block whose one set bit
is bit 0 of R85 is a right unit, and the product is commutative. -/

namespace Sys2Proof.Proofs

open Sys2Proof Sys2Proof.Machine

/-! ### Linearity (R89 (b)) -/

/-- R88's reduction value. -/
def ghashReduction : Block := 0xE1#8 ++ 0#120

theorem ghashShift_eq (v : Block) :
    ghashShift v = v >>> 1 ^^^ (if v.getLsbD 0 then ghashReduction else 0) := by
  unfold ghashShift rightShiftWithCarry
  cases v.getLsbD 0
  · simp
  · simp [reduceTop, xorAccumulate, ghashReduction]

/-- Where both operands carry out, the two reductions cancel. -/
theorem ghashShift_xor (x y : Block) : ghashShift (x ^^^ y) = ghashShift x ^^^ ghashShift y := by
  have hcarry : (if (x ^^^ y).getLsbD 0 then ghashReduction else 0) =
      (if x.getLsbD 0 then ghashReduction else 0) ^^^ (if y.getLsbD 0 then ghashReduction else 0) := by
    rw [BitVec.getLsbD_xor]
    cases x.getLsbD 0 <;> cases y.getLsbD 0 <;> simp
  rw [ghashShift_eq, ghashShift_eq, ghashShift_eq, hcarry, BitVec.ushiftRight_xor_distrib]
  ac_rfl

theorem ghashLoop_xor_right (a : Block) (n j : Nat) (z z' v v' : Block) :
    ghashLoop a n j (z ^^^ z') (v ^^^ v') = ghashLoop a n j z v ^^^ ghashLoop a n j z' v' := by
  induction n generalizing j z z' v v' with
  | zero => rfl
  | succ n ih =>
    simp only [ghashLoop, ghashShift_xor, ← ih, xorAccumulate]
    split
    · congr 1
      ac_rfl
    · rfl

theorem ghashLoop_xor_left (a a' : Block) (n j : Nat) (z z' v : Block) :
    ghashLoop (a ^^^ a') n j (z ^^^ z') v = ghashLoop a n j z v ^^^ ghashLoop a' n j z' v := by
  induction n generalizing j z z' v with
  | zero => rfl
  | succ n ih =>
    simp only [ghashLoop, ← ih, xorAccumulate, BitVec.getMsbD_xor]
    congr 1
    cases a.getMsbD j <;> cases a'.getMsbD j
    case false.false => rfl
    case true.true =>
      show z ^^^ z' = z ^^^ v ^^^ (z' ^^^ v)
      rw [BitVec.xor_comm z' v, ← BitVec.xor_assoc, xor_cancel_right]
    all_goals
      simp only [Bool.xor_false, Bool.xor_true, Bool.not_false, Bool.false_eq_true, if_true, if_false]
      ac_rfl

theorem ghashMultiply_xor_right (a x y : Block) :
    ghashMultiply a (x ^^^ y) = ghashMultiply a x ^^^ ghashMultiply a y := by
  unfold ghashMultiply
  exact ghashLoop_xor_right a 128 0 0 0 x y

theorem ghashMultiply_xor_left (x y a : Block) :
    ghashMultiply (x ^^^ y) a = ghashMultiply x a ^^^ ghashMultiply y a := by
  unfold ghashMultiply
  exact ghashLoop_xor_left x y 128 0 0 0 a

/-- Settles O23, from the linearity of the loop in either operand. -/
theorem ghashDistributes : Obligations.GhashDistributes :=
  fun a x y => ⟨ghashMultiply_xor_right a x y, ghashMultiply_xor_left x y a⟩

/-! ### Commutativity (R89 (a)) -/

/-- The loop only adds and shifts, so what preserves both can be applied to its operands beforehand. -/
theorem map_ghashLoop {f : Block → Block} (hadd : ∀ x y, f (x ^^^ y) = f x ^^^ f y)
    (hshift : ∀ x, f (ghashShift x) = ghashShift (f x)) (a : Block) (n j : Nat) (z v : Block) :
    f (ghashLoop a n j z v) = ghashLoop a n j (f z) (f v) := by
  induction n generalizing j z v with
  | zero => rfl
  | succ n ih => rw [ghashLoop, ih, ghashLoop, hshift, apply_ite f, xorAccumulate, hadd, xorAccumulate]

theorem map_zero_of_additive {f : Block → Block} (hadd : ∀ x y, f (x ^^^ y) = f x ^^^ f y) : f 0 = 0 := by
  simpa using hadd 0 0

theorem map_ghashMultiply {f : Block → Block} (hadd : ∀ x y, f (x ^^^ y) = f x ^^^ f y)
    (hshift : ∀ x, f (ghashShift x) = ghashShift (f x)) (a b : Block) :
    f (ghashMultiply a b) = ghashMultiply a (f b) := by
  unfold ghashMultiply
  rw [map_ghashLoop hadd hshift, map_zero_of_additive hadd]

theorem ghashMultiply_ghashShift (a b : Block) : ghashMultiply a (ghashShift b) = ghashShift (ghashMultiply a b) :=
  (map_ghashMultiply ghashShift_xor (fun _ => rfl) a b).symm

/-- Multiplication by `c` passes through the loop that multiplies by `a`. -/
theorem ghashMultiply_left_comm (a b c : Block) :
    ghashMultiply c (ghashMultiply a b) = ghashMultiply a (ghashMultiply c b) :=
  map_ghashMultiply (ghashMultiply_xor_right c) (ghashMultiply_ghashShift c) a b

/-- The block whose one set bit is bit `j` of R85's numbering. -/
def msbBit (j : Nat) : Block := BitVec.twoPow 128 127 >>> j

theorem getMsbD_msbBit {j i : Nat} (hi : i < 128) : (msbBit j).getMsbD i = decide (i = j) := by
  rw [msbBit, BitVec.getMsbD_eq_getLsbD, BitVec.getLsbD_ushiftRight, BitVec.getLsbD_twoPow, decide_eq_true hi,
    Bool.true_and, decide_eq_true (by decide), Bool.true_and, decide_eq_decide]
  omega

/-- Before the last bit the shift carries nothing out. -/
theorem ghashShift_msbBit {j : Nat} (hj : j < 127) : ghashShift (msbBit j) = msbBit (j + 1) := by
  have hlow : (msbBit j).getLsbD 0 = false := by
    rw [msbBit, BitVec.getLsbD_ushiftRight, BitVec.getLsbD_twoPow, decide_eq_false (by omega : ¬ 127 = j + 0),
      Bool.and_false]
  rw [ghashShift_eq, hlow]
  simp [msbBit, BitVec.shiftRight_add]

/-- From the unit shifted to bit `j`, `n` passes copy the bits `j` to `j + n - 1` of `a`. -/
theorem getMsbD_ghashLoop_msbBit (a : Block) {n j : Nat} (hn : j + n ≤ 128) (z : Block) {i : Nat} (hi : i < 128) :
    (ghashLoop a n j z (msbBit j)).getMsbD i = (z.getMsbD i ^^ (decide (j ≤ i ∧ i < j + n) && a.getMsbD i)) := by
  induction n generalizing j z with
  | zero =>
    have hnone : ¬ (j ≤ i ∧ i < j + 0) := by omega
    simp only [ghashLoop, hnone, decide_false, Bool.false_and, Bool.xor_false]
  | succ n ih =>
    have hnext (z' : Block) :
        ghashLoop a n (j + 1) z' (ghashShift (msbBit j)) = ghashLoop a n (j + 1) z' (msbBit (j + 1)) := by
      cases n with
      | zero => rfl
      | succ n => rw [ghashShift_msbBit (by omega)]
    rw [ghashLoop, hnext, ih (by omega)]
    by_cases hij : i = j
    · subst hij
      have hbit : (if a.getMsbD i then xorAccumulate z (msbBit i) else z).getMsbD i = (z.getMsbD i ^^ a.getMsbD i) := by
        cases a.getMsbD i <;> simp [xorAccumulate, getMsbD_msbBit hi]
      simp [hbit]
    · have hbit : (if a.getMsbD j then xorAccumulate z (msbBit j) else z).getMsbD i = z.getMsbD i := by
        cases a.getMsbD j <;> simp [xorAccumulate, getMsbD_msbBit hi, hij]
      have hrange : (j + 1 ≤ i ∧ i < j + 1 + n) ↔ (j ≤ i ∧ i < j + (n + 1)) := by omega
      rw [hbit, decide_eq_decide.2 hrange]

theorem ghashMultiply_msbBit_zero (a : Block) : ghashMultiply a (msbBit 0) = a := by
  unfold ghashMultiply
  refine BitVec.eq_of_getMsbD_eq fun i hi => ?_
  rw [getMsbD_ghashLoop_msbBit a (by decide) 0 hi]
  simp [hi]

/-- Settles O24: the two left factors `a` and `b` of the unit are exchanged. -/
theorem ghashCommutes : Obligations.GhashCommutes := by
  intro a b
  have h := ghashMultiply_left_comm b (msbBit 0) a
  rwa [ghashMultiply_msbBit_zero, ghashMultiply_msbBit_zero] at h

end Sys2Proof.Proofs
end

section
/-! Blocks as integers (R8): a byte is a digit of the integer in base 256, byte 15 the lowest.  The length block of GCM
(45_gcm.md R178) and the counter increment (44_modes.md R150) are read off it. -/

namespace Sys2Proof.Proofs

open Sys2Proof Sys2Proof.Machine

/-! ### Digits -/

theorem byteAt_toNat (b : Block) (k : Nat) : (byteAt b k).toNat = int128 b / 2 ^ (8 * (15 - k)) % 256 := by
  rw [byteAt, BitVec.extractLsb'_toNat, Nat.shiftRight_eq_div_pow]
  rfl

/-! ### The length block (R178) -/

/-- The two counts of bits, which 32 bits hold for the lengths a GCM command accepts. -/
theorem int128_lengthBlock {a t : Nat} (ha : a ≤ 536870911) (ht : t ≤ 536870911) :
    int128 (lengthBlock a t) = 8 * a * 2 ^ 64 + 8 * t := by
  have hcount {n : Nat} (hn : n ≤ 536870911) : (BitVec.ofNat 32 (8 * n)).toNat = 8 * n := by
    rw [BitVec.toNat_ofNat]
    omega
  have happend {m n : Nat} (x : BitVec m) (y : BitVec n) : (x ++ y).toNat = x.toNat * 2 ^ n + y.toNat := by
    rw [BitVec.toNat_append, ← Nat.shiftLeft_add_eq_or_of_lt y.isLt, Nat.shiftLeft_eq]
  rw [int128, lengthBlock, happend, happend, happend, hcount ha, hcount ht]
  simp only [BitVec.toNat_ofNat]
  omega

/-- Four words make a block; byte `4 * c + i` of it is byte `i` of word `c`. -/
theorem byteAt_append_words (w0 w1 w2 w3 : Word) {i : Nat} (hi : i < 4) :
    byteAt (w0 ++ w1 ++ w2 ++ w3) i = wordByte w0 i ∧ byteAt (w0 ++ w1 ++ w2 ++ w3) (4 + i) = wordByte w1 i ∧
    byteAt (w0 ++ w1 ++ w2 ++ w3) (8 + i) = wordByte w2 i ∧ byteAt (w0 ++ w1 ++ w2 ++ w3) (12 + i) = wordByte w3 i := by
  have hhigh {v : Nat} (x : BitVec v) (y : Word) (k : Nat) :
      (x ++ y).extractLsb' (k + 32) 8 = x.extractLsb' k 8 := BitVec.extractLsb'_append_eq_of_le (Nat.le_add_left 32 k)
  have hlow {v : Nat} (x : BitVec v) (y : Word) : (x ++ y).extractLsb' (8 * (3 - i)) 8 = y.extractLsb' (8 * (3 - i)) 8 :=
    BitVec.extractLsb'_append_eq_of_add_le (by omega)
  have h0 : 8 * (15 - i) = 8 * (3 - i) + 32 + 32 + 32 := by omega
  have h1 : 8 * (15 - (4 + i)) = 8 * (3 - i) + 32 + 32 := by omega
  have h2 : 8 * (15 - (8 + i)) = 8 * (3 - i) + 32 := by omega
  have h3 : 8 * (15 - (12 + i)) = 8 * (3 - i) := by omega
  unfold byteAt wordByte
  rw [h0, h1, h2, h3]
  simp only [hhigh, hlow, and_self]

/-- Settles O25: the two counts are the odd words of the block, the others are zero. -/
theorem lengthBlockLayout : Obligations.LengthBlockLayout := by
  intro a t ha ht
  refine ⟨int128_lengthBlock ha ht, fun i hi => ?_⟩
  have hzero : wordByte 0#32 i = 0 := by simp [wordByte]
  obtain ⟨h0, h1, h2, h3⟩ := byteAt_append_words 0#32 (BitVec.ofNat 32 (8 * a)) 0#32 (BitVec.ofNat 32 (8 * t)) hi
  exact ⟨h0.trans hzero, h2.trans hzero, h1, h3⟩

/-! ### The increment (R150) -/

theorem int128_inc128 (c : Block) : int128 (inc128 c).1 = (int128 c + 1) % 2 ^ 128 := BitVec.toNat_add c 1

/-- The last `n` bytes are `ff` exactly when the last `n` digits are as great as can be. -/
theorem last_bytes_ff_iff (c : Block) {n : Nat} (hn : n ≤ 16) :
    (∀ k, k < n → byteAt c (15 - k) = 0xff) ↔ int128 c % 2 ^ (8 * n) = 2 ^ (8 * n) - 1 := by
  induction n with
  | zero => simp [Nat.mod_one]
  | succ n ih =>
    have hdigit : (byteAt c (15 - n)).toNat = int128 c / 2 ^ (8 * n) % 256 := by
      rw [byteAt_toNat, show 15 - (15 - n) = n by omega]
    have hpow : 2 ^ (8 * (n + 1)) = 2 ^ (8 * n) * 256 := by rw [Nat.mul_succ, Nat.pow_add]
    have hlt : int128 c % 2 ^ (8 * n) < 2 ^ (8 * n) := Nat.mod_lt _ (Nat.two_pow_pos _)
    rw [Nat.forall_lt_succ_right, ih (by omega), ← BitVec.toNat_inj, hdigit, hpow, Nat.mod_mul]
    simp only [BitVec.ofNat_eq_ofNat, BitVec.toNat_ofNat]
    have hmax : int128 c / 2 ^ (8 * n) % 256 ≤ 255 := Nat.le_of_lt_succ (Nat.mod_lt _ (by decide))
    rcases Nat.eq_or_lt_of_le hmax with htop | hless
    · rw [htop]
      omega
    · have hbound := Nat.mul_le_mul_left (2 ^ (8 * n)) (Nat.le_of_lt_succ hless)
      omega

/-- The bytes after byte `i` are the last `15 - i`. -/
theorem later_bytes_ff_iff (c : Block) (i : Nat) :
    (∀ j, j < 16 → i < j → byteAt c j = 0xff) ↔ int128 c % 2 ^ (8 * (15 - i)) = 2 ^ (8 * (15 - i)) - 1 := by
  rw [← last_bytes_ff_iff c (by omega)]
  constructor
  · exact fun h k hk => h (15 - k) (by omega) (by omega)
  · intro h j hj hij
    have hbyte := h (15 - j) (by omega)
    rwa [show 15 - (15 - j) = j by omega] at hbyte

/-- R150: the carry out of byte 0. -/
theorem inc128_carry_iff (c : Block) : (inc128 c).2 = true ↔ ∀ i, i < 16 → byteAt c i = 0xff := by
  have hall := last_bytes_ff_iff c (n := 16) le_rfl
  have hint : c = BitVec.allOnes 128 ↔ int128 c % 2 ^ (8 * 16) = 2 ^ (8 * 16) - 1 := by
    rw [← BitVec.toNat_inj, BitVec.toNat_allOnes, int128, Nat.mod_eq_of_lt c.isLt]
  rw [inc128, beq_iff_eq, hint, ← hall]
  constructor
  · intro h i hi
    have hbyte := h (15 - i) (by omega)
    rwa [show 15 - (15 - i) = i by omega] at hbyte
  · exact fun h k _ => h (15 - k) (by omega)

/-- The quotient grows when the remainder is as great as can be. -/
theorem add_one_div_eq_ite (n : Nat) {p : Nat} (hp : 0 < p) :
    (n + 1) / p = if n % p = p - 1 then n / p + 1 else n / p := by
  have hsplit := Nat.div_add_mod n p
  have hlt := Nat.mod_lt n hp
  split
  next h =>
    have hn : n + 1 = p * (n / p + 1) := by rw [Nat.mul_succ]; omega
    rw [hn, Nat.mul_div_cancel_left _ hp]
  next h =>
    have hn : n + 1 = n % p + 1 + p * (n / p) := by omega
    rw [hn, Nat.add_mul_div_left _ _ hp, Nat.div_eq_of_lt (by omega), Nat.zero_add]

/-- A digit of the counter, whose carry out of byte 0 is not kept. -/
theorem byteAt_inc128_toNat (c : Block) {i : Nat} (hi : i < 16) :
    (byteAt (inc128 c).1 i).toNat = (int128 c + 1) / 2 ^ (8 * (15 - i)) % 256 := by
  have hpow : (2 : Nat) ^ 128 = 2 ^ (8 * (15 - i)) * (256 * 2 ^ (8 * i)) := by
    rw [show 256 = 2 ^ 8 from rfl, ← Nat.pow_add, ← Nat.pow_add]
    congr 1
    omega
  rw [byteAt_toNat, int128_inc128, hpow, Nat.mod_mul_right_div_self, Nat.mod_mod_of_dvd _ (Nat.dvd_mul_right _ _)]

/-- R150: a byte is incremented when the carry out of the later bytes reaches it. -/
theorem byteAt_inc128 (c : Block) {i : Nat} (hi : i < 16) :
    byteAt (inc128 c).1 i =
      if (∀ j, j < 16 → i < j → byteAt c j = 0xff) then byteAt c i + 1 else byteAt c i := by
  simp only [later_bytes_ff_iff]
  refine BitVec.eq_of_toNat_eq ?_
  rw [byteAt_inc128_toNat c hi, add_one_div_eq_ite _ (Nat.two_pow_pos _)]
  split
  · rw [BitVec.toNat_add, byteAt_toNat]
    exact (Nat.mod_add_mod _ 256 1).symm
  · rw [byteAt_toNat]

/-- Settles O45: the integer, the carry and the bytes, the two latter from the digits of the integer. -/
theorem inc128AddsOne : Obligations.Inc128AddsOne :=
  fun c => ⟨int128_inc128 c, inc128_carry_iff c, fun _ => byteAt_inc128 c⟩

end Sys2Proof.Proofs
end

section
/-! INITKEYS (42_key_schedule.md R97) and the single-block commands (43_round_function.md R123, R128, R129): what each
leaves once its checks pass. -/

namespace Sys2Proof.Proofs

open Sys2Proof Sys2Proof.Machine Sys2Proof.Laws

/-! ### The register file (R16) -/

theorem wAt_eq_getElem (w : Vector Word Config.wRegs) {i : Nat} (hi : i < Config.wRegs) : wAt w i = w[i] := by
  simp [wAt, List.getD_eq_getElem?_getD, hi]

theorem wAt_of_ge (w : Vector Word Config.wRegs) {i : Nat} (hi : Config.wRegs ≤ i) : wAt w i = 0 := by
  simp [wAt, List.getD_eq_getElem?_getD, hi]

theorem wAt_loadWords_of_lt (w : Vector Word Config.wRegs) {new : List Word} {i : Nat} (hi : i < Config.wRegs)
    (hnew : i < new.length) : wAt (loadWords w new) i = new.getD i 0 := by
  rw [wAt_eq_getElem _ hi, loadWords]
  simp [List.getD_eq_getElem?_getD, hnew]

theorem wAt_loadWords_of_ge (w : Vector Word Config.wRegs) {new : List Word} {i : Nat} (hnew : new.length ≤ i) :
    wAt (loadWords w new) i = wAt w i := by
  rcases Nat.lt_or_ge i Config.wRegs with hi | hi
  · rw [wAt_eq_getElem _ hi, wAt_eq_getElem _ hi, loadWords]
    simp [List.getD_eq_getElem?_getD, hnew]
  · rw [wAt_of_ge _ hi, wAt_of_ge _ hi]

/-! ### INITKEYS (R97) -/

theorem nkOf_eq {ksize : BitVec 2} (h : ksize ≠ 0) : nkOf ksize = 2 * ksize.toNat + 2 := if_neg h

/-- R14: the words of the largest schedule fill the register file. -/
theorem keyExpansion_length_le (key : List Byte) {ksize : BitVec 2} (h : ksize ≠ 0) :
    (keyExpansion key (nkOf ksize)).length ≤ Config.wRegs := by
  have := ksize.isLt
  rw [keyExpansion_length, nkOf_eq h, Config.wRegs]
  omega

theorem exec_initkeys_of_ready {s : State} {src : Desc} (h : Ready (.initkeys src) s) :
    exec (.initkeys src) s = .next (complete .ok s.mem (loadKey (bufBytes s src) s)) := by
  have hpass := (initkeysChecks_pass_iff src s).2 h
  obtain ⟨⟨⟨hksize, -, hlen⟩, -⟩, -⟩ := h
  have hbytes : keybytesOf s.ksize = src.len.toNat := by rw [keybytesOf, nkOf_eq hksize, hlen]
  rw [exec, execInitkeys, hpass, hbytes]
  rfl

/-- Settles O30: the expansion has NW words, and they replace the first NW of W. -/
theorem initkeysLoadsSchedule : Obligations.InitkeysLoadsSchedule := by
  intro s src h
  have hexec := exec_initkeys_of_ready h
  obtain ⟨⟨⟨hksize, -⟩, -⟩, -⟩ := h
  have hfits := keyExpansion_length_le (bufBytes s src) hksize
  have hlen : (keyExpansion (bufBytes s src) (nkOf s.ksize)).length = 4 * (2 * s.ksize.toNat + 2 + 6 + 1) := by
    rw [keyExpansion_length, nkOf_eq hksize]
  refine ⟨_, hexec, endsWith_complete .ok s.mem (loadKey _ s), rfl, rfl, rfl, fun i hi => ?_, fun i hi => ?_⟩
  · rw [complete_w, loadKey_w, wAt_loadWords_of_lt _ (by omega) (by omega), nkOf_eq hksize]
  · rw [complete_w, loadKey_w, wAt_loadWords_of_ge _ (by omega)]

/-! ### The single-block commands -/

/-- Settles O33, from the products of the two matrices. -/
theorem invMixColumnsUndoesMixColumns : Obligations.InvMixColumnsUndoesMixColumns :=
  fun s => ⟨invMixColumns_mixColumns s, mixColumns_invMixColumns s⟩

theorem inRange_top {d : Desc} (h : InRange d) (hlen : d.len ≠ 0) : d.addr.toNat + d.len.toNat ≤ Config.addressSpace :=
  h.resolve_left hlen

/-- Outside a buffer of `n` bytes is below it or past it. -/
theorem lt_or_le_of_not_inBuffer {d : Desc} {n a : Nat} (hlen : d.len.toNat = n) (h : ¬ InBuffer d a) :
    a < d.addr.toNat ∨ d.addr.toNat + n ≤ a := by
  unfold InBuffer at h
  omega

/-- R128, R129: a command whose work is one block `b` written to DST. -/
theorem completedInto_of_block_written {s : State} {i : Instr} {dst : Desc} {b : Block} (hwf : Memory.wf s.mem = true)
    (hlen : dst.len = 16) (hrange : InRange dst)
    (hexec : exec i s = .next (complete .ok (writeBlock s.mem dst.addr.toNat b) s)) :
    ∃ t, exec i s = .next t ∧ CompletedInto dst s t ∧ bufBlock t dst 0 = b := by
  have hbytes := (len_sixteen_iff dst).2 hlen
  have htop := inRange_top hrange (by simp [hlen])
  rw [hbytes] at htop
  exact ⟨_, hexec, ⟨endsWith_complete _ _ s, ⟨rfl, rfl, rfl⟩,
    fun a ha => readByte_writeBlock_outside (lt_or_le_of_not_inBuffer hbytes ha)⟩, readBlock_writeBlock_self hwf htop⟩

/-- The part of ENCBLK's and DECBLK's checks that speaks of DST. -/
theorem dst_of_ready_block {src dst : Desc} {s : State} (h : Ready (.encblk src dst) s) :
    dst.len = 16 ∧ InRange dst := by
  obtain ⟨⟨⟨-, -, -, hlen⟩, -, hranges⟩, -⟩ := h
  exact ⟨hlen, hranges dst (by simp [usedBuffers])⟩

/-- Settles O35: the work is E of the block read from SRC, written to DST. -/
theorem encblkEncryptsBlock : Obligations.EncblkEncryptsBlock := by
  intro s src dst hwf h
  obtain ⟨hlen, hrange⟩ := dst_of_ready_block h
  exact completedInto_of_block_written hwf hlen hrange (runCipher_runs ((blockChecks_pass_iff src dst s).2 h) _ s)

/-- Settles O36: the same of D; the checks are those of ENCBLK. -/
theorem decblkDecryptsBlock : Obligations.DecblkDecryptsBlock := by
  intro s src dst hwf h
  have hready : Ready (.encblk src dst) s := h
  obtain ⟨hlen, hrange⟩ := dst_of_ready_block hready
  exact completedInto_of_block_written hwf hlen hrange (runCipher_runs ((blockChecks_pass_iff src dst s).2 hready) _ s)

end Sys2Proof.Proofs
end

section
/-! The mode commands complete (44_modes.md R142 to R154).  Each runs its machine on blocks, so block `i` of DST is the
machine's output; the register before block `i` is the IV at first, then what R154's equation names: the output block
before, the input block before, the keystream block before, or the counter. -/

namespace Sys2Proof.Proofs

open Sys2Proof Sys2Proof.Machine Sys2Proof.Laws

/-! ### The register before a block -/

theorem ModeStep.register_eq (m : ModeStep) (v : Block) (x : Nat → Block) (i : Nat) :
    m.register v x i = if i = 0 then v else m.next (m.register v x (i - 1)) (x (i - 1)) := by
  cases i <;> rfl

/-- A machine whose register takes the block written. -/
theorem ModeStep.register_of_next_eq_out {m : ModeStep} (h : m.next = m.out) {v : Block} {x y : Nat → Block} {n i : Nat}
    (hy : ∀ j, j < n → y j = m.output v x j) (hi : i < n) : m.register v x i = if i = 0 then v else y (i - 1) := by
  rw [m.register_eq, h, hy (i - 1) (by omega)]
  rfl

/-- A machine whose register takes the block read. -/
theorem ModeStep.register_of_next_eq_in {m : ModeStep} (h : ∀ v x, m.next v x = x) (v : Block) (x : Nat → Block) (i : Nat) :
    m.register v x i = if i = 0 then v else x (i - 1) := by
  rw [m.register_eq, h]

/-- R151: the counter before block `i`. -/
theorem ctrMode_register (k : Schedule) (v : Block) (x : Nat → Block) (i : Nat) :
    (ctrMode k).register v x i = block128 (int128 v + i) := by
  induction i with
  | zero => exact (BitVec.ofNat_toNat 128 v).trans (BitVec.setWidth_eq v) |>.symm
  | succ i ih =>
    rw [ModeStep.register, ih]
    exact inc128_block128 (int128 v) i

/-! ### The obligations -/

/-- Settles O37: ECB has no register. -/
theorem ecbEncEncryptsEachBlock : Obligations.EcbEncEncryptsEachBlock := by
  intro s n src dst hwf hready
  obtain ⟨t, ht, hinto, -, hout⟩ := ecbEnc_runs.completes hwf hready
  exact ⟨t, ht, hinto, hout, ecbEncBlocks_of_equation hout⟩

/-- Settles O38, as for encryption. -/
theorem ecbDecDecryptsEachBlock : Obligations.EcbDecDecryptsEachBlock := by
  intro s n src dst hwf hready
  obtain ⟨t, ht, hinto, -, hout⟩ := ecbDec_runs.completes hwf hready
  exact ⟨t, ht, hinto, hout, ecbDecBlocks_of_equation hout⟩

/-- Settles O39: the register is the block written before. -/
theorem cbcEncChainsCiphertext : Obligations.CbcEncChainsCiphertext := by
  intro s n src dst iv hwf hready
  obtain ⟨t, ht, hinto, -, hout⟩ := cbcEnc_runs.completes hwf hready
  have heq (i : Nat) (hi : i < n.toNat) : bufBlock t dst i = encryptBlock (scheduleOf s)
      (bufBlock s src i ^^^ (if i = 0 then bufBlock s iv 0 else bufBlock t dst (i - 1))) := by
    rw [← (cbcEncMode (scheduleOf s)).register_of_next_eq_out rfl hout hi]
    exact hout i hi
  exact ⟨t, ht, hinto, heq, cbcEncBlocks_of_equation heq⟩

/-- Settles O40: the register is the block read before. -/
theorem cbcDecUnchainsCiphertext : Obligations.CbcDecUnchainsCiphertext := by
  intro s n src dst iv hwf hready
  obtain ⟨t, ht, hinto, -, hout⟩ := cbcDec_runs.completes hwf hready
  have heq (i : Nat) (hi : i < n.toNat) : bufBlock t dst i = decryptBlock (scheduleOf s) (bufBlock s src i) ^^^
      (if i = 0 then bufBlock s iv 0 else bufBlock s src (i - 1)) := by
    rw [← (cbcDecMode (scheduleOf s)).register_of_next_eq_in (fun _ _ => rfl)]
    exact hout i hi
  exact ⟨t, ht, hinto, heq, cbcDecBlocks_of_equation heq⟩

/-- Settles O41: the register is the block written before. -/
theorem cfbEncFeedsBackCiphertext : Obligations.CfbEncFeedsBackCiphertext := by
  intro s n src dst iv hwf hready
  obtain ⟨t, ht, hinto, -, hout⟩ := cfbEnc_runs.completes hwf hready
  have heq (i : Nat) (hi : i < n.toNat) : bufBlock t dst i = bufBlock s src i ^^^ encryptBlock (scheduleOf s)
      (if i = 0 then bufBlock s iv 0 else bufBlock t dst (i - 1)) := by
    rw [← (cfbEncMode (scheduleOf s)).register_of_next_eq_out rfl hout hi]
    exact hout i hi
  exact ⟨t, ht, hinto, heq, cfbEncBlocks_of_equation heq⟩

/-- Settles O42: the register is the block read before. -/
theorem cfbDecFeedsBackCiphertext : Obligations.CfbDecFeedsBackCiphertext := by
  intro s n src dst iv hwf hready
  obtain ⟨t, ht, hinto, -, hout⟩ := cfbDec_runs.completes hwf hready
  have heq (i : Nat) (hi : i < n.toNat) : bufBlock t dst i = bufBlock s src i ^^^ encryptBlock (scheduleOf s)
      (if i = 0 then bufBlock s iv 0 else bufBlock s src (i - 1)) := by
    rw [← (cfbDecMode (scheduleOf s)).register_of_next_eq_in (fun _ _ => rfl)]
    exact hout i hi
  exact ⟨t, ht, hinto, heq, cfbDecBlocks_of_equation heq⟩

/-- R148: output XOR input is the register's next value, and the register takes it. -/
theorem ofbMode_equation {k : Schedule} {v : Block} {x y : Nat → Block} {n : Nat}
    (hy : ∀ j, j < n → y j = (ofbMode k).output v x j) (j : Nat) (hj : j < n) :
    y j ^^^ x j = encryptBlock k (if j = 0 then v else y (j - 1) ^^^ x (j - 1)) := by
  have hstream (i : Nat) (hi : i < n) : y i ^^^ x i = encryptBlock k ((ofbMode k).register v x i) := by
    rw [hy i hi]
    show x i ^^^ encryptBlock k _ ^^^ x i = _
    rw [BitVec.xor_comm (x i), xor_cancel_right]
  rw [hstream j hj, hstream (j - 1) (by omega), (ofbMode k).register_eq v x j]
  rfl

/-- Settles O43: both commands run the same machine, whose register is the keystream block before. -/
theorem ofbAppliesKeystream : Obligations.OfbAppliesKeystream := by
  intro s n src dst iv i hi hwf hready
  have hruns : RunsMode i n src dst ofbMode (bufBlock s iv 0) s := by
    obtain rfl | rfl := hi
    · exact ofbEnc_runs
    · exact ofbDec_runs
  obtain ⟨t, ht, hinto, -, hout⟩ := hruns.completes hwf hready
  exact ⟨t, ht, hinto, ofbMode_equation hout, ofbBlocks_of_equation (ofbMode_equation hout)⟩

/-- Settles O44: both commands run the same machine, whose register is the counter. -/
theorem ctrAppliesCounterKeystream : Obligations.CtrAppliesCounterKeystream := by
  intro s n src dst iv i hi hwf hready
  have hruns : RunsMode i n src dst ctrMode (bufBlock s iv 0) s := by
    obtain rfl | rfl := hi
    · exact ctrEnc_runs
    · exact ctrDec_runs
  obtain ⟨t, ht, hinto, -, hout⟩ := hruns.completes hwf hready
  have heq (j : Nat) (hj : j < n.toNat) : bufBlock t dst j =
      bufBlock s src j ^^^ encryptBlock (scheduleOf s) (block128 (int128 (bufBlock s iv 0) + j)) := by
    rw [← ctrMode_register (scheduleOf s) _ (bufBlock s src)]
    exact hout j hj
  exact ⟨t, ht, hinto, heq, ctrBlocks_of_equation heq⟩

/-! ### The keystream of CTR (R226) -/

theorem encryptBlock_injective (k : Schedule) : Function.Injective (encryptBlock k) :=
  Function.LeftInverse.injective (decryptBlock_encryptBlock k)

theorem block128_inj {a b : Nat} (ha : a < 2 ^ 128) (hb : b < 2 ^ 128) (h : block128 a = block128 b) : a = b := by
  have hn := congrArg BitVec.toNat h
  rwa [block128, block128, BitVec.toNat_ofNat, BitVec.toNat_ofNat, Nat.mod_eq_of_lt ha, Nat.mod_eq_of_lt hb] at hn

/-- Settles O46: the counters differ, and E is injective. -/
theorem ctrKeystreamBlocksDiffer : Obligations.CtrKeystreamBlocksDiffer := by
  intro s n iv i j hfit hi hj hne heq
  have hlast : int128 (bufBlock s iv 0) + (n.toNat - 1) < 2 ^ 128 :=
    hfit.resolve_left fun h => by simp [h] at hi
  have hcounter := block128_inj (by omega) (by omega) (encryptBlock_injective _ heq)
  omega

end Sys2Proof.Proofs
end

section
/-! The GCM commands (45_gcm.md R180 to R187).  A GCM.ENC that is ready leaves the memory of its text loop with the tag
written over it, `exec_gcmEnc_of_ready`; a GCM.DEC whose TAG holds the tag leaves that of its own loop.  The keystream is
XORed twice in the round trip, so it cancels. -/

namespace Sys2Proof.Proofs

open Sys2Proof Sys2Proof.Machine Sys2Proof.Laws

/-! ### Buffers -/

/-- The bytes of a run are a string's when each is. -/
theorem memRead_eq_of_bytes {m : Memory} {a n : Nat} {v : List Byte} (hv : v.length = n)
    (h : ∀ k, k < n → readByte m (a + k) = v.getD k 0) : memRead m a n = v := by
  refine List.ext_getElem (by simp [hv]) fun k hk hk' => ?_
  have hbyte := h k (hv ▸ hk')
  rw [List.getD_eq_getElem?_getD, List.getElem?_eq_getElem hk'] at hbyte
  simpa [memRead] using hbyte

/-! ### When a GCM command is ready -/

/-- The descriptors' part of a GCM command's checks. -/
structure GcmOperands (src dst iv aad tag : Desc) : Prop where
  dst_len : dst.len = src.len
  iv_len : iv.len = 12
  tag_len : tag.len = 16
  src_max : src.len.toNat ≤ 536870911
  aad_max : aad.len.toNat ≤ 536870911
  ranges : InRange src ∧ InRange dst ∧ InRange iv ∧ InRange aad ∧ InRange tag
  apart : Apart src dst

theorem ready_gcm_iff {src dst iv aad tag : Desc} {s : State} :
    Ready (.gcmEnc src dst iv aad tag) s ↔ s.ksize ≠ 0 ∧ s.keyvalid = true ∧ GcmOperands src dst iv aad tag := by
  constructor
  · rintro ⟨⟨⟨hksize, hkeyed, hdst, hiv, htag⟩, ⟨hsrcMax, haadMax⟩, hranges⟩, hap, -⟩
    exact ⟨hksize, hkeyed, hdst, hiv, htag, hsrcMax, haadMax, by simpa [RangesOk, usedBuffers] using hranges, hap⟩
  · rintro ⟨hksize, hkeyed, hdst, hiv, htag, hsrcMax, haadMax, hranges, hap⟩
    exact ⟨⟨⟨hksize, hkeyed, hdst, hiv, htag⟩, ⟨hsrcMax, haadMax⟩, by simpa [RangesOk, usedBuffers] using hranges⟩, hap,
      trivial⟩

theorem gcmChecks_codes (src dst iv aad tag : Desc) (s : State) : ∀ c ∈ gcmChecks src dst iv aad tag s, c.2 ≠ .ok := by
  simp [gcmChecks, keyChecks]

theorem bufBytes_nonce {iv : Desc} (h : iv.len = 12) (s : State) : bufBytes s iv = memRead s.mem iv.addr.toNat 12 := by
  rw [bufBytes, h]
  rfl

/-! ### GCM.ENC (R182) -/

/-- R182: the text loop makes the memory `m`, and the tag of the ciphertext is written over it. -/
theorem gcmEncBody_mem {k : Schedule} {src dst iv aad tag : Desc} {wk : Work} (hwf : Memory.wf wk.mem = true)
    (hops : GcmOperands src dst iv aad tag) {nonce text : List Byte}
    (hnonce : nonce = memRead wk.mem iv.addr.toNat 12) (htext : text = memRead wk.mem src.addr.toNat src.len.toNat) :
    ∃ m, Memory.wf m = true ∧ memRead m dst.addr.toNat src.len.toNat = gcmCtr k nonce text ∧
      (∀ a, ¬ InBuffer dst a → readByte m a = readByte wk.mem a) ∧
      (gcmEncBody src dst iv aad tag k wk).mem = writeBlock m tag.addr.toNat
        (gcmTag k nonce (memRead wk.mem aad.addr.toNat aad.len.toNat) (gcmCtr k nonce text)) := by
  subst hnonce htext
  obtain ⟨-, hdst, -⟩ := hops.ranges
  obtain ⟨out, hout, hwf', hh, hej0, hacc, hread, hframe⟩ := gcmEnc_textLoop (k := k) (m := wk.mem)
    (nonce := memRead wk.mem iv.addr.toNat 12) (wk := authPhase aad (gcmSetup iv k wk)) hwf (by simp) hops.dst_len hdst
    hops.apart (by simp)
  subst hout
  refine ⟨_, hwf', hread, hframe, ?_⟩
  refine congrArg (writeBlock _ tag.addr.toNat) ?_
  simp [tagOf, foldLengths, hh, hej0, hacc, authPhase_acc, gcmTag]

theorem exec_gcmEnc_of_ready {s : State} {src dst iv aad tag : Desc} (hwf : Memory.wf s.mem = true)
    (hready : Ready (.gcmEnc src dst iv aad tag) s) :
    ∃ m, Memory.wf m = true ∧ bufBytes { s with mem := m } dst = gcmCtr (scheduleOf s) (bufBytes s iv) (bufBytes s src) ∧
      (∀ a, ¬ InBuffer dst a → readByte m a = readByte s.mem a) ∧
      exec (.gcmEnc src dst iv aad tag) s = .next (complete .ok (writeBlock m tag.addr.toNat (gcmTag (scheduleOf s)
        (bufBytes s iv) (bufBytes s aad) (gcmCtr (scheduleOf s) (bufBytes s iv) (bufBytes s src)))) s) := by
  have hpass := (gcmChecks_pass_iff src dst iv aad tag s).2 hready
  obtain ⟨-, -, hops⟩ := ready_gcm_iff.1 hready
  obtain ⟨m, hwf', hread, hframe, hmem⟩ := gcmEncBody_mem (k := scheduleOf s) (wk := workOf s) hwf hops
    (bufBytes_nonce hops.iv_len s) rfl
  refine ⟨m, hwf', ?_, hframe, ?_⟩
  · rw [bufBytes, hops.dst_len]
    exact hread
  · exact (runCipher_runs hpass _ s).trans (congrArg (fun m => Host.Outcome.next (complete .ok m s)) hmem)

/-- Settles O49: the tag is written last, over a memory that holds the ciphertext. -/
theorem gcmEncTagWrittenLast : Obligations.GcmEncTagWrittenLast := by
  intro s src dst iv aad tag hwf hready
  obtain ⟨m, hwf', hdst, hframe, hexec⟩ := exec_gcmEnc_of_ready hwf hready
  obtain ⟨-, -, hops⟩ := ready_gcm_iff.1 hready
  obtain ⟨-, -, -, -, htagRange⟩ := hops.ranges
  have htagLen : tag.len.toNat = 16 := (len_sixteen_iff tag).2 hops.tag_len
  have htop := inRange_top htagRange (by simp [hops.tag_len])
  rw [htagLen] at htop
  refine ⟨_, hexec, endsWith_complete _ _ s, ⟨rfl, rfl, rfl⟩, readBlock_writeBlock_self hwf' htop, ?_, ?_⟩
  · intro j hj hout
    rw [complete_mem, readByte_writeBlock_outside (lt_or_le_of_not_inBuffer htagLen hout), ← hdst, bufBytes,
      hops.dst_len, getD_memRead m _ hj]
  · intro a hdstOut htagOut
    rw [complete_mem, readByte_writeBlock_outside (lt_or_le_of_not_inBuffer htagLen htagOut), hframe a hdstOut]

/-- Settles O48: apart from TAG, every byte of DST is one that the tag has not overwritten. -/
theorem gcmEncSealsText : Obligations.GcmEncSealsText := by
  intro s src dst iv aad tag hwf hready hdisjoint
  obtain ⟨t, hexec, hends, hctx, htag, hbytes, hframe⟩ := gcmEncTagWrittenLast s src dst iv aad tag hwf hready
  obtain ⟨-, -, hops⟩ := ready_gcm_iff.1 hready
  have hdst : bufBytes t dst = gcmCtr (scheduleOf s) (bufBytes s iv) (bufBytes s src) := by
    rw [bufBytes, hops.dst_len]
    refine memRead_eq_of_bytes (by simp [bufBytes]) fun j hj => hbytes j hj fun hin => hdisjoint _ ⟨hin, ?_⟩
    rw [InBuffer, hops.dst_len]
    omega
  exact ⟨t, hexec, hends, hctx, hframe, hdst, hdst ▸ htag⟩

/-! ### GCM.DEC (R183) -/

/-- Settles O50: the tags agree, so the second pass decrypts. -/
theorem gcmDecOpensText : Obligations.GcmDecOpensText := by
  intro s src dst iv aad tag hwf hready htag
  have hready' : Ready (.gcmEnc src dst iv aad tag) s := hready
  have hpass := (gcmChecks_pass_iff src dst iv aad tag s).2 hready'
  obtain ⟨-, -, hops⟩ := ready_gcm_iff.1 hready'
  obtain ⟨-, hdst, -⟩ := hops.ranges
  have hbody : gcmDecBody src dst iv aad tag (scheduleOf s) (workOf s) = (gcmDecrypt src dst iv (scheduleOf s)
      (gcmAuthenticate src iv aad tag (scheduleOf s) (workOf s)), .ok) := by
    rw [bufBytes_nonce hops.iv_len] at htag
    exact (gcmDecBody_eq src dst iv aad tag _ _).trans (if_pos htag.symm)
  have hexec : exec (.gcmDec src dst iv aad tag) s = .next (complete .ok (gcmDecrypt src dst iv (scheduleOf s)
      (gcmAuthenticate src iv aad tag (scheduleOf s) (workOf s))).mem s) := by
    rw [exec, execGcmDec, runCipher_runs hpass, hbody]
  obtain ⟨hread, hframe⟩ := gcmDec_textLoop (k := scheduleOf s) (m := s.mem) (nonce := bufBytes s iv)
    (wk := { gcmAuthenticate src iv aad tag (scheduleOf s) (workOf s) with
      ctrb := initialCounter (memRead (gcmAuthenticate src iv aad tag (scheduleOf s) (workOf s)).mem iv.addr.toNat 12) })
    hwf (by simp) hops.dst_len hdst hops.apart (by simp [bufBytes_nonce hops.iv_len])
  refine ⟨_, hexec, ⟨endsWith_complete _ _ s, ⟨rfl, rfl, rfl⟩, hframe⟩, ?_⟩
  rw [bufBytes, hops.dst_len]
  exact hread

/-! ### The round trip (R187) -/

theorem gcmCtr_gcmCtr (k : Schedule) (nonce x : List Byte) : gcmCtr k nonce (gcmCtr k nonce x) = x := by
  refine List.ext_getElem (by simp) fun j hj hj' => ?_
  have hbyte := gcmCtr_getD k nonce (gcmCtr k nonce x) (j := j) (by simpa using hj')
  rw [gcmCtr_getD k nonce x hj', xor_cancel_right] at hbyte
  simpa [List.getD_eq_getElem?_getD, hj, hj'] using hbyte

/-- A GCM.ENC that ended with OK was ready. -/
theorem ready_of_gcmEnc_ok {s t : State} {src dst iv aad tag : Desc}
    (hexec : exec (.gcmEnc src dst iv aad tag) s = .next t) (hlast : t.last = 0) : Ready (.gcmEnc src dst iv aad tag) s :=
  (gcmChecks_pass_iff src dst iv aad tag s).1 (checks_pass_of_last_zero (gcmChecks_codes src dst iv aad tag s) hexec hlast)

/-- Settles O52: the tag in TAG is that of the ciphertext, and the keystream is XORed twice. -/
theorem gcmRoundTrip : Obligations.GcmRoundTrip := by
  intro s t src dst iv aad tag dst2 iv2 aad2 tag2 hwf hexec hlast hdisjoint hlen hrange hap hivLen hivRange hiv haadLen
    haadRange haad htagLen htagRange htag
  have hready := ready_of_gcmEnc_ok hexec hlast
  obtain ⟨t', hexec', -, hctx, -, hcipher, htagOf⟩ := gcmEncSealsText s src dst iv aad tag hwf hready hdisjoint
  obtain rfl : t = t' := Host.Outcome.next.inj (hexec.symm.trans hexec')
  have hwf' : Memory.wf t.mem = true := by
    obtain ⟨m, hm, -, -, hexec''⟩ := exec_gcmEnc_of_ready hwf hready
    obtain rfl := Host.Outcome.next.inj (hexec.symm.trans hexec'')
    exact writeBlock_wf _ _ hm
  obtain ⟨hksize, hkeyed, hops⟩ := ready_gcm_iff.1 hready
  have ⟨eksize, ekeyvalid, _⟩ := hctx
  obtain ⟨-, hdstRange, -⟩ := hops.ranges
  have hops2 : GcmOperands dst dst2 iv2 aad2 tag2 :=
    ⟨hlen, hivLen, htagLen, hops.dst_len ▸ hops.src_max, haadLen ▸ hops.aad_max,
      ⟨hdstRange, hrange, hivRange, haadRange, htagRange⟩, hap⟩
  have hready2 : Ready (.gcmDec dst dst2 iv2 aad2 tag2) t :=
    ready_gcm_iff.2 ⟨eksize.symm ▸ hksize, ekeyvalid.trans hkeyed, hops2⟩
  obtain ⟨u, hu, ⟨⟨hulast, -⟩, -⟩, hplain⟩ := gcmDecOpensText t dst dst2 iv2 aad2 tag2 hwf' hready2
    (by rw [htag, htagOf, hiv, haad, scheduleOf_eq hctx])
  exact ⟨u, hu, hulast, by rw [hplain, hiv, scheduleOf_eq hctx, hcipher, gcmCtr_gcmCtr]⟩

end Sys2Proof.Proofs
end

section
/-! What a command does once its checks pass, said once: `exec_cases`.  CONFIG and INITKEYS write the context and no
byte of memory; a cipher command writes memory within its output buffers and nothing of the context (42_key_schedule.md
R104; 20_memory.md R41). -/

namespace Sys2Proof.Proofs

open Sys2Proof Sys2Proof.Machine Sys2Proof.Laws

/-! ### All a command can do -/

/-- The work of a cipher command; CONFIG and INITKEYS have none. -/
def cipherBody : Instr → Schedule → Work → Work × ResultCode
  | .config _                 => fun _ wk => (wk, .ok)
  | .initkeys _               => fun _ wk => (wk, .ok)
  | .encblk src dst           => returnOk (encblkBody src dst)
  | .decblk src dst           => returnOk (decblkBody src dst)
  | .ecbEnc n src dst         => returnOk (ecbEncBody n src dst)
  | .ecbDec n src dst         => returnOk (ecbDecBody n src dst)
  | .cbcEnc n src dst iv      => returnOk (cbcEncBody n src dst iv)
  | .cbcDec n src dst iv      => returnOk (cbcDecBody n src dst iv)
  | .cfbEnc n src dst iv      => returnOk (cfbEncBody n src dst iv)
  | .cfbDec n src dst iv      => returnOk (cfbDecBody n src dst iv)
  | .ofbEnc n src dst iv      => returnOk (ofbBody n src dst iv)
  | .ofbDec n src dst iv      => returnOk (ofbBody n src dst iv)
  | .ctrEnc n src dst iv      => returnOk (ctrBody n src dst iv)
  | .ctrDec n src dst iv      => returnOk (ctrBody n src dst iv)
  | .gcmEnc src dst iv aad tag => returnOk (gcmEncBody src dst iv aad tag)
  | .gcmDec src dst iv aad tag => gcmDecBody src dst iv aad tag

/-- The state after a cipher command whose checks pass. -/
def cipherCompletion (i : Instr) (s : State) : State :=
  complete (cipherBody i (scheduleOf s) (workOf s)).2 (cipherBody i (scheduleOf s) (workOf s)).1.mem s

/-- The state after INITKEYS whose checks pass. -/
def initkeysCompletion (src : Desc) (s : State) : State :=
  complete .ok s.mem (loadKey (memRead s.mem src.addr.toNat (keybytesOf s.ksize)) s)

theorem exec_of_failure {i : Instr} {s : State} {r : ResultCode} (h : firstFailure (checksOf i s) = some r) :
    exec i s = .next (afterError r s) := by
  obtain ⟨r', hr', hexec⟩ | ⟨hnone, -⟩ := exec_ends i s
  · rw [hexec, Option.some.inj (hr'.symm.trans h)]
  · simp [hnone] at h

theorem exec_cipher_of_pass {i : Instr} {s : State} (hi : isCipher i = true)
    (h : firstFailure (checksOf i s) = none) : exec i s = .next (cipherCompletion i s) := by
  cases i with
  | config kb | initkeys src => simp [isCipher] at hi
  | _ => exact runCipher_runs h _ s

theorem exec_initkeys_of_pass {src : Desc} {s : State} (h : firstFailure (checksOf (.initkeys src) s) = none) :
    exec (.initkeys src) s = .next (initkeysCompletion src s) := by
  have hcs : firstFailure (initkeysChecks src s) = none := h
  rw [exec, execInitkeys, hcs]
  rfl

theorem config_of_pass {kb : BitVec 16} {s : State} (h : firstFailure (checksOf (.config kb) s) = none) :
    KeySizeOk (.config kb) ∧ ∃ k, ksizeOfBits kb = some k := by
  have hsize : KeySizeOk (.config kb) := by
    by_contra hnot
    simp [firstFailure_config_of_not hnot] at h
  refine ⟨hsize, ?_⟩
  obtain rfl | rfl | rfl := hsize <;> exact ⟨_, rfl⟩

/-- How a command whose checks pass leaves the state. -/
inductive Completion : Instr → State → State → Prop where
  | config {kb : BitVec 16} {k : BitVec 2} {s : State} : KeySizeOk (.config kb) → ksizeOfBits kb = some k →
      Completion (.config kb) s (complete .ok s.mem (configure k s))
  | initkeys {src : Desc} {s : State} : Ready (.initkeys src) s →
      Completion (.initkeys src) s (initkeysCompletion src s)
  | cipher {i : Instr} {s : State} : isCipher i = true → firstFailure (checksOf i s) = none →
      Completion i s (cipherCompletion i s)

/-- All a command can do: the first failing check is raised, or the command completes. -/
theorem exec_cases {i : Instr} {s t : State} (h : exec i s = .next t) :
    (∃ r, firstFailure (checksOf i s) = some r ∧ t = afterError r s) ∨ Completion i s t := by
  cases hcs : firstFailure (checksOf i s) with
  | some r => exact .inl ⟨r, rfl, Host.Outcome.next.inj (h.symm.trans (exec_of_failure hcs))⟩
  | none =>
    refine .inr ?_
    by_cases hi : isCipher i = true
    · obtain rfl := Host.Outcome.next.inj (h.symm.trans (exec_cipher_of_pass hi hcs))
      exact .cipher hi hcs
    · cases i with
      | config kb =>
        obtain ⟨hsize, k, hk⟩ := config_of_pass hcs
        obtain rfl := Host.Outcome.next.inj (h.symm.trans (exec_config_of_some hk s))
        exact .config hsize hk
      | initkeys src =>
        obtain rfl := Host.Outcome.next.inj (h.symm.trans (exec_initkeys_of_pass hcs))
        exact .initkeys ((initkeysChecks_pass_iff src s).1 hcs)
      | _ => exact absurd rfl hi

/-! ### The context (R104) -/

theorem sameContext_afterError (r : ResultCode) (s : State) : SameContext s (afterError r s) := ⟨rfl, rfl, rfl⟩

theorem sameContext_cipherCompletion (i : Instr) (s : State) : SameContext s (cipherCompletion i s) := ⟨rfl, rfl, rfl⟩

/-- Settles O57: an error and a completion both leave the context. -/
theorem cipherCommandsOnlyReadContext : Obligations.CipherCommandsOnlyReadContext := by
  intro i s t hi hexec
  obtain ⟨r, -, rfl⟩ | hdone := exec_cases hexec
  · exact sameContext_afterError r s
  · cases hdone with
    | config | initkeys => simp [isCipher] at hi
    | cipher => exact sameContext_cipherCompletion i s

/-- R104, R204: while a key is loaded, only a supported CONFIG changes the context. -/
theorem config_of_context_changed {i : Instr} {s t : State} (hkeyed : s.keyvalid = true) (hexec : exec i s = .next t)
    (hne : ¬ SameContext s t) : ∃ kb, i = .config kb ∧ KeySizeOk (.config kb) := by
  obtain ⟨r, -, rfl⟩ | hdone := exec_cases hexec
  · exact absurd (sameContext_afterError r s) hne
  · cases hdone with
    | config hsize => exact ⟨_, rfl, hsize⟩
    | initkeys hready =>
      obtain ⟨⟨⟨-, hunkeyed, -⟩, -⟩, -⟩ := hready
      exact absurd (hkeyed.symm.trans hunkeyed) (by decide)
    | cipher => exact absurd (sameContext_cipherCompletion i s) hne

/-- Settles O58, an input at a time. -/
theorem loadedKeyIsLocked : Obligations.LoadedKeyIsLocked := by
  intro s t hkeyed hstep hne
  obtain ⟨-, h⟩ | ⟨f, rest, i, hin, hd, h⟩ | ⟨f, rest, why, -, -, h⟩ | ⟨rest, hin, -⟩ | ⟨a, b, rest, -, h⟩ := step_cases s
  case inr.inr.inr.inl => exact .inl ⟨rest, hin⟩
  case inr.inl =>
    obtain ⟨kb, rfl, hsize⟩ :=
      config_of_context_changed (s := { s with inputs := rest }) hkeyed (h.symm.trans hstep) hne
    exact .inr ⟨f, rest, kb, hin, hd, hsize⟩
  all_goals
    obtain rfl := Host.Outcome.next.inj (hstep.symm.trans h)
    exact absurd ⟨rfl, rfl, rfl⟩ hne

/-! ### Writes within a set of addresses -/

/-- The memory changes at the addresses `p` only, and keeps its canonical form. -/
structure WritesWithin (p : Nat → Prop) (m m' : Memory) : Prop where
  wf : Memory.wf m = true → Memory.wf m' = true
  frame : ∀ a, ¬ p a → readByte m' a = readByte m a

theorem WritesWithin.refl (p : Nat → Prop) (m : Memory) : WritesWithin p m m := ⟨id, fun _ _ => rfl⟩

theorem WritesWithin.trans {p : Nat → Prop} {m m' m'' : Memory} (h : WritesWithin p m m') (h' : WritesWithin p m' m'') :
    WritesWithin p m m'' :=
  ⟨h'.wf ∘ h.wf, fun a ha => (h'.frame a ha).trans (h.frame a ha)⟩

theorem WritesWithin.mono {p q : Nat → Prop} {m m' : Memory} (h : WritesWithin p m m') (hpq : ∀ a, p a → q a) :
    WritesWithin q m m' :=
  ⟨h.wf, fun a ha => h.frame a (ha ∘ hpq a)⟩

/-- A string written inside a buffer, from an offset on. -/
theorem memWrite_writesWithin (m : Memory) {d : Desc} {k : Nat} {v : List Byte} (h : k + v.length ≤ d.len.toNat) :
    WritesWithin (InBuffer d) m (memWrite m (d.addr.toNat + k) v) where
  wf := memWrite_wf _ v
  frame a ha := readByte_memWrite_outside (by unfold InBuffer at ha; omega)

theorem writeBlock_writesWithin (m : Memory) {d : Desc} (h : d.len = 16) (b : Block) :
    WritesWithin (InBuffer d) m (writeBlock m d.addr.toNat b) :=
  memWrite_writesWithin m (k := 0) (by simp [h])

/-- R140: a loop whose iteration `i` writes at most a block, at block `i` of the buffer. -/
theorem forBlocks_writesWithin {n : Nat} {d : Desc} {step : Nat → Work → Work}
    (hstep : ∀ i w, i < n → ∃ v, (step i w).mem = memWrite w.mem (blockAddr d i) v ∧ 16 * i + v.length ≤ d.len.toNat)
    (wk : Work) : WritesWithin (InBuffer d) wk.mem (forBlocks n step wk).mem :=
  forBlocks_induct (fun _ w => WritesWithin (InBuffer d) wk.mem w.mem) (.refl _ _) fun i w hi hw => by
    obtain ⟨v, hv, hfit⟩ := hstep i { w with idx := BitVec.ofNat 28 i } hi
    rw [hv]
    exact hw.trans (memWrite_writesWithin w.mem hfit)

theorem Realizes.writesWithin {m : ModeStep} {reg : Work → Block} {src dst : Desc} {step : Nat → Work → Work} {n : Nat}
    (h : Realizes m reg src dst step) (hdst : dst.len.toNat = 16 * n) (wk : Work) :
    WritesWithin (InBuffer dst) wk.mem (forBlocks n step wk).mem :=
  forBlocks_writesWithin (fun i w hi => ⟨_, h.mem_eq i w.idx w, by rw [bytesOf_length]; omega⟩) wk

/-! ### The output buffers of a command (R41) -/

/-- The addresses a command may write: those of DST, and of TAG for GCM.ENC. -/
def InOutput : Instr → Nat → Prop
  | .config _,               _ => False
  | .initkeys _,             _ => False
  | .encblk _ dst,           a => InBuffer dst a
  | .decblk _ dst,           a => InBuffer dst a
  | .ecbEnc _ _ dst,         a => InBuffer dst a
  | .ecbDec _ _ dst,         a => InBuffer dst a
  | .cbcEnc _ _ dst _,       a => InBuffer dst a
  | .cbcDec _ _ dst _,       a => InBuffer dst a
  | .cfbEnc _ _ dst _,       a => InBuffer dst a
  | .cfbDec _ _ dst _,       a => InBuffer dst a
  | .ofbEnc _ _ dst _,       a => InBuffer dst a
  | .ofbDec _ _ dst _,       a => InBuffer dst a
  | .ctrEnc _ _ dst _,       a => InBuffer dst a
  | .ctrDec _ _ dst _,       a => InBuffer dst a
  | .gcmEnc _ dst _ _ tag,   a => InBuffer dst a ∨ InBuffer tag a
  | .gcmDec _ dst _ _ _,     a => InBuffer dst a

/-- A piece is no longer than what is left of the text. -/
theorem xorBytes_readPiece_length_le {m : Memory} {d : Desc} {i : Nat} (hi : i < blocksIn d.len.toNat) (b : Block) :
    16 * i + (xorBytes (readPiece m d i) (bytesOf b)).length ≤ d.len.toNat := by
  unfold blocksIn at hi
  simp only [xorBytes, List.length_zipWith, readPiece, memRead_length, pieceLen]
  omega

theorem gcmEncStep_writesWithin {src dst : Desc} (hlen : dst.len = src.len) (k : Schedule) (wk : Work) :
    WritesWithin (InBuffer dst) wk.mem (forBlocks (blocksIn src.len.toNat) (gcmEncStep k src dst) wk).mem :=
  forBlocks_writesWithin (fun _ _ hi => ⟨_, rfl, hlen ▸ xorBytes_readPiece_length_le hi _⟩) wk

theorem gcmDecrypt_writesWithin {src dst : Desc} (hlen : dst.len = src.len) (iv : Desc) (k : Schedule) (wk : Work) :
    WritesWithin (InBuffer dst) wk.mem (gcmDecrypt src dst iv k wk).mem :=
  forBlocks_writesWithin (step := gcmDecStep k src dst)
    (fun _ _ hi => ⟨_, rfl, hlen ▸ xorBytes_readPiece_length_le hi _⟩)
    { wk with ctrb := initialCounter (memRead wk.mem iv.addr.toNat 12) }

theorem gcmEncBody_writesWithin {src dst iv aad tag : Desc} (hlen : dst.len = src.len) (htag : tag.len = 16)
    (k : Schedule) (wk : Work) :
    WritesWithin (fun a => InBuffer dst a ∨ InBuffer tag a) wk.mem (gcmEncBody src dst iv aad tag k wk).mem := by
  have htext := gcmEncStep_writesWithin hlen k (authPhase aad (gcmSetup iv k wk))
  rw [authPhase_mem, gcmSetup_mem] at htext
  exact (htext.mono fun _ => .inl).trans ((writeBlock_writesWithin _ htag _).mono fun _ => .inr)

theorem gcmDecBody_writesWithin {src dst : Desc} (hlen : dst.len = src.len) (iv aad tag : Desc)
    (k : Schedule) (wk : Work) : WritesWithin (InBuffer dst) wk.mem (gcmDecBody src dst iv aad tag k wk).1.mem := by
  rw [gcmDecBody_eq, ← gcmAuthenticate_mem src iv aad tag k wk]
  split
  · exact gcmDecrypt_writesWithin hlen iv k _
  · exact memWrite_writesWithin _ (k := 0) (by simp [hlen])

/-- R41: whatever registers the command starts from, its writes stay in its output buffers. -/
theorem cipherBody_writesWithin {i : Instr} {s : State} (hi : isCipher i = true)
    (hpass : firstFailure (checksOf i s) = none) (k : Schedule) (wk : Work) :
    WritesWithin (InOutput i) wk.mem (cipherBody i k wk).1.mem := by
  have hecb {n : Word} {src dst : Desc} (h : firstFailure (ecbChecks n src dst s) = none) :
      dst.len.toNat = 16 * n.toNat := by
    obtain ⟨⟨-, hdst⟩, -⟩ := text_of_ready ((ecbChecks_pass_iff n src dst s).1 h)
    exact hdst
  have hchain {n : Word} {src dst iv : Desc} (h : firstFailure (chainChecks n src dst iv s) = none) :
      dst.len.toNat = 16 * n.toNat :=
    hecb ((ecbChecks_pass_iff n src dst s).2 (ready_chain_iff.1 ((chainChecks_pass_iff n src dst iv s).1 h)).1)
  have hctr {n : Word} {src dst iv : Desc} (h : firstFailure (ctrChecks n src dst iv s) = none) :
      dst.len.toNat = 16 * n.toNat :=
    hchain ((chainChecks_pass_iff n src dst iv s).2 (ready_ctr_iff.1 ((ctrChecks_pass_iff n src dst iv s).1 h)).1)
  cases i with
  | config kb | initkeys src => simp [isCipher] at hi
  | encblk src dst | decblk src dst =>
    obtain ⟨hlen, -⟩ := dst_of_ready_block ((blockChecks_pass_iff src dst s).1 hpass)
    exact writeBlock_writesWithin wk.mem hlen _
  | ecbEnc n src dst => exact (ecbEncStep_realizes k src dst).writesWithin (hecb hpass) wk
  | ecbDec n src dst => exact (ecbDecStep_realizes k src dst).writesWithin (hecb hpass) wk
  | cbcEnc n src dst iv => exact (cbcEncStep_realizes k src dst).writesWithin (hchain hpass) (loadCv iv wk)
  | cbcDec n src dst iv => exact (cbcDecStep_realizes k src dst).writesWithin (hchain hpass) (loadCv iv wk)
  | cfbEnc n src dst iv => exact (cfbEncStep_realizes k src dst).writesWithin (hchain hpass) (loadCv iv wk)
  | cfbDec n src dst iv => exact (cfbDecStep_realizes k src dst).writesWithin (hchain hpass) (loadCv iv wk)
  | ofbEnc n src dst iv | ofbDec n src dst iv =>
    exact (ofbStep_realizes k src dst).writesWithin (hchain hpass) (loadCv iv wk)
  | ctrEnc n src dst iv | ctrDec n src dst iv =>
    exact (ctrStep_realizes k src dst).writesWithin (hctr hpass) (loadCtrb iv wk)
  | gcmEnc src dst iv aad tag =>
    obtain ⟨⟨⟨-, -, hlen, -, htag⟩, -⟩, -⟩ := (gcmChecks_pass_iff src dst iv aad tag s).1 hpass
    exact gcmEncBody_writesWithin hlen htag k wk
  | gcmDec src dst iv aad tag =>
    obtain ⟨⟨⟨-, -, hlen, -⟩, -⟩, -⟩ := (gcmChecks_pass_iff src dst iv aad tag s).1 hpass
    exact gcmDecBody_writesWithin hlen iv aad tag k wk

theorem exec_writesWithin {i : Instr} {s t : State} (hexec : exec i s = .next t) :
    WritesWithin (InOutput i) s.mem t.mem := by
  obtain ⟨r, -, rfl⟩ | hdone := exec_cases hexec
  · exact .refl _ s.mem
  · cases hdone with
    | config | initkeys => exact .refl _ s.mem
    | cipher hi hpass => exact cipherBody_writesWithin hi hpass (scheduleOf s) (workOf s)

/-- Settles O60: the addresses it excludes are those of the command's output buffers. -/
theorem writesStayInOutputBuffers : Obligations.WritesStayInOutputBuffers := by
  intro i s t hexec a ha
  refine (exec_writesWithin hexec).frame a ?_
  cases i with
  | config kb | initkeys src => exact not_false
  | gcmEnc src dst iv aad tag => exact not_or.2 ha
  | _ => exact ha

/-! ### The invariant of the context (R24) -/

/-- Settles O55: no key is loaded, and the reset values are zeros. -/
theorem invariantHoldsAtReset : Obligations.InvariantHoldsAtReset where
  keyed_configured h := by simp [State.reset] at h
  keyed_schedule h := by simp [State.reset] at h
  unkeyed_zero _ i _ := wAt_replicate_zero i
  last_is_code := ⟨.ok, rfl⟩
  mem_wf := reset_mem_wf
  transients_zero := rfl

/-- The invariant does not speak of the two ports. -/
theorem inv_inputs {s : State} (h : Inv s) (rest : List HostEvent) : Inv { s with inputs := rest } :=
  ⟨h.keyed_configured, h.keyed_schedule, h.unkeyed_zero, h.last_is_code, h.mem_wf, h.transients_zero⟩

/-- A command that leaves the context keeps the invariant if its memory is canonical. -/
theorem inv_complete {s : State} (h : Inv s) (r : ResultCode) {m : Memory} (hm : Memory.wf m = true) :
    Inv (complete r m s) :=
  ⟨h.keyed_configured, h.keyed_schedule, h.unkeyed_zero, ⟨r, rfl⟩, hm, rfl⟩

/-- A cleared context, as after reset and after CONFIG. -/
theorem inv_of_cleared {s : State} (hkey : s.keyvalid = false) (hw : s.w = Vector.replicate Config.wRegs 0)
    (hlast : ∃ r : ResultCode, s.last = r.code) (hm : Memory.wf s.mem = true) (htr : s.tr = Transients.zero) : Inv s where
  keyed_configured h := by simp [hkey] at h
  keyed_schedule h := by simp [hkey] at h
  unkeyed_zero _ i _ := by rw [hw, wAt_replicate_zero]
  last_is_code := hlast
  mem_wf := hm
  transients_zero := htr

/-- R24 (b): the words past the expansion were zero before the key was loaded. -/
theorem holdsSchedule_initkeysCompletion {src : Desc} {s : State} (h : Inv s) (hready : Ready (.initkeys src) s) :
    HoldsSchedule (initkeysCompletion src s) := by
  obtain ⟨⟨⟨-, hunkeyed, -⟩, -⟩, -⟩ := hready
  refine ⟨memRead s.mem src.addr.toNat (keybytesOf s.ksize), memRead_length _ _ _, fun i hi => ?_⟩
  show wAt (loadWords s.w (keyExpansion _ (nkOf s.ksize))) i = (keyExpansion _ (nkOf s.ksize)).getD i 0
  rcases Nat.lt_or_ge i (keyExpansion (memRead s.mem src.addr.toNat (keybytesOf s.ksize)) (nkOf s.ksize)).length
    with hnew | hold
  · exact wAt_loadWords_of_lt s.w hi hnew
  · rw [wAt_loadWords_of_ge s.w hold, h.unkeyed_zero hunkeyed i hi, List.getD_eq_default _ _ hold]

theorem inv_initkeysCompletion {src : Desc} {s : State} (h : Inv s) (hready : Ready (.initkeys src) s) :
    Inv (initkeysCompletion src s) where
  keyed_configured _ := by
    obtain ⟨⟨⟨hksize, -⟩, -⟩, -⟩ := hready
    exact hksize
  keyed_schedule _ := holdsSchedule_initkeysCompletion h hready
  unkeyed_zero hkey := nomatch hkey
  last_is_code := ⟨.ok, rfl⟩
  mem_wf := h.mem_wf
  transients_zero := rfl

theorem inv_exec {i : Instr} {s t : State} (h : Inv s) (hexec : exec i s = .next t) : Inv t := by
  have hm := (exec_writesWithin hexec).wf h.mem_wf
  obtain ⟨r, -, rfl⟩ | hdone := exec_cases hexec
  · exact inv_complete h r h.mem_wf
  · cases hdone with
    | config => exact inv_of_cleared rfl rfl ⟨.ok, rfl⟩ hm rfl
    | initkeys hready => exact inv_initkeysCompletion h hready
    | cipher => exact inv_complete h _ hm

/-- Settles O56, an input at a time; a frame's command by `exec_cases`. -/
theorem stepKeepsInvariant : Obligations.StepKeepsInvariant := by
  intro s t h hstep
  obtain ⟨-, hs⟩ | ⟨f, rest, i, -, -, hs⟩ | ⟨f, rest, why, -, -, hs⟩ | ⟨rest, -, hs⟩ | ⟨a, b, rest, -, hs⟩ := step_cases s
  case inr.inl => exact inv_exec (inv_inputs h rest) (hs.symm.trans hstep)
  all_goals obtain rfl := Host.Outcome.next.inj (hstep.symm.trans hs)
  · exact h
  · exact inv_complete (inv_inputs h rest) .illegalCommand h.mem_wf
  · exact inv_of_cleared rfl rfl ⟨.ok, rfl⟩ h.mem_wf rfl
  · exact ⟨h.keyed_configured, h.keyed_schedule, h.unkeyed_zero, h.last_is_code, writeByte_wf _ b h.mem_wf,
      h.transients_zero⟩

end Sys2Proof.Proofs
end

section
/-! Nothing but the context and the memory is carried over (10_state.md R21; 60_exceptions.md R215).  Two states that
agree on both make the same checks, and the work of a command sets every register it reads: `cipherBody_congr`. -/

namespace Sys2Proof.Proofs

open Sys2Proof Sys2Proof.Machine Sys2Proof.Laws

/-! ### Two runs of a loop -/

/-- A relation that an iteration keeps, whatever IDX holds, is kept by the loop. -/
theorem forBlocks_related {n : Nat} {step : Nat → Work → Work} (R : Work → Work → Prop)
    (hstep : ∀ i j w w', R w w' → R (step i { w with idx := j }) (step i { w' with idx := j })) {wk wk' : Work}
    (h : R wk wk') : R (forBlocks n step wk) (forBlocks n step wk') := by
  induction n with
  | zero => exact h
  | succ n ih => exact hstep n _ _ _ ih

/-- Equal memories and equal registers of the mode. -/
theorem Realizes.forBlocks_congr {m : ModeStep} {reg : Work → Block} {src dst : Desc} {step : Nat → Work → Work}
    (hstep : Realizes m reg src dst step) (n : Nat) {wk wk' : Work} (hmem : wk.mem = wk'.mem) (hreg : reg wk = reg wk') :
    (forBlocks n step wk).mem = (forBlocks n step wk').mem := by
  obtain ⟨h, -⟩ := forBlocks_related (n := n) (fun w w' => w.mem = w'.mem ∧ reg w = reg w') (fun i j w w' ⟨hm, hr⟩ => by
    rw [hstep.mem_eq, hstep.mem_eq, hstep.reg_eq, hstep.reg_eq, hm, hr]
    exact ⟨rfl, rfl⟩) ⟨hmem, hreg⟩
  exact h

/-! ### GCM's registers -/

/-- The registers GCM.ENC carries from one piece to the next, and the memory. -/
def gcmCarried (wk : Work) : Memory × Block × Block × Block × Block := (wk.mem, wk.ctrb, wk.h, wk.ej0, wk.acc)

/-- The work with the registers `gcmCarried` does not name set to zero. -/
def ofGcmCarried : Memory × Block × Block × Block × Block → Work
  | (mem, ctrb, h, ej0, acc) => { Transients.zero with mem := mem, ctrb := ctrb, h := h, ej0 := ej0, acc := acc }

theorem gcmCarried_gcmEncStep (k : Schedule) (src dst : Desc) (i : Nat) (j : BitVec 28) (wk : Work) :
    gcmCarried (gcmEncStep k src dst i { wk with idx := j }) =
      gcmCarried (gcmEncStep k src dst i (ofGcmCarried (gcmCarried wk))) := rfl

theorem gcmCarried_gcmEncLoop {k : Schedule} {src dst : Desc} {n : Nat} {wk wk' : Work}
    (h : gcmCarried wk = gcmCarried wk') :
    gcmCarried (forBlocks n (gcmEncStep k src dst) wk) = gcmCarried (forBlocks n (gcmEncStep k src dst) wk') :=
  forBlocks_related (fun w w' => gcmCarried w = gcmCarried w')
    (fun i j w w' hw => by
      rw [gcmCarried_gcmEncStep k src dst i j w, hw]
      exact (gcmCarried_gcmEncStep k src dst i j w').symm) h

/-- R171 to R176: the set-up and the AAD leave registers that depend on the memory only. -/
theorem gcmCarried_authPhase_gcmSetup (aad iv : Desc) (k : Schedule) {wk wk' : Work} (h : wk.mem = wk'.mem) :
    gcmCarried (authPhase aad (gcmSetup iv k wk)) = gcmCarried (authPhase aad (gcmSetup iv k wk')) := by
  simp [gcmCarried, authPhase_acc, h]

/-- The work of GCM.ENC before the lengths are folded. -/
def gcmEncText (src dst iv aad : Desc) (k : Schedule) (wk : Work) : Work :=
  forBlocks (blocksIn src.len.toNat) (gcmEncStep k src dst) (authPhase aad (gcmSetup iv k wk))

/-- The last steps of GCM.ENC read the carried registers alone. -/
theorem gcmEncBody_mem_eq (src dst iv aad tag : Desc) (k : Schedule) (wk : Work) :
    (gcmEncBody src dst iv aad tag k wk).mem =
      writeBlock (gcmCarried (gcmEncText src dst iv aad k wk)).1 tag.addr.toNat
        (tagOf (foldLengths src aad (ofGcmCarried (gcmCarried (gcmEncText src dst iv aad k wk))))) := rfl

theorem gcmEncBody_mem_congr (src dst iv aad tag : Desc) (k : Schedule) {wk wk' : Work} (h : wk.mem = wk'.mem) :
    (gcmEncBody src dst iv aad tag k wk).mem = (gcmEncBody src dst iv aad tag k wk').mem := by
  have htext : gcmCarried (gcmEncText src dst iv aad k wk) = gcmCarried (gcmEncText src dst iv aad k wk') :=
    gcmCarried_gcmEncLoop (gcmCarried_authPhase_gcmSetup aad iv k h)
  rw [gcmEncBody_mem_eq, gcmEncBody_mem_eq, htext]

theorem gcmDecrypt_mem_congr (src dst iv : Desc) (k : Schedule) {wk wk' : Work} (h : wk.mem = wk'.mem) :
    (gcmDecrypt src dst iv k wk).mem = (gcmDecrypt src dst iv k wk').mem := by
  obtain ⟨hmem, -⟩ := forBlocks_related (n := blocksIn src.len.toNat) (step := gcmDecStep k src dst)
    (fun w w' => w.mem = w'.mem ∧ w.ctrb = w'.ctrb) (fun i j w w' ⟨hm, hc⟩ => by
      simp [gcmDecStep, cryptPiece, nextKeystream, hm, hc])
    (wk := { wk with ctrb := initialCounter (memRead wk.mem iv.addr.toNat 12) })
    (wk' := { wk' with ctrb := initialCounter (memRead wk'.mem iv.addr.toNat 12) }) ⟨h, by rw [h]⟩
  exact hmem

theorem gcmDecBody_congr (src dst iv aad tag : Desc) (k : Schedule) {wk wk' : Work} (h : wk.mem = wk'.mem) :
    (gcmDecBody src dst iv aad tag k wk).2 = (gcmDecBody src dst iv aad tag k wk').2 ∧
      (gcmDecBody src dst iv aad tag k wk).1.mem = (gcmDecBody src dst iv aad tag k wk').1.mem := by
  rw [gcmDecBody_eq, gcmDecBody_eq, h]
  split
  · exact ⟨rfl, gcmDecrypt_mem_congr src dst iv k (by simp [h])⟩
  · exact ⟨rfl, by simp [h]⟩

/-! ### Commands -/

/-- R21: a command's code and writes do not depend on the registers it starts from. -/
theorem cipherBody_congr (i : Instr) (k : Schedule) {wk wk' : Work} (h : wk.mem = wk'.mem) :
    (cipherBody i k wk).2 = (cipherBody i k wk').2 ∧ (cipherBody i k wk).1.mem = (cipherBody i k wk').1.mem := by
  have hcv (iv : Desc) : (loadCv iv wk).cv = (loadCv iv wk').cv := by simp [h]
  have hctrb (iv : Desc) : (loadCtrb iv wk).ctrb = (loadCtrb iv wk').ctrb := by simp [h]
  cases i with
  | config kb | initkeys src => exact ⟨rfl, h⟩
  | encblk src dst | decblk src dst => simp [cipherBody, returnOk, encblkBody, decblkBody, h]
  | ecbEnc n src dst => exact ⟨rfl, (ecbEncStep_realizes k src dst).forBlocks_congr n.toNat h rfl⟩
  | ecbDec n src dst => exact ⟨rfl, (ecbDecStep_realizes k src dst).forBlocks_congr n.toNat h rfl⟩
  | cbcEnc n src dst iv => exact ⟨rfl, (cbcEncStep_realizes k src dst).forBlocks_congr n.toNat h (hcv iv)⟩
  | cbcDec n src dst iv => exact ⟨rfl, (cbcDecStep_realizes k src dst).forBlocks_congr n.toNat h (hcv iv)⟩
  | cfbEnc n src dst iv => exact ⟨rfl, (cfbEncStep_realizes k src dst).forBlocks_congr n.toNat h (hcv iv)⟩
  | cfbDec n src dst iv => exact ⟨rfl, (cfbDecStep_realizes k src dst).forBlocks_congr n.toNat h (hcv iv)⟩
  | ofbEnc n src dst iv | ofbDec n src dst iv =>
    exact ⟨rfl, (ofbStep_realizes k src dst).forBlocks_congr n.toNat h (hcv iv)⟩
  | ctrEnc n src dst iv | ctrDec n src dst iv =>
    exact ⟨rfl, (ctrStep_realizes k src dst).forBlocks_congr n.toNat h (hctrb iv)⟩
  | gcmEnc src dst iv aad tag => exact ⟨rfl, gcmEncBody_mem_congr src dst iv aad tag k h⟩
  | gcmDec src dst iv aad tag => exact gcmDecBody_congr src dst iv aad tag k h

/-- The checks read the context and the memory. -/
theorem checksOf_congr {s s' : State} (hctx : SameContext s s') (hmem : s'.mem = s.mem) (i : Instr) :
    checksOf i s' = checksOf i s := by
  obtain ⟨ksize, keyvalid, w, last, tr, mem, inputs, responses⟩ := s
  obtain ⟨ksize', keyvalid', w', last', tr', mem', inputs', responses'⟩ := s'
  obtain ⟨rfl, rfl, rfl⟩ : ksize' = ksize ∧ keyvalid' = keyvalid ∧ w' = w := hctx
  obtain rfl : mem' = mem := hmem
  cases i <;> rfl

/-- Settles O59: the checks agree; on a failure the same code is raised, else the two commands complete alike. -/
theorem nothingElseIsCarriedOver : Obligations.NothingElseIsCarriedOver := by
  intro i s s' hctx hmem
  obtain ⟨t, ht⟩ : ∃ t, exec i s = .next t := by
    obtain ⟨-, t, ht, -⟩ := exec_code i s
    exact ⟨t, ht⟩
  obtain ⟨r, hr, rfl⟩ | hdone := exec_cases ht
  · exact ⟨r, _, _, ht, exec_of_failure (checksOf_congr hctx hmem i ▸ hr), endsWith_afterError r s,
      endsWith_afterError r s', hctx, hmem⟩
  · cases hdone with
    | @config kb k _ hsize hk =>
      exact ⟨.ok, _, _, ht, exec_config_of_some hk s', endsWith_complete .ok _ (configure k s),
        endsWith_complete .ok _ (configure k s'), ⟨rfl, rfl, rfl⟩, hmem⟩
    | @initkeys src _ hready =>
      have hpass := (initkeysChecks_pass_iff src s).2 hready
      have hchecks := checksOf_congr hctx hmem (.initkeys src)
      obtain ⟨hksize, -, hw⟩ := hctx
      refine ⟨.ok, _, _, ht, exec_initkeys_of_pass (hchecks ▸ hpass),
        endsWith_complete .ok _ (loadKey _ s), endsWith_complete .ok _ (loadKey _ s'), ⟨hksize, rfl, ?_⟩, hmem⟩
      simp [initkeysCompletion, hksize, hw, hmem]
    | cipher hi hpass =>
      obtain ⟨hcode, hmem'⟩ := cipherBody_congr i (scheduleOf s) (wk := workOf s') (wk' := workOf s) hmem
      refine ⟨_, _, _, ht, exec_cipher_of_pass hi (checksOf_congr hctx hmem i ▸ hpass), endsWith_complete _ _ s, ?_,
        hctx, ?_⟩
      · rw [← hcode, ← scheduleOf_eq hctx]
        exact endsWith_complete _ _ s'
      · rw [cipherCompletion, cipherCompletion, scheduleOf_eq hctx]
        exact hmem'

end Sys2Proof.Proofs
end
